-- ==== Sys2Proof/Word.lean ====
section
/-! DEFINITION. The bit-vector types of the TMS34010 (00_scope.md R2): an address unit is one bit, a word is 16 bits,
an address, PC, ST, SP and a general register are 32 bits. -/

namespace Sys2Proof

/-- Eight bits: the unit `Host.Cell` stores. -/
abbrev Byte := BitVec 8

/-- A word of the hardware, 16 bits (R2: "a word boundary is where four address LSBs are 0"). -/
abbrev Word := BitVec 16

/-- A 32-bit value: an address of one bit of memory, or the contents of PC, ST, SP or a general register (R2). -/
abbrev Long := BitVec 32

end Sys2Proof
end

