-- ==== Sys2Proof/Config.lean ====
section
/-! DEFINITION. What an implementation fixes: the parameter `Enc` of 00_scope.md R3, and the free values, what an
instruction leaves where the spec states no value. A free value has no body, so no proof can see what it is, and a statement
about one holds for every value. -/

namespace Sys2Proof

/-- The parameter `Enc` (00_scope.md R3; 30_encoding.md R64; D12): the fixed bits of each named instruction's opcode word.
Where its fields stand is as in R64. -/
structure Enc where
  trap : Word
  reti : Word
  rets : Word
  jruc : Word
  divs : Word
  mmtm : Word
  mmfm : Word
  pixbltBL : Word
  pixbltBXY : Word
  pixbltLL : Word
  pixbltLXY : Word
  pixbltXYL : Word
  pixbltXYXY : Word
  fillL : Word
  fillXY : Word
  line : Word
  deriving DecidableEq, Repr

/-- DESIGN CHOICE (log 31): bits 31:28 of ST after `DIVS`, a function of the register pair form, the dividend, the divisor
and the bits before; "Its arithmetic is not in the source" (40_trap_reti.md R80). -/
opaque Config.divsFlags (pair : Bool) (dividend : BitVec 64) (divisor : Long) (before : BitVec 4) : BitVec 4

/-- DESIGN CHOICE (log 31): the quotient `DIVS` leaves when the divisor is 0 or the quotient does not fit 32 bits (R80). -/
opaque Config.divsOpenQuotient (pair : Bool) (dividend : BitVec 64) (divisor : Long) : Long

/-- DESIGN CHOICE (log 31): the remainder of the register pair form in the same two cases (R80). -/
opaque Config.divsOpenRemainder (dividend : BitVec 64) (divisor : Long) : Long

/-- DESIGN CHOICE (log 30): what `MMTM` stores for its own pointer register, a function of the pointer before the
instruction and at the store; "Its meaning is not in the source" (R82). -/
opaque Config.mmtmPointer (before now : Long) : Long

/-- DESIGN CHOICE (log 30): what `MMFM` leaves in its pointer register when that register is in its list, a function of the
value popped for it and of the pointer after the last pop (R81). -/
opaque Config.mmfmPointer (popped after : Long) : Long

end Sys2Proof
end

