-- ==== Sys2Proof/Syntax.lean ====
section
/-! DEFINITION. The instructions: one constructor per row of spec/opcode_table.json, in the table's order
(30_encoding.md R61, R62, R64). An illegal opcode keeps its free bits, so that its encoding is the word it came from. -/

namespace Sys2Proof

/-- A register file: the F bit of a register field, 0 for A and 1 for B (93_implementation_defined.md G6). -/
inductive RegFile where
  | a
  | b
  deriving DecidableEq, Repr

/-- A register number within a file; 15 is SP in both files (10_state.md R16, G3). -/
abbrev RegNum := BitVec 4

inductive Instr where
  /-- `TRAP N` (R70 to R73). -/
  | trap (n : BitVec 5)
  /-- `RETI` (R74). -/
  | reti
  /-- `RETS N` (R76). -/
  | rets (n : BitVec 5)
  /-- `JRUC`, short form (R83); `d` is a signed displacement in words. -/
  | jruc (d : BitVec 8)
  /-- `DIVS Rs,Rd`, both registers of file `f` (R80). -/
  | divs (rs : RegNum) (f : RegFile) (rd : RegNum)
  /-- `MMTM Rp,list` (R82). -/
  | mmtm (f : RegFile) (rp : RegNum) (list : Word)
  /-- `MMFM Rp,list` (R81). -/
  | mmfm (f : RegFile) (rp : RegNum) (list : Word)
  /-- The six forms of `PIXBLT` (R77). -/
  | pixbltBL
  | pixbltBXY
  | pixbltLL
  | pixbltLXY
  | pixbltXYL
  | pixbltXYXY
  /-- The two forms of `FILL` (R78). -/
  | fillL
  | fillXY
  /-- `LINE Z`, `z` the algorithm-select bit (R79). -/
  | line (z : BitVec 1)
  /-- The nine illegal ranges of R61, named by their first opcode. -/
  | illop0000 (low : BitVec 8)
  | illop0200 (low : BitVec 8)
  | illop0400 (low : BitVec 8)
  | illop0800 (low : BitVec 8)
  | illop0A00 (low : BitVec 8)
  | illop0C00 (low : BitVec 8)
  | illop0E00 (low : BitVec 8)
  | illop3400 (low : BitVec 10)
  | illopBE00 (low : BitVec 9)
  /-- The six rows of the four reconstructed ranges of R62, named by their first opcode. -/
  | maybe7E00 (low : BitVec 9)
  | maybe9E00 (low : BitVec 9)
  | maybeD800 (low : BitVec 10)
  | maybeDC00 (low : BitVec 9)
  | maybeDE00 (low : BitVec 8)
  | maybeFE00 (low : BitVec 9)
  deriving DecidableEq, Repr

end Sys2Proof
end

