-- ==== Sys2Proof/WellFormed.lean ====
section
/-! DEFINITION. Which instructions have an encoding (30_encoding.md R64). -/

namespace Sys2Proof

/-- The one condition R64 puts on a field: the short `JRUC` needs "d not `>00` and not `>80`". -/
def Instr.wellFormed : Instr → Bool
  | .jruc d => d ≠ 0x00#8 && d ≠ 0x80#8
  | .trap _ | .reti | .rets _ | .divs _ _ _ | .mmtm _ _ _ | .mmfm _ _ _ => true
  | .pixbltBL | .pixbltBXY | .pixbltLL | .pixbltLXY | .pixbltXYL | .pixbltXYXY => true
  | .fillL | .fillXY | .line _ => true
  | .illop0000 _ | .illop0200 _ | .illop0400 _ | .illop0800 _ | .illop0A00 _ | .illop0C00 _ | .illop0E00 _ => true
  | .illop3400 _ | .illopBE00 _ => true
  | .maybe7E00 _ | .maybe9E00 _ | .maybeD800 _ | .maybeDC00 _ | .maybeDE00 _ | .maybeFE00 _ => true

/-- How many 16-bit words the instruction takes: `MMTM` and `MMFM` are followed by a register mask (R60, R64). -/
def Instr.words : Instr → Nat
  | .mmtm _ _ _ | .mmfm _ _ _ => 2
  | .trap _ | .reti | .rets _ | .jruc _ | .divs _ _ _ => 1
  | .pixbltBL | .pixbltBXY | .pixbltLL | .pixbltLXY | .pixbltXYL | .pixbltXYXY => 1
  | .fillL | .fillXY | .line _ => 1
  | .illop0000 _ | .illop0200 _ | .illop0400 _ | .illop0800 _ | .illop0A00 _ | .illop0C00 _ | .illop0E00 _ => 1
  | .illop3400 _ | .illopBE00 _ => 1
  | .maybe7E00 _ | .maybe9E00 _ | .maybeD800 _ | .maybeDC00 _ | .maybeDE00 _ | .maybeFE00 _ => 1

end Sys2Proof
end

