-- ==== Sys2Proof/Decode.lean ====
section
/-! DEFINITION. Decoding as a table of masks and patterns, one row per row of spec/opcode_table.json (30_encoding.md R61,
R62, R64), and the encoder written from the same table. The patterns of the named instructions are the parameter `Enc`
(00_scope.md R3, D12). PRESUMED (log 12): its default, general knowledge in the spec itself (93_implementation_defined.md
G6). -/

namespace Sys2Proof

/-- Why bits are no instruction of the table. -/
inductive DecodeError where
  /-- No row of the table matches (30_encoding.md R63). -/
  | noRow (op : Word)
  /-- The row matches but excludes this field value: `JRUC` with displacement `>00` or `>80` (R64). -/
  | excludedField (op : Word)
  /-- Fewer bytes than the instruction has. -/
  | truncated
  deriving DecidableEq, Repr

/-- One row of the opcode table: an opcode `op` matches when `op &&& mask = pattern`; `form` builds the instruction from
the opcode word and the word after it. -/
structure OpcodeRow where
  mask : Word
  pattern : Word
  form : Word → Word → Instr

/-- The register file bit, bit 4 of a register field (G6). -/
def fileOfBit (bit : Bool) : RegFile := if bit then .b else .a

def RegFile.bit : RegFile → BitVec 1
  | .a => 0#1
  | .b => 1#1

/-- The default of `Enc` (R64, D12). PRESUMED (log 12, G6). -/
def Enc.standard : Enc where
  trap := 0x0900
  reti := 0x0940
  rets := 0x0960
  jruc := 0xC000
  divs := 0x5800
  mmtm := 0x0980
  mmfm := 0x09A0
  pixbltBL := 0x0F00
  pixbltBXY := 0x0F20
  pixbltLL := 0x0F40
  pixbltLXY := 0x0F60
  pixbltXYL := 0x0F80
  pixbltXYXY := 0x0FA0
  fillL := 0x0FC0
  fillXY := 0x0FE0
  line := 0xDF1A

/-- `TRAP` to `MMFM` (R64). -/
def coreRows (e : Enc) : List OpcodeRow :=
  [ ⟨0xFFE0, e.trap, fun op _ => .trap (op.extractLsb' 0 5)⟩,
    ⟨0xFFFF, e.reti, fun _ _ => .reti⟩,
    ⟨0xFFE0, e.rets, fun op _ => .rets (op.extractLsb' 0 5)⟩,
    ⟨0xFF00, e.jruc, fun op _ => .jruc (op.extractLsb' 0 8)⟩,
    ⟨0xFE00, e.divs, fun op _ => .divs (op.extractLsb' 5 4) (fileOfBit (op.getLsbD 4)) (op.extractLsb' 0 4)⟩,
    ⟨0xFFE0, e.mmtm, fun op ext => .mmtm (fileOfBit (op.getLsbD 4)) (op.extractLsb' 0 4) ext⟩,
    ⟨0xFFE0, e.mmfm, fun op ext => .mmfm (fileOfBit (op.getLsbD 4)) (op.extractLsb' 0 4) ext⟩ ]

/-- `PIXBLT`, `FILL` and `LINE` (R64). -/
def pixelRows (e : Enc) : List OpcodeRow :=
  [ ⟨0xFFFF, e.pixbltBL, fun _ _ => .pixbltBL⟩,
    ⟨0xFFFF, e.pixbltBXY, fun _ _ => .pixbltBXY⟩,
    ⟨0xFFFF, e.pixbltLL, fun _ _ => .pixbltLL⟩,
    ⟨0xFFFF, e.pixbltLXY, fun _ _ => .pixbltLXY⟩,
    ⟨0xFFFF, e.pixbltXYL, fun _ _ => .pixbltXYL⟩,
    ⟨0xFFFF, e.pixbltXYXY, fun _ _ => .pixbltXYXY⟩,
    ⟨0xFFFF, e.fillL, fun _ _ => .fillL⟩,
    ⟨0xFFFF, e.fillXY, fun _ _ => .fillXY⟩,
    ⟨0xFF7F, e.line, fun op _ => .line (op.extractLsb' 7 1)⟩ ]

/-- The nine intact entries of Table 8-6 (R61). -/
def illegalRows : List OpcodeRow :=
  [ ⟨0xFF00, 0x0000, fun op _ => .illop0000 (op.extractLsb' 0 8)⟩,
    ⟨0xFF00, 0x0200, fun op _ => .illop0200 (op.extractLsb' 0 8)⟩,
    ⟨0xFF00, 0x0400, fun op _ => .illop0400 (op.extractLsb' 0 8)⟩,
    ⟨0xFF00, 0x0800, fun op _ => .illop0800 (op.extractLsb' 0 8)⟩,
    ⟨0xFF00, 0x0A00, fun op _ => .illop0A00 (op.extractLsb' 0 8)⟩,
    ⟨0xFF00, 0x0C00, fun op _ => .illop0C00 (op.extractLsb' 0 8)⟩,
    ⟨0xFF00, 0x0E00, fun op _ => .illop0E00 (op.extractLsb' 0 8)⟩,
    ⟨0xFC00, 0x3400, fun op _ => .illop3400 (op.extractLsb' 0 10)⟩,
    ⟨0xFE00, 0xBE00, fun op _ => .illopBE00 (op.extractLsb' 0 9)⟩ ]

/-- The reconstructed ranges (R62). -/
def reconstructedRows : List OpcodeRow :=
  [ ⟨0xFE00, 0x7E00, fun op _ => .maybe7E00 (op.extractLsb' 0 9)⟩,
    ⟨0xFE00, 0x9E00, fun op _ => .maybe9E00 (op.extractLsb' 0 9)⟩,
    ⟨0xFC00, 0xD800, fun op _ => .maybeD800 (op.extractLsb' 0 10)⟩,
    ⟨0xFE00, 0xDC00, fun op _ => .maybeDC00 (op.extractLsb' 0 9)⟩,
    ⟨0xFF00, 0xDE00, fun op _ => .maybeDE00 (op.extractLsb' 0 8)⟩,
    ⟨0xFE00, 0xFE00, fun op _ => .maybeFE00 (op.extractLsb' 0 9)⟩ ]

/-- The whole table, 31 rows, in the order of R66: the reconstructed ranges, the illegal ranges, the named instructions. -/
def opcodeRows (e : Enc) : List OpcodeRow := reconstructedRows ++ illegalRows ++ coreRows e ++ pixelRows e

def OpcodeRow.hit (r : OpcodeRow) (op : Word) : Bool := op &&& r.mask = r.pattern

/-- Two rows that no opcode matches both of: they differ in a bit both masks test. -/
def OpcodeRow.apart (r q : OpcodeRow) : Bool := (r.pattern ^^^ q.pattern) &&& r.mask &&& q.mask ≠ 0

/-- The instruction read from an opcode word and the word after it, under an encoding of the named instructions: the first
row the opcode word matches (30_encoding.md R66). -/
def decodeWith (e : Enc) (op ext : Word) : Except DecodeError Instr :=
  match (opcodeRows e).find? (fun r => r.hit op) with
  | none => .error (.noRow op)
  | some r => if (r.form op ext).wellFormed then .ok (r.form op ext) else .error (.excludedField op)

/-- Decoding under the default encoding. Its rows are disjoint, so their order does not matter (R66). -/
def decode (op ext : Word) : Except DecodeError Instr := decodeWith Enc.standard op ext

/-- A 16-bit word from two bytes, the byte at the lower address holding its low bits (20_memory.md R44, D1). -/
def wordOfBytes (lo hi : Byte) : Word := hi ++ lo

/-- The two bytes of a word as memory holds them, the low byte at the lower address (R44, D1). -/
def bytesOfWord (w : Word) : List Byte := [w.extractLsb' 0 8, w.extractLsb' 8 8]

/-- The instruction at the front of a list of bytes, and the bytes after it. -/
def decodeBytes : List Byte → Except DecodeError (Instr × List Byte)
  | b0 :: b1 :: rest =>
    let ext : Word := match rest with
      | b2 :: b3 :: _ => wordOfBytes b2 b3
      | _ => 0
    match decode (wordOfBytes b0 b1) ext with
    | .error e => .error e
    | .ok i => if 2 * (i.words - 1) ≤ rest.length then .ok (i, rest.drop (2 * (i.words - 1))) else .error .truncated
  | _ => .error .truncated

/-- The opcode word of an instruction (30_encoding.md R61, R62, R64). -/
def Instr.opcode : Instr → Word
  | .trap n => 0b00001001000#11 ++ n
  | .reti => 0x0940
  | .rets n => 0b00001001011#11 ++ n
  | .jruc d => 0xC0#8 ++ d
  | .divs rs f rd => 0b0101100#7 ++ rs ++ f.bit ++ rd
  | .mmtm f rp _ => 0b00001001100#11 ++ f.bit ++ rp
  | .mmfm f rp _ => 0b00001001101#11 ++ f.bit ++ rp
  | .pixbltBL => 0x0F00
  | .pixbltBXY => 0x0F20
  | .pixbltLL => 0x0F40
  | .pixbltLXY => 0x0F60
  | .pixbltXYL => 0x0F80
  | .pixbltXYXY => 0x0FA0
  | .fillL => 0x0FC0
  | .fillXY => 0x0FE0
  | .line z => 0xDF#8 ++ z ++ 0b0011010#7
  | .illop0000 low => 0x00#8 ++ low
  | .illop0200 low => 0x02#8 ++ low
  | .illop0400 low => 0x04#8 ++ low
  | .illop0800 low => 0x08#8 ++ low
  | .illop0A00 low => 0x0A#8 ++ low
  | .illop0C00 low => 0x0C#8 ++ low
  | .illop0E00 low => 0x0E#8 ++ low
  | .illop3400 low => 0b001101#6 ++ low
  | .illopBE00 low => 0b1011111#7 ++ low
  | .maybe7E00 low => 0b0111111#7 ++ low
  | .maybe9E00 low => 0b1001111#7 ++ low
  | .maybeD800 low => 0b110110#6 ++ low
  | .maybeDC00 low => 0b1101110#7 ++ low
  | .maybeDE00 low => 0xDE#8 ++ low
  | .maybeFE00 low => 0b1111111#7 ++ low

/-- The words after the opcode word: the register mask of `MMTM` and `MMFM` (R64). -/
def Instr.extension : Instr → List Word
  | .mmtm _ _ list | .mmfm _ _ list => [list]
  | .trap _ | .reti | .rets _ | .jruc _ | .divs _ _ _ => []
  | .pixbltBL | .pixbltBXY | .pixbltLL | .pixbltLXY | .pixbltXYL | .pixbltXYXY => []
  | .fillL | .fillXY | .line _ => []
  | .illop0000 _ | .illop0200 _ | .illop0400 _ | .illop0800 _ | .illop0A00 _ | .illop0C00 _ | .illop0E00 _ => []
  | .illop3400 _ | .illopBE00 _ => []
  | .maybe7E00 _ | .maybe9E00 _ | .maybeD800 _ | .maybeDC00 _ | .maybeDE00 _ | .maybeFE00 _ => []

/-- The words of an instruction, the opcode word first (R64). -/
def encode (i : Instr) : List Word := i.opcode :: i.extension

/-- The illegal opcodes of R61 by their bounds, as the source's table gives them. -/
def isIllegalOpcode (op : Word) : Bool :=
  [(0x0000, 0x00FF), (0x0200, 0x02FF), (0x0400, 0x04FF), (0x0800, 0x08FF), (0x0A00, 0x0AFF), (0x0C00, 0x0CFF),
    (0x0E00, 0x0EFF), (0x3400, 0x37FF), (0xBE00, 0xBFFF)].any (fun r => r.1 ≤ op.toNat && op.toNat ≤ r.2)

/-- The reconstructed ranges of R62 by their bounds. -/
def isReconstructedOpcode (op : Word) : Bool :=
  [(0x7E00, 0x7FFF), (0x9E00, 0x9FFF), (0xD800, 0xDEFF), (0xFE00, 0xFFFF)].any
    (fun r => r.1 ≤ op.toNat && op.toNat ≤ r.2)

/-- The instruction read from the bits of an opcode-table row, numbered as the table numbers them: bit 0 the least
significant bit of the first word, the second word's bits counting on from 16; bits from `nbits` up are 0. -/
def decodeTableWord (nbits w : Nat) : Option Instr :=
  let bits : BitVec 32 := BitVec.ofNat 32 (w % 2 ^ nbits)
  match decodeBytes (bytesOfWord (bits.extractLsb' 0 16) ++ bytesOfWord (bits.extractLsb' 16 16)) with
  | .ok (i, _) => some i
  | .error _ => none

end Sys2Proof
end

