-- ==== Sys2Proof/Machine/Params.lean ====
section
/-! DEFINITION. The implementation parameters of 00_scope.md R3 with the defaults the spec decided, and the names of the I/O
registers. The parameters are plain data in State, so a statement about every state holds for every choice of them; no step
changes them. -/

namespace Sys2Proof.Machine

/-- A bit of HSTCTL the chapter names (10_state.md R21). -/
inductive HstctlBit where
  | nmi
  | nmim
  | intin
  | hlt
  deriving DecidableEq, Repr

/-- The I/O registers that the chapter does not name and that have no effect here; their names are those of
93_implementation_defined.md G4. -/
inductive OtherIo where
  | hesync | heblnk | hsblnk | htotal | vesync | veblnk | vsblnk | vtotal | dpyctl | dpystrt | control
  | hstdata | hstadrl | hstadrh | convsp | convdp | psize | pmask | hcount | dpyadr | refcnt | dpytap
  deriving DecidableEq, Repr

/-- An I/O register that is read and written as a word, by name (D9). HSTCTL is written by named bit (D10). -/
inductive IoReg where
  | intenb
  | intpend
  | dpyint
  | vcount
  | other (r : OtherIo)
  deriving DecidableEq, Repr

/-- `BitOrder` (20_memory.md R44, D1): bit `i` of an n-bit value at `addr + i`, or at `addr + n - 1 - i`. DESIGN CHOICE
(log 1): the second is the model's reading of "both orders". -/
inductive BitOrder where
  | lowFirst
  | highFirst
  deriving DecidableEq, Repr

/-- `StackDir` (20_memory.md R45, D2): the way the stack grows. DESIGN CHOICE (log 2): upward is the mirror image,
pre-increment by 32 on push and post-decrement by 32 on pop. -/
inductive StackDir where
  | down
  | up
  deriving DecidableEq, Repr

/-- `PcLow4` (20_memory.md R47, D4): what happens to bits 3:0 of a value loaded into the PC. -/
inductive PcLow4 where
  | forceZero
  | refuse
  deriving DecidableEq, Repr

/-- `ClearOnTake(src)` (60_exceptions.md R112, D6): whether taking the interrupt clears its request. It does not apply to
INT1 and INT2, whose bits follow the pins. -/
structure ClearOnTake where
  nmi : Bool
  hi : Bool
  di : Bool
  wv : Bool
  deriving DecidableEq, Repr

/-- The operations on one value. -/
inductive UnOp where
  | not
  | neg
  /-- How many zeros stand above the highest 1. -/
  | leadingZeros
  deriving DecidableEq, Repr

/-- The operations on two values. A comparison answers 1 or 0; a shift by 32 or more shifts every bit out; the second value
of `zext` and `sext` says how many low bits of the first are kept. -/
inductive BinOp where
  | add
  | sub
  | mul
  /-- The high 32 bits of the unsigned and of the signed product. -/
  | mulHigh
  | mulHighSigned
  /-- Quotient and remainder, unsigned and signed (toward zero), those of Lean's `BitVec` where the divisor is 0. -/
  | div
  | rem
  | divSigned
  | remSigned
  | and
  | or
  | xor
  | shiftLeft
  | shiftRight
  | shiftRightSigned
  | rotateLeft
  | zext
  | sext
  | equal
  | less
  | lessSigned
  deriving DecidableEq, Repr

/-- A value that an instruction given by `ExecOther` computes. -/
inductive Source where
  | const (v : Long)
  /-- A register, by the lowest bit of the file's value (0 for A) and the four lowest bits of the number's. -/
  | reg (file num : Source)
  | status
  /-- The address of the instruction. -/
  | pc
  /-- The opcode word. -/
  | opcode
  /-- The `k`-th extension word, from 0. -/
  | ext (k : Nat)
  | io (r : IoReg)
  /-- A named bit of HSTCTL, 1 or 0. -/
  | hstctlBit (bit : HstctlBit)
  | hstctlOther
  /-- What the instruction keeps in its `k`-th temporary. -/
  | tmp (k : Fin 16)
  | un (o : UnOp) (a : Source)
  | bin (o : BinOp) (a b : Source)
  /-- `a` where `c` is not 0, else `b`. -/
  | ite (c a b : Source)
  /-- The low bits of a value as field 0 and as field 1: as many as FS0 or FS1 says, extended as FE0 or FE1 says (10_state.md
  R14). -/
  | field0 (a : Source)
  | field1 (a : Source)
  deriving DecidableEq, Repr

/-- What an instruction given by `ExecOther` does: single effects in sequence, under a condition and repeated, among them the
two operations the spec makes available to it, `WriteIoReg` and `WriteST` (40_trap_reti.md R84), and the memory primitives of
00_scope.md section 6. The effects from `writeST` on come at the end of the instruction (R84, D21), the others at once. -/
inductive Effect where
  | skip
  | seq (a b : Effect)
  | ite (c : Source) (a b : Effect)
  /-- `a`, as often as `n` says when the repetition begins. -/
  | times (n : Source) (a : Effect)
  | setTmp (k : Fin 16) (v : Source)
  | setReg (file num v : Source)
  /-- `MemRead` of `width` bits, at most 32, into a temporary, with zeros above. -/
  | load (k : Fin 16) (addr width : Source)
  /-- `MemWrite` of the low `width` bits, at most 32. -/
  | store (addr width v : Source)
  | push (v : Source)
  | pop (k : Fin 16)
  | writeST (v : Source)
  | writeIoReg (r : IoReg) (v : Source)
  /-- INTIN is cleared by "both the host and GSP software" (60_exceptions.md R99). That the other writes of INTIN, NMI and NMIM
  store the bit too is a DESIGN CHOICE (log 51). -/
  | writeHstctlBit (bit : HstctlBit) (v : Source)
  | writeHstctlOther (v : Source)
  /-- The window violation's request, "Generated by the TMS34010" itself (R102). -/
  | requestWv
  /-- The refresh rate is "changed by the GSP or host processor" (70_reset_and_hazards.md R150). -/
  | setRefresh (interval : Source)
  deriving DecidableEq, Repr

/-- A meaning that `ExecOther` gives the opcode words `op` with `op &&& mask = pattern`: how many extension words follow, what
the instruction does, and where it jumps, if it does. DESIGN CHOICE (log 45): the form is the model's, the parameter the
spec's (D19). -/
structure OtherMeaning where
  mask : Word
  pattern : Word
  extWords : Nat
  effects : Effect
  target : Option Source
  deriving DecidableEq, Repr

/-- For which of the five named instructions `ExecOther` supplies the meaning that Machine/Traps.lean, Jumps.lean, Divide.lean
and MoveMultiple.lean write down from general knowledge (40_trap_reti.md R76, R80 to R83; 93_implementation_defined.md
G13). -/
structure Supplied where
  rets : Bool
  jruc : Bool
  divs : Bool
  mmtm : Bool
  mmfm : Bool
  deriving DecidableEq, Repr

/-- The parameters of R3. `IoAddr` and `HstctlBit` are not among them: the model reaches the registers by name and the bits
of HSTCTL as named Booleans, as D9 and D10 ask. `IsInterruptible` and `Env` are `isInterruptible` and `State.inputs`. -/
structure Params where
  bitOrder : BitOrder
  stackDir : StackDir
  pcLow4 : PcLow4
  clearOnTake : ClearOnTake
  /-- `IsIllegal` above its lower bound, the nine ranges of 30_encoding.md R61: inclusive ranges of opcodes, which act on
  the reconstructed ranges of R62 (where they say that the reconstruction is validated) and on words of no row. -/
  moreIllegal : List (Word × Word)
  enc : Enc
  /-- `ExecOther` (R3, D19), for opcode words in no row of the table and for those of `RETS`, `JRUC`, `DIVS`, `MMTM` and
  `MMFM`, where such a meaning comes before the one of `supplied`. -/
  execOther : List OtherMeaning
  supplied : Supplied
  deriving DecidableEq, Repr

/-- The defaults of R3. PRESUMED (log 1, 2, 4, 6, 12) and DESIGN CHOICE (log 11, 45), as the spec's decisions. The default of
`ExecOther` is none: no instruction is given a meaning and none of the five named ones is supplied (R3, R76). -/
def Params.standard : Params where
  bitOrder := .lowFirst
  stackDir := .down
  pcLow4 := .forceZero
  clearOnTake := { nmi := true, hi := false, di := false, wv := false }
  moreIllegal := []
  enc := Enc.standard
  execOther := []
  supplied := { rets := false, jruc := false, divs := false, mmtm := false, mmfm := false }

/-- The defaults of R3 with an `ExecOther` that supplies all five named instructions. DESIGN CHOICE (log 50): this is the
argument that `State.reset` takes, so that an instruction which can be executed runs. -/
def Params.supplying : Params :=
  { Params.standard with supplied := { rets := true, jruc := true, divs := true, mmtm := true, mmfm := true } }

/-- Whether the parameter `IsIllegal` holds of an opcode word in no intact range (30_encoding.md R62, D11). -/
def Params.declaredIllegal (p : Params) (op : Word) : Bool :=
  p.moreIllegal.any (fun r => r.1.toNat ≤ op.toNat && op.toNat ≤ r.2.toNat)

/-- A value as memory holds it, bit 0 at its address (R44); the same operation turns it back. -/
def BitOrder.arrange {w : Nat} : BitOrder → BitVec w → BitVec w
  | .lowFirst, v => v
  | .highFirst, v => v.reverse

/-- The stack pointer after `k` pushes of 32 bits (R45), modulo 2^32 (R49, D5). -/
def StackDir.pushed (d : StackDir) (p : Long) (k : Nat) : Long :=
  match d with
  | .down => p - 32#32 * BitVec.ofNat 32 k
  | .up => p + 32#32 * BitVec.ofNat 32 k

/-- The stack pointer after `k` pops of 32 bits (R45). -/
def StackDir.popped (d : StackDir) (p : Long) (k : Nat) : Long :=
  match d with
  | .down => p + 32#32 * BitVec.ofNat 32 k
  | .up => p - 32#32 * BitVec.ofNat 32 k

end Sys2Proof.Machine
end

