-- ==== Sys2Proof/Machine/State.lean ====
section
/-! DEFINITION. The state of the machine (10_state.md; INVENTORY.md lists every field with its rule), the reasons a step
can stop, the interrupts, the environment's moves, and the state after reset. -/

namespace Sys2Proof.Machine

/-- Local memory: (byte number, byte) pairs, where bit `a` of the address space is bit `a % 8` of byte `a / 8`
(20_memory.md R44). Canonical form: `Memory.wf` in Machine/Memory.lean. -/
abbrev Memory := List Host.Cell

/-- Why the machine stops with a fault: never. The chip's one synchronous fault, the illegal opcode, is a trap that is taken
(60_exceptions.md R117, R119); what the spec gives no meaning is a refusal. Safe: there is nothing to raise. -/
inductive Fault where
  deriving DecidableEq, Repr

/-- What the model gives no meaning to. -/
inductive Refusal where
  /-- An arm of `exec` that has no meaning yet. Safe. -/
  | notModelled (mnemonic : String)
  /-- Raised by the fetch: the opcode word is in no row of the table (30_encoding.md R63, D24, U9). Safe. -/
  | noMeaningGiven (op : Word)
  /-- Raised by the six `ILLOP?` rows where the parameter `IsIllegal` does not hold: the range is a reconstruction that has
  not been validated (R62, D11, U8). Safe. -/
  | reconstructedRange
  /-- Raised by the instruction fetch of a running machine: the word at this address was written after the GSP had fetched
  from its cache segment, with no reset between, so the fetch may see the old word or the new one (20_memory.md R55, D25,
  U20). Safe. -/
  | staleFetch (addr : Long)
  /-- Raised by `LoadPC` under the policy `refuse` of `PcLow4`, for a value whose bits 3:0 are not 0 (20_memory.md R47, D4).
  Safe. -/
  | pcNotAtWord (v : Long)
  /-- Raised by the six forms of `PIXBLT` (40_trap_reti.md R77, D19). Safe. -/
  | pixbltNotInSource
  /-- Raised by the two forms of `FILL` (R78, D19). Safe. -/
  | fillNotInSource
  /-- Raised by `LINE` (R79, D19). Safe. -/
  | lineNotInSource
  /-- Raised by `RETI` when the popped ST has PBX = 1: the resumption is not in the source (R74, U13, N9). Safe. -/
  | resumePixelOperation
  /-- Raised by the host's move of writing 1 to HLT while the GSP runs, and by an instruction of `ExecOther` that writes it
  (60_exceptions.md R122, D17, U14). Safe. -/
  | haltWhileRunning
  /-- Raised by the board's move of a RESET pulse under 40 local clock periods (70_reset_and_hazards.md R141, U6). Safe. -/
  | shortResetPulse
  deriving DecidableEq, Repr

/-- The eight interrupts of 60_exceptions.md R90. -/
inductive Interrupt where
  | reset
  | nmi
  | hi
  | di
  | wv
  | int1
  | int2
  | illop
  deriving DecidableEq, Repr

/-- The four run states of the core (60_exceptions.md R122). -/
inductive RunState where
  | resetLow
  | initialising
  | halted
  | running
  deriving DecidableEq, Repr

/-- HSTCTL as the chapter gives it: four named bits without positions, and the rest (10_state.md R21, D10). -/
structure Hstctl where
  nmi : Bool
  nmim : Bool
  intin : Bool
  hlt : Bool
  /-- The twelve bits the chapter does not name; nothing reads them. -/
  other : BitVec 12
  deriving DecidableEq, Repr

/-- The instruction cache as far as the chapter names it (10_state.md R23). PRESUMED (log 33): 23-bit segment addresses and
32 P flags. -/
structure Cache where
  ssa : Vector (BitVec 23) 4
  /-- Most recently used first. -/
  lru : List (Fin 4)
  present : BitVec 32
  deriving DecidableEq, Repr

/-- The values that the end of reset leaves open (R27, R155: "uninitialised", "arbitrary"): the environment supplies them
with its reset move, so a statement about that move holds for all of them. -/
structure PowerOn where
  fileA : Vector Long 15
  fileB : Vector Long 15
  sp : Long
  ssa : Vector (BitVec 23) 4
  mem : Memory
  deriving DecidableEq, Repr

/-- The environment's moves (60_exceptions.md R94, R100, R126; 70_reset_and_hazards.md R155). -/
inductive EnvMove where
  /-- RESET low for at least 40 local clock periods. -/
  | resetAsserted
  /-- RESET low for a shorter time (R141, U6). -/
  | shortResetPulse
  /-- RESET rises with the delayed HCS at this level (R146). -/
  | resetReleased (hcsHigh : Bool) (draw : PowerOn)
  /-- The synchronised level of LINT1 becomes low or high (R94). -/
  | lint1 (low : Bool)
  /-- The synchronised level of LINT2. -/
  | lint2 (low : Bool)
  /-- VCOUNT takes this value (R100, D20). -/
  | vcount (v : Word)
  /-- The start of a horizontal blanking period (R100). -/
  | hblankStart
  /-- The host writes a named bit of HSTCTL (R126 a to d). -/
  | hostHstctl (bit : HstctlBit) (v : Bool)
  /-- The host writes the bits of HSTCTL that the chapter does not name. -/
  | hostHstctlOther (v : BitVec 12)
  /-- The host loads an I/O register (R126 f). -/
  | hostIo (r : IoReg) (v : Word)
  /-- A host-indirect write of 16 bits, at any bit address (R126 e). DESIGN CHOICE (log 46): the spec gives such an access
  neither a width nor an alignment. -/
  | hostWrite (addr : Long) (v : Word)
  /-- A host-indirect read of 16 bits, at any bit address (R126 e, log 46). -/
  | hostRead (addr : Long)
  /-- The host changes the DRAM-refresh rate (R126 g). -/
  | hostRefresh (interval : Nat)
  deriving DecidableEq, Repr

/-- Whose turn comes next: the machine's own, or a move of the environment. -/
inductive Turn where
  | machine
  | env (m : EnvMove)
  deriving DecidableEq, Repr

/-- What happens on the memory bus while the GSP executes: its own memory cycles of up to 16 bits, and what falls before and
between them (20_memory.md R46, R53, D13; 70_reset_and_hazards.md R154, D16). -/
inductive BusEvent where
  /-- The GSP's next memory cycle. -/
  | cycle
  /-- A host-indirect write of 16 bits (log 46). -/
  | hostWrite (addr : Long) (v : Word)
  /-- RESET low, for at least 40 local clock periods. -/
  | resetAsserted
  /-- Own: the mark that RESET has gone low in the work that is going on. -/
  | cut
  deriving DecidableEq, Repr

/-- Everything the spec gives the machine, its parameters, and four fields of the model's own (the last four). -/
@[ext]
structure State where
  pc : Long
  st : Long
  sp : Long
  fileA : Vector Long 15
  fileB : Vector Long 15
  intenb : Word
  /-- The stored bits of INTPEND: all but X1P, X2P and HIP, which are views (R94, R99). -/
  intpendHeld : Word
  hstctl : Hstctl
  dpyint : Word
  vcount : Word
  otherIo : Vector Word 22
  lint1Low : Bool
  lint2Low : Bool
  cache : Cache
  run : RunState
  /-- Local clock cycles between DRAM-refresh cycles (R27, R150). -/
  refreshInterval : Nat
  mem : Memory
  /-- The byte ranges [lo, hi) whose contents survive a reset (20_memory.md R50). -/
  nonvolatile : List (Nat × Nat)
  /-- The parameters of 00_scope.md R3; no step changes them. -/
  params : Params
  /-- Own: the cache segments an instruction was fetched from since the last reset (R55, D25). -/
  fetchedSegs : List Nat
  /-- Own: the words written after such a fetch (R55, D25). -/
  stale : List Nat
  /-- Own: the order of the turns to come (log 19); when it is empty every turn is the machine's. -/
  inputs : List Turn
  /-- Own: the host accesses and the reset that fall inside the GSP's memory accesses to come (log 13, 16); where the list
  ends, nothing falls between the cycles. -/
  bus : List BusEvent
  deriving DecidableEq, Repr

/-- The machine at the end of reset in self-bootstrap mode, before the eight RAS-only cycles (70_reset_and_hazards.md R147,
R155; 10_state.md R27). DESIGN CHOICE (log 15, 26, 36): the registers and the memory that reset leaves open hold 0. DESIGN CHOICE
(log 50): the parameters are R3's defaults but for `ExecOther`, which supplies the five named instructions;
`State.resetUnder` takes any others. -/
def State.reset : State where
  pc := 0
  st := 0x00000010#32
  sp := 0
  fileA := Vector.replicate 15 0
  fileB := Vector.replicate 15 0
  intenb := 0
  intpendHeld := 0
  hstctl := { nmi := false, nmim := false, intin := false, hlt := false, other := 0 }
  dpyint := 0
  vcount := 0
  otherIo := Vector.replicate 22 0
  lint1Low := false
  lint2Low := false
  cache := { ssa := Vector.replicate 4 0, lru := [0, 1, 2, 3], present := 0 }
  run := .initialising
  refreshInterval := 32
  mem := []
  nonvolatile := []
  params := Params.supplying
  fetchedSegs := []
  stale := []
  inputs := []
  bus := []

/-- The machine at the end of reset with the parameters as its argument (00_scope.md R3); under `Params.standard` every one of
them has R3's default. -/
def State.resetUnder (p : Params) : State := { State.reset with params := p }

end Sys2Proof.Machine
end

