-- ==== Sys2Proof/Machine/Flags.lean ====
section
/-! DEFINITION. The fields of ST (10_state.md R11 to R15). No instruction of the table has a flag computation that the spec
states; ST is written whole by entry (60_exceptions.md R108) and by RETI (40_trap_reti.md R74). -/

namespace Sys2Proof.Machine

/-- The value of ST after an entry (60_exceptions.md R108) and after reset (R27). -/
def stEntry : Long := 0x00000010#32

/-- Bits 31:28, by general knowledge N, C, Z, V (R11, G2). -/
def stCond (st : Long) : BitVec 4 := st.extractLsb' 28 4
def stN (st : Long) : Bool := st.getLsbD 31
def stC (st : Long) : Bool := st.getLsbD 30
def stZ (st : Long) : Bool := st.getLsbD 29
def stV (st : Long) : Bool := st.getLsbD 28
/-- Bit 25: a PIXBLT or FILL was interrupted part-way (R13). -/
def stPBX (st : Long) : Bool := st.getLsbD 25
/-- Bit 21: the global interrupt enable (R12). -/
def stIE (st : Long) : Bool := st.getLsbD 21
def stFE1 (st : Long) : Bool := st.getLsbD 11
def stFS1 (st : Long) : BitVec 5 := st.extractLsb' 6 5
def stFE0 (st : Long) : Bool := st.getLsbD 5
def stFS0 (st : Long) : BitVec 5 := st.extractLsb' 0 5

/-- How many bits a field-size code means (R14): 0 means 32 and 16 means 16, from the source; every other code is
its own number, PRESUMED (log 32, G2). -/
def fieldSize (code : BitVec 5) : Nat := if code = 0 then 32 else code.toNat

/-- The low `n` bits of a value with copies of the highest of them above. -/
def sextLow (a : Long) (n : Nat) : Long := (a <<< (32 - n)).sshiftRight (32 - n)

/-- The low `n` bits of a value under an extension bit (R14): 0 is zero extension, from the source; 1 is sign extension,
PRESUMED (log 32, G2). -/
def extendField (ext : Bool) (n : Nat) (v : Long) : Long :=
  if ext then sextLow v n else (v.setWidth n).setWidth 32

/-- A value as field 0 and as field 1 under ST: of the size of FS0 or FS1, extended as FE0 or FE1 says (R14). -/
def asField0 (st v : Long) : Long := extendField (stFE0 st) (fieldSize (stFS0 st)) v
def asField1 (st v : Long) : Long := extendField (stFE1 st) (fieldSize (stFS1 st)) v

/-- ST with other condition bits and every other bit kept (D22). -/
def withCond (cond : BitVec 4) (st : Long) : Long := cond ++ st.extractLsb' 0 28

/-- ST with PBX set (R13). -/
def withPBX (st : Long) : Long := st ||| 0x02000000#32

end Sys2Proof.Machine
end

