-- ==== Sys2Proof/Machine/Memory.lean ====
section
/-! DEFINITION. Memory: bytes at byte numbers, bits at bit addresses, and the n-bit reads and writes of 20_memory.md R44. -/

namespace Sys2Proof.Machine

/-- What an unlisted byte reads as. DESIGN CHOICE (log 26): the spec gives RAM after reset no value. -/
def unlistedByte : Byte := 0

/-- The byte with number `k`. -/
def Memory.byte : Memory → Nat → Byte
  | [], _ => unlistedByte
  | c :: m, k => if c.1 = k then c.2 else Memory.byte m k

/-- Put a cell before the first cell of a higher number. -/
def Memory.insertCell (k : Nat) (b : Byte) : Memory → Memory
  | [] => [(k, b)]
  | c :: m => if k < c.1 then (k, b) :: c :: m else c :: Memory.insertCell k b m

/-- Write a byte: drop what is listed for `k`, and list the new byte unless an unlisted byte reads so. -/
def Memory.setByte (m : Memory) (k : Nat) (b : Byte) : Memory :=
  let rest := m.filter (fun c => c.1 ≠ k)
  if b = unlistedByte then rest else Memory.insertCell k b rest

/-- How many bytes the address space has: 2^32 bits (R40). -/
def byteCount : Nat := 2 ^ 29

/-- Cells strictly rising in number, each above `lo` where one is given. -/
def Memory.rising : Option Nat → Memory → Bool
  | _, [] => true
  | lo, c :: m => lo.all (· < c.1) && Memory.rising (some c.1) m

/-- The canonical form: rising, no cell equal to what an unlisted byte reads as, every cell inside the address space. -/
def Memory.wf (m : Memory) : Bool :=
  Memory.rising none m && m.all (fun c => c.2 ≠ unlistedByte && c.1 < byteCount)

/-- The memory bit at a bit address (R40, R44). -/
def Memory.bit (m : Memory) (a : Long) : Bool := (m.byte (a.toNat / 8)).getLsbD (a.toNat % 8)

/-- A byte with bit `i` made `v`. -/
def withBit (b : Byte) (i : Nat) (v : Bool) : Byte :=
  if v then b ||| (1#8 <<< i) else b &&& ~~~(1#8 <<< i)

/-- Write one memory bit. -/
def Memory.setBit (m : Memory) (a : Long) (v : Bool) : Memory :=
  m.setByte (a.toNat / 8) (withBit (m.byte (a.toNat / 8)) (a.toNat % 8) v)

/-- `MemRead(addr, n)` (R44): bit `i` of the value is the memory bit at `addr + i` modulo 2^32. PRESUMED bit order
(log 1, D1). -/
def Memory.read (m : Memory) (a : Long) : (n : Nat) → BitVec n
  | 0 => 0#0
  | n + 1 => BitVec.cons (m.bit (a + BitVec.ofNat 32 n)) (Memory.read m a n)

/-- The lowest `n` bits of `v` stored from `a` upward, modulo 2^32. -/
def Memory.writeLow (m : Memory) (a : Long) {w : Nat} (v : BitVec w) : Nat → Memory
  | 0 => m
  | n + 1 => (Memory.writeLow m a v n).setBit (a + BitVec.ofNat 32 n) (v.getLsbD n)

/-- `MemWrite(addr, n, v)` (R44): bit `i` of `v` goes to `addr + i` modulo 2^32, and no other bit changes. -/
def Memory.write (m : Memory) (a : Long) {w : Nat} (v : BitVec w) : Memory := m.writeLow a v w

/-- The `len` bits of `v` from bit `lo` upward stored where they belong in a field that starts at `a`: the part of a write
that one memory cycle makes. -/
def Memory.writeSpan (m : Memory) (a : Long) {w : Nat} (v : BitVec w) (lo : Nat) : Nat → Memory
  | 0 => m
  | len + 1 => (m.writeSpan a v lo len).setBit (a + BitVec.ofNat 32 (lo + len)) (v.getLsbD (lo + len))

/-- The memory cycle, counted from 0, that reaches bit `i` of a field at `a`: one cycle for each word (20_memory.md R46). -/
def cycleOf (a : Long) (i : Nat) : Nat := (a.toNat % 16 + i) / 16

/-- How many memory cycles an access of `n` bits at `a` takes: the words it touches. -/
def cycleCount (a : Long) (n : Nat) : Nat := (a.toNat % 16 + n + 15) / 16

/-- How many bits of a field of `w` bits at `a` the first `k` cycles reach. -/
def bitsReached (a : Long) (w k : Nat) : Nat := min w (16 * k - a.toNat % 16)

/-- The `n` bits from `a` upward, each from the memory that its cycle sees: `during k` for cycle `k`. -/
def readAcross (during : Nat → Memory) (a : Long) : (n : Nat) → BitVec n
  | 0 => 0#0
  | n + 1 => BitVec.cons ((during (cycleOf a n)).bit (a + BitVec.ofNat 32 n)) (readAcross during a n)

/-- Whether byte `k` lies in one of the ranges [lo, hi). -/
def inRanges (ranges : List (Nat × Nat)) (k : Nat) : Bool := ranges.any (fun r => r.1 ≤ k && k < r.2)

/-- Memory after a reset (20_memory.md R50): what is non-volatile keeps its contents, every other byte is as `draw` has it. -/
def Memory.afterReset (ranges : List (Nat × Nat)) (old draw : Memory) : Memory :=
  draw.reverse.foldl (fun m c => if inRanges ranges c.1 || byteCount ≤ c.1 then m else m.setByte c.1 c.2)
    (old.filter (fun c => inRanges ranges c.1))

end Sys2Proof.Machine
end

