-- ==== Sys2Proof/Machine/Operands.lean ====
section
/-! DEFINITION. The operand forms: a register of a file, a register list, a jump displacement, a trap number
(30_encoding.md R64, R65; 93_implementation_defined.md G3, G6, G13). -/

namespace Sys2Proof.Machine

/-- Register `n` of a file; 15 is SP in both (10_state.md R16, G3). PRESUMED (log 32). -/
def State.getReg (s : State) (f : RegFile) (n : RegNum) : Long :=
  if h : n.toNat < 15 then
    match f with
    | .a => s.fileA[n.toNat]
    | .b => s.fileB[n.toNat]
  else s.sp

/-- Write register `n` of a file; 15 is SP in both. -/
def State.setReg (s : State) (f : RegFile) (n : RegNum) (v : Long) : State :=
  if h : n.toNat < 15 then
    match f with
    | .a => { s with fileA := s.fileA.set n.toNat v }
    | .b => { s with fileB := s.fileB.set n.toNat v }
  else { s with sp := v }

/-- The sixteen register numbers, lowest first. -/
def regNums : List RegNum := [0, 1, 2, 3, 4, 5, 6, 7, 8, 9, 10, 11, 12, 13, 14, 15]

/-- The registers `MMTM` pushes, in the order it pushes them: register 0 first, bit 15 of the mask naming register 0 and
bit 0 register 15. PRESUMED (log 30): the spec says only "one bit per register". -/
def mmtmList (list : Word) : List RegNum := regNums.filter (fun n => list.getLsbD (15 - n.toNat))

/-- The registers `MMFM` pops, in the order it pops them: register 15 first, bit `n` of the mask naming register `n`.
PRESUMED (log 30). -/
def mmfmList (list : Word) : List RegNum := regNums.reverse.filter (fun n => list.getLsbD n.toNat)

/-- A displacement of `d` words in address units, sign-extended (40_trap_reti.md R83). -/
def jumpOffset (d : BitVec 8) : Long := 16#32 * d.signExtend 32

end Sys2Proof.Machine
end

