-- ==== Sys2Proof/Machine/Bus.lean ====
section
/-! DEFINITION. Memory as the agents on the bus use it: what the instruction cache may hold, the host's writes, and the GSP's
accesses, cycle by cycle, with the host accesses and the reset that fall between the cycles (20_memory.md R46, R52 to R55;
60_exceptions.md R106, R115; 70_reset_and_hazards.md R154). -/

namespace Sys2Proof.Machine

/-! ### Single fields -/

def State.setPC (s : State) (v : Long) : State := { s with pc := v }
def State.setSP (s : State) (v : Long) : State := { s with sp := v }
def State.setRun (s : State) (r : RunState) : State := { s with run := r }
def State.setMem (s : State) (m : Memory) : State := { s with mem := m }
def State.setInputs (s : State) (ts : List Turn) : State := { s with inputs := ts }
def State.setBus (s : State) (es : List BusEvent) : State := { s with bus := es }

/-- `WriteST(v32)` (40_trap_reti.md R84): all 32 bits are kept as written (D22). -/
def State.writeST (s : State) (v : Long) : State := { s with st := v }

/-! ### What the instruction cache may hold (20_memory.md R55, D25) -/

/-- The words, numbered from 0, that `n` bits at `a` touch. -/
def wordsTouched (a : Long) (n : Nat) : List Nat :=
  (List.range (cycleCount a n)).map (fun i => (a.toNat / 16 + i) % 2 ^ 28)

/-- The cache segment a word lies in. PRESUMED (log 24): a segment is 32 words. -/
def segmentOf (word : Nat) : Nat := word / 32

/-- Put a number into a rising list without repeats. -/
def insertNat (k : Nat) : List Nat → List Nat
  | [] => [k]
  | x :: xs => if k < x then k :: x :: xs else if k = x then x :: xs else x :: insertNat k xs

/-- The words of `ws` whose cache segment the GSP has fetched from become stale (D25). -/
def State.markStale (s : State) (ws : List Nat) : State :=
  { s with stale := (ws.filter (fun w => s.fetchedSegs.contains (segmentOf w))).foldr insertNat s.stale }

/-- The note that the GSP fetches the word at `a`. -/
def State.noteFetch (s : State) (a : Long) : State :=
  { s with fetchedSegs := ((wordsTouched a 16).map segmentOf).foldr insertNat s.fetchedSegs }

/-- Whether the word at `a` was written after its segment was fetched. -/
def State.fetchIsStale (s : State) (a : Long) : Bool := (wordsTouched a 16).any (fun w => s.stale.contains w)

/-! ### Memory as it stands -/

/-- `MemRead(addr, n)` (R44) of memory as it stands, in the machine's bit order (D1). -/
def State.peek (s : State) (a : Long) (n : Nat) : BitVec n := s.params.bitOrder.arrange (s.mem.read a n)

/-- `MemWrite` (R44) in one piece, and the note that these words changed: a host-indirect write (R126 e). -/
def State.store (s : State) (a : Long) {w : Nat} (v : BitVec w) : State :=
  (s.setMem (s.mem.write a (s.params.bitOrder.arrange v))).markStale (wordsTouched a w)

/-! ### The GSP's memory cycles -/

/-- What falls on the bus up to the GSP's next cycle, and that cycle taken off the list: host writes are made; where RESET
goes low first, the cycle is not made, nor any later one of this work. -/
def State.runBus : List BusEvent → State → State
  | [], s => s.setBus []
  | .cycle :: es, s => s.setBus es
  | .hostWrite a v :: es, s => State.runBus es (s.store a v)
  | .resetAsserted :: es, s => s.setBus (.cut :: es)
  | .cut :: es, s => s.setBus (.cut :: es)

/-- The state in which the GSP's next memory cycle is made. -/
def State.beginCycle (s : State) : State := s.runBus s.bus

/-- RESET has gone low inside the GSP's work: it makes no further cycle. -/
def State.isCut (s : State) : Bool := s.bus.head? = some .cut

/-- The state after the GSP's next `k` cycles, if they are reads. -/
def State.afterCycles (s : State) : Nat → State
  | 0 => s
  | k + 1 => (s.afterCycles k).beginCycle

/-- `MemRead(addr, n)` as the GSP makes it (R46, R53): each word as it is when its cycle comes, the lowest first. DESIGN
CHOICE (log 13): the order of the cycles. -/
def State.fetched (s : State) (a : Long) (n : Nat) : BitVec n :=
  s.params.bitOrder.arrange (readAcross (fun k => (s.afterCycles (k + 1)).mem) a n)

/-- The state after that read. -/
def State.afterRead (s : State) (a : Long) (n : Nat) : State := s.afterCycles (cycleCount a n)

/-- The first `k` cycles of a write of `v` at `a`. -/
def State.writeCycles (s : State) (a : Long) {w : Nat} (v : BitVec w) : Nat → State
  | 0 => s
  | k + 1 =>
    let t := (s.writeCycles a v k).beginCycle
    if t.isCut then t
    else t.setMem (t.mem.writeSpan a v (bitsReached a w k) (bitsReached a w (k + 1) - bitsReached a w k))

/-- `MemWrite(addr, n, v)` as the GSP makes it (R46, R53), and the note that these words changed. -/
def State.write (s : State) (a : Long) {w : Nat} (v : BitVec w) : State :=
  (s.writeCycles a (s.params.bitOrder.arrange v) (cycleCount a w)).markStale (wordsTouched a w)

/-- What is left of the GSP's work when RESET cut it short: `before`, with memory as far as the work had got (D16). -/
def State.cutShort (before after : State) : State :=
  { before with run := .resetLow, mem := after.mem, stale := after.stale, bus := after.bus.tail }

/-- Go on as `go` says, unless RESET cut short the work that led from `before` to `after`. -/
def State.unlessCut (before after : State) (go : Host.Outcome State Fault Refusal) : Host.Outcome State Fault Refusal :=
  if after.isCut then .next (before.cutShort after) else go

end Sys2Proof.Machine
end

