-- ==== Sys2Proof/Machine/Ops.lean ====
section
/-! DEFINITION. The named operations of the spec: the stack, loading the PC, the vector table, taking a trap or an interrupt
and returning from one, selection among the interrupts, the I/O registers. -/

namespace Sys2Proof.Machine

/-! ### The stack and the PC -/

/-- `Push32` (20_memory.md R45): SP moves on by 32 bits, then the value is written there. -/
def State.push32 (s : State) (v : Long) : State :=
  (s.setSP (s.params.stackDir.pushed s.sp 1)).write (s.params.stackDir.pushed s.sp 1) v

/-- The value `Pop32` returns (R45). -/
def State.top32 (s : State) : Long := s.fetched s.sp 32

/-- What `Pop32` does to the state (R45). -/
def State.drop32 (s : State) : State := (s.afterRead s.sp 32).setSP (s.params.stackDir.popped s.sp 1)

/-- A PC value with its four least significant bits forced to 0. -/
def pcAligned (v : Long) : Long := v &&& 0xFFFFFFF0#32

/-- `LoadPC` (R47) under the policy `PcLow4` (D4). PRESUMED (log 4): the default policy. -/
def State.loadPC (s : State) (v : Long) : Host.Outcome State Fault Refusal :=
  match s.params.pcLow4 with
  | .forceZero => .next (s.setPC (pcAligned v))
  | .refuse => if v &&& 0xF#32 = 0#32 then .next (s.setPC v) else .refused (.pcNotAtWord v)

/-- The address of the word after an instruction of `k` words (10_state.md R10, D3, D5). -/
def State.pcNext (s : State) (k : Nat) : Long := s.pc + BitVec.ofNat 32 (16 * k)

/-- Go on after an instruction of `k` words that does not branch (R10). -/
def State.advance (s : State) (k : Nat) : State := s.setPC (s.pcNext k)

/-! ### The eight interrupts (60_exceptions.md R90 to R93) -/

/-- `VectorAddr(N)` (20_memory.md R42). -/
def vectorAddr (n : BitVec 5) : Long := 0xFFFFFFE0#32 - 32#32 * n.setWidth 32

/-- The priority of Table 8-1, 1 the highest (R90). -/
def Interrupt.priority : Interrupt → Nat
  | .reset => 1
  | .nmi => 2
  | .hi => 3
  | .di => 4
  | .wv => 5
  | .int1 => 6
  | .int2 => 7
  | .illop => 8

/-- The vector number (R90). -/
def Interrupt.vector : Interrupt → BitVec 5
  | .reset => 0
  | .nmi => 8
  | .hi => 9
  | .di => 10
  | .wv => 11
  | .int1 => 1
  | .int2 => 2
  | .illop => 30

/-- The bit of INTENB and INTPEND that belongs to a maskable interrupt (10_state.md R19, R20; R91). -/
def Interrupt.maskBit : Interrupt → Option Nat
  | .reset => none
  | .nmi => none
  | .hi => some 9
  | .di => some 10
  | .wv => some 11
  | .int1 => some 1
  | .int2 => some 2
  | .illop => none

/-- INTPEND as it reads (R20): X1P and X2P follow the pins (R94), HIP is INTIN (R99), the rest is stored. PRESUMED
(log 6, D6). -/
def State.intpend (s : State) : Word :=
  (s.intpendHeld &&& 0xFDF9#16) ||| (if s.lint1Low then 0x0002#16 else 0) ||| (if s.lint2Low then 0x0004#16 else 0)
    ||| (if s.hstctl.intin then 0x0200#16 else 0)

/-- Requested and not yet processed (R93). Nothing records a request for reset or ILLOP (R90). -/
def Interrupt.pending (s : State) (i : Interrupt) : Bool :=
  match i with
  | .nmi => s.hstctl.nmi
  | .reset => false
  | .illop => false
  | .hi => s.intpend.getLsbD 9
  | .di => s.intpend.getLsbD 10
  | .wv => s.intpend.getLsbD 11
  | .int1 => s.intpend.getLsbD 1
  | .int2 => s.intpend.getLsbD 2

/-- Enabled (R91), always so for reset, NMI and ILLOP (R92). -/
def Interrupt.enabled (s : State) (i : Interrupt) : Bool :=
  match i.maskBit with
  | some b => stIE s.st && s.intenb.getLsbD b
  | none => true

/-- `Select()` (R104): the interrupt of highest priority among those pending and enabled. A disabled one does not hold
back a lower one: DESIGN CHOICE (log 7, D7, C4). -/
def State.select (s : State) : Option Interrupt :=
  [Interrupt.nmi, .hi, .di, .wv, .int1, .int2].find? (fun i => i.pending s && i.enabled s)

/-! ### Entry and return (60_exceptions.md R106; 40_trap_reti.md R74) -/

/-- Steps 1 and 2 of an entry (R106): push PC, push ST, or nothing where the entry saves nothing. -/
def State.saveContext (s : State) (save : Bool) (retPC stSaved : Long) : State :=
  if save then (s.push32 retPC).push32 stSaved else s

/-- Steps 3, 4 and 5 of an entry (R106, R108, R110): ST <- `>00000010`, fetch the vector, load the PC. -/
def State.enterVector (s : State) (n : BitVec 5) : Host.Outcome State Fault Refusal :=
  ((s.writeST stEntry).afterRead (vectorAddr n) 32).loadPC ((s.writeST stEntry).fetched (vectorAddr n) 32)

/-- `TakeTrap(N, save, retPC, stSaved)` (R106). Host accesses may fall inside it (20_memory.md R53), and RESET may cut it short
(R115; 70_reset_and_hazards.md R154). -/
def State.takeTrap (s : State) (n : BitVec 5) (save : Bool) (retPC stSaved : Long) : Host.Outcome State Fault Refusal :=
  let saved := s.saveContext save retPC stSaved
  s.unlessCut ((saved.writeST stEntry).afterRead (vectorAddr n) 32) (saved.enterVector n)

/-- Clear the request of an interrupt that is taken, where the parameter `ClearOnTake` says so (R112, D6). -/
def State.clearOnTake (s : State) (i : Interrupt) : State :=
  match i with
  | .nmi => if s.params.clearOnTake.nmi then { s with hstctl := { s.hstctl with nmi := false } } else s
  | .hi => if s.params.clearOnTake.hi then { s with hstctl := { s.hstctl with intin := false } } else s
  | .di => if s.params.clearOnTake.di then { s with intpendHeld := s.intpendHeld &&& 0xFBFF#16 } else s
  | .wv => if s.params.clearOnTake.wv then { s with intpendHeld := s.intpendHeld &&& 0xF7FF#16 } else s
  | .reset | .int1 | .int2 | .illop => s

/-- Whether taking an interrupt saves PC and ST (R98, R106): reset never does, NMI only with NMIM = 0. -/
def Interrupt.saves (s : State) (i : Interrupt) : Bool :=
  match i with
  | .nmi => !s.hstctl.nmim
  | .reset => false
  | .hi | .di | .wv | .int1 | .int2 | .illop => true

/-- `TakeInterrupt(i)` at an instruction boundary (R106, R111). -/
def State.takeInterrupt (s : State) (i : Interrupt) : Host.Outcome State Fault Refusal :=
  (s.clearOnTake i).takeTrap i.vector (i.saves s) s.pc s.st

/-- The illegal-opcode interrupt (R117): as `TRAP 30`, saving the address of the next word. DESIGN CHOICE (log 3, D18). -/
def State.takeIllop (s : State) : Host.Outcome State Fault Refusal := s.takeTrap 30 true (s.pcNext 1) s.st

/-- The return from interrupt (R74): pop ST, pop PC; refused when the popped ST has PBX = 1 (U13). -/
def State.returnFromInterrupt (s : State) : Host.Outcome State Fault Refusal :=
  s.unlessCut s.drop32.drop32
    (if stPBX s.top32 then .refused .resumePixelOperation
    else (s.drop32.drop32.writeST s.top32).loadPC s.drop32.top32)

/-- The ST that an interrupt taken at an interior point of PIXBLT or FILL saves (R107): with PBX set for INT1, INT2, HI and
NMI with NMIM = 0; `none` where nothing is saved or where the source does not say. No step of this model reaches an
interior point, since those instructions are refused (D19). -/
def interiorSavedST (i : Interrupt) (nmim : Bool) (st : Long) : Option Long :=
  match i with
  | .int1 | .int2 | .hi => some (withPBX st)
  | .nmi => if nmim then none else some (withPBX st)
  | .reset | .di | .wv | .illop => none

/-- The start of the GSP after reset (70_reset_and_hazards.md R155): it runs, by `TakeTrap(0, save = false)`. -/
def State.start (s : State) : Host.Outcome State Fault Refusal := (s.setRun .running).takeTrap 0 false s.pc s.st

/-! ### I/O registers, by name (10_state.md R18 to R22; 40_trap_reti.md R84; D9, D10, D21) -/

def OtherIo.index : OtherIo → Fin 22
  | .hesync => 0
  | .heblnk => 1
  | .hsblnk => 2
  | .htotal => 3
  | .vesync => 4
  | .veblnk => 5
  | .vsblnk => 6
  | .vtotal => 7
  | .dpyctl => 8
  | .dpystrt => 9
  | .control => 10
  | .hstdata => 11
  | .hstadrl => 12
  | .hstadrh => 13
  | .convsp => 14
  | .convdp => 15
  | .psize => 16
  | .pmask => 17
  | .hcount => 18
  | .dpyadr => 19
  | .refcnt => 20
  | .dpytap => 21

/-- What a register reads as. -/
def State.readIoReg (s : State) : IoReg → Word
  | .intenb => s.intenb
  | .intpend => s.intpend
  | .dpyint => s.dpyint
  | .vcount => s.vcount
  | .other r => s.otherIo[r.index]

/-- `WriteIoReg(reg, v16)` (R84). A write to INTPEND keeps the unnamed bits, can clear DIP and WVP and set neither, and
does not touch X1P, X2P or HIP (D21, G10). PRESUMED (log 20). DESIGN CHOICE (log 49): DPYINT, VCOUNT and
the registers the chapter does not name keep all 16 bits as written, by the GSP or the host, since the spec gives neither
their write rules nor their read-only bits (10_state.md R18). -/
def State.writeIoReg (s : State) (r : IoReg) (v : Word) : State :=
  match r with
  | .intenb => { s with intenb := v }
  | .intpend => { s with intpendHeld := (v &&& 0xF1F9#16) ||| (s.intpendHeld &&& v &&& 0x0C00#16) }
  | .dpyint => { s with dpyint := v }
  | .vcount => { s with vcount := v }
  | .other r => { s with otherIo := s.otherIo.set r.index v }

/-- Write a named bit of HSTCTL (R21, D10): it is stored as written. DESIGN CHOICE: so is the host's 0 to NMI (log 42), and an
instruction's 1 to INTIN and its every write of NMI and NMIM (log 51), where the spec has the host request HI and NMI and lets
GSP software clear INTIN (60_exceptions.md R97, R99). -/
def State.writeHstctlBit (s : State) (bit : HstctlBit) (v : Bool) : State :=
  match bit with
  | .nmi => { s with hstctl := { s.hstctl with nmi := v } }
  | .nmim => { s with hstctl := { s.hstctl with nmim := v } }
  | .intin => { s with hstctl := { s.hstctl with intin := v } }
  | .hlt => { s with hstctl := { s.hstctl with hlt := v } }

end Sys2Proof.Machine
end

