-- ==== Sys2Proof/Machine/Divide.lean ====
section
/-! DEFINITION. `DIVS` (40_trap_reti.md R80: "signed divide"; 93_implementation_defined.md G13: an even-numbered destination
divides a 64-bit dividend). PRESUMED (log 31): which half is where, the remainder's place, rounding toward zero. What the
spec states no value for is a free value. -/

namespace Sys2Proof.Machine

/-- Whether the destination names a register pair: an even number (G13). -/
def divsPair (rd : RegNum) : Bool := !rd.getLsbD 0

/-- The dividend: `Rd` and the next register, `Rd` the high half, for a pair; otherwise `Rd` sign-extended. -/
def divsDividend (s : State) (f : RegFile) (rd : RegNum) : BitVec 64 :=
  if divsPair rd then s.getReg f rd ++ s.getReg f (rd + 1) else (s.getReg f rd).signExtend 64

/-- Whether "signed divide" gives the operands a 32-bit quotient: the divisor is not 0 and the quotient fits. -/
def divsFits (dividend : BitVec 64) (divisor : Long) : Bool :=
  divisor ≠ 0 && -(2 ^ 31) ≤ dividend.toInt.tdiv divisor.toInt && dividend.toInt.tdiv divisor.toInt < 2 ^ 31

def divsQuotient (pair : Bool) (dividend : BitVec 64) (divisor : Long) : Long :=
  if divsFits dividend divisor then BitVec.ofInt 32 (dividend.toInt.tdiv divisor.toInt)
  else Config.divsOpenQuotient pair dividend divisor

def divsRemainder (dividend : BitVec 64) (divisor : Long) : Long :=
  if divsFits dividend divisor then BitVec.ofInt 32 (dividend.toInt.tmod divisor.toInt)
  else Config.divsOpenRemainder dividend divisor

/-- The state with the results of a division written: the quotient in `Rd`, the remainder in the next register of a pair. -/
def State.writeDivision (s : State) (f : RegFile) (rd : RegNum) (quotient remainder : Long) : State :=
  if divsPair rd then (s.setReg f rd quotient).setReg f (rd + 1) remainder else s.setReg f rd quotient

/-- ST after `DIVS`: bits 31:28 are free, the rest is kept. -/
def divsST (s : State) (f : RegFile) (rd : RegNum) (divisor : Long) : Long :=
  withCond (Config.divsFlags (divsPair rd) (divsDividend s f rd) divisor (stCond s.st)) s.st

/-- `DIVS Rs,Rd` (R80): both operands are read before a result is written. -/
def execDivs (rs : RegNum) (f : RegFile) (rd : RegNum) (s : State) : Host.Outcome State Fault Refusal :=
  let dividend := divsDividend s f rd
  let divisor := s.getReg f rs
  let divided := s.writeDivision f rd (divsQuotient (divsPair rd) dividend divisor) (divsRemainder dividend divisor)
  .next ((divided.writeST (divsST s f rd divisor)).advance 1)

end Sys2Proof.Machine
end

