-- ==== Sys2Proof/Machine/Illegal.lean ====
section
/-! DEFINITION. The illegal opcodes (60_exceptions.md R117; 30_encoding.md R61) and the reconstructed ranges (R62). -/

namespace Sys2Proof.Machine

/-- Illegal opcodes from `>0000` (R61, R117). -/
def execIllop0000 (_ : BitVec 8) (s : State) : Host.Outcome State Fault Refusal := s.takeIllop

/-- Illegal opcodes from `>0200` (R61, R117). -/
def execIllop0200 (_ : BitVec 8) (s : State) : Host.Outcome State Fault Refusal := s.takeIllop

/-- Illegal opcodes from `>0400` (R61, R117). -/
def execIllop0400 (_ : BitVec 8) (s : State) : Host.Outcome State Fault Refusal := s.takeIllop

/-- Illegal opcodes from `>0800` (R61, R117). -/
def execIllop0800 (_ : BitVec 8) (s : State) : Host.Outcome State Fault Refusal := s.takeIllop

/-- Illegal opcodes from `>0A00` (R61, R117). -/
def execIllop0A00 (_ : BitVec 8) (s : State) : Host.Outcome State Fault Refusal := s.takeIllop

/-- Illegal opcodes from `>0C00` (R61, R117). -/
def execIllop0C00 (_ : BitVec 8) (s : State) : Host.Outcome State Fault Refusal := s.takeIllop

/-- Illegal opcodes from `>0E00` (R61, R117). -/
def execIllop0E00 (_ : BitVec 8) (s : State) : Host.Outcome State Fault Refusal := s.takeIllop

/-- Illegal opcodes from `>3400` (R61, R117). -/
def execIllop3400 (_ : BitVec 10) (s : State) : Host.Outcome State Fault Refusal := s.takeIllop

/-- Illegal opcodes from `>BE00` (R61, R117). -/
def execIllopBE00 (_ : BitVec 9) (s : State) : Host.Outcome State Fault Refusal := s.takeIllop

/-- An opcode of a reconstructed range (R62, R66): "refused by the model unless the reconstruction has been validated"; where
the parameter `IsIllegal` holds of it, it is illegal (D11, C5). -/
def State.reconstructedOpcode (s : State) (op : Word) : Host.Outcome State Fault Refusal :=
  if s.params.declaredIllegal op then s.takeIllop else .refused .reconstructedRange

/-- Opcodes from `>7E00` (R62, D11). -/
def execMaybe7E00 (low : BitVec 9) (s : State) : Host.Outcome State Fault Refusal :=
  s.reconstructedOpcode (Instr.maybe7E00 low).opcode

/-- Opcodes from `>9E00` (R62, D11). -/
def execMaybe9E00 (low : BitVec 9) (s : State) : Host.Outcome State Fault Refusal :=
  s.reconstructedOpcode (Instr.maybe9E00 low).opcode

/-- Opcodes from `>D800` (R62, D11). -/
def execMaybeD800 (low : BitVec 10) (s : State) : Host.Outcome State Fault Refusal :=
  s.reconstructedOpcode (Instr.maybeD800 low).opcode

/-- Opcodes from `>DC00` (R62, D11). -/
def execMaybeDC00 (low : BitVec 9) (s : State) : Host.Outcome State Fault Refusal :=
  s.reconstructedOpcode (Instr.maybeDC00 low).opcode

/-- Opcodes from `>DE00` (R62, D11). -/
def execMaybeDE00 (low : BitVec 8) (s : State) : Host.Outcome State Fault Refusal :=
  s.reconstructedOpcode (Instr.maybeDE00 low).opcode

/-- Opcodes from `>FE00` (R62, D11). -/
def execMaybeFE00 (low : BitVec 9) (s : State) : Host.Outcome State Fault Refusal :=
  s.reconstructedOpcode (Instr.maybeFE00 low).opcode

end Sys2Proof.Machine
end

