-- ==== Sys2Proof/Machine/Jumps.lean ====
section
/-! DEFINITION. `JRUC`, short form (40_trap_reti.md R83). -/

namespace Sys2Proof.Machine

/-- `JRUC` (R83): `PC <- pcNext + 16 * sext(d)`, ST unchanged. PRESUMED (log 29, G13). -/
def execJruc (d : BitVec 8) (s : State) : Host.Outcome State Fault Refusal :=
  .next (s.setPC (s.pcNext 1 + jumpOffset d))

end Sys2Proof.Machine
end

