-- ==== Sys2Proof/Machine/MoveMultiple.lean ====
section
/-! DEFINITION. `MMTM` and `MMFM` (40_trap_reti.md R81, R82; 93_implementation_defined.md G13: "MMTM pushes and MMFM pops the
listed registers through the pointer register"). PRESUMED (log 30): the mask's bits and the order. -/

namespace Sys2Proof.Machine

/-- What `MMTM` stores for register `n` when the pointer has reached `now`: the register, but a free value for the pointer
register itself, which the instruction is changing (log 30). -/
def mmtmValue (s : State) (f : RegFile) (rp n : RegNum) (now : Long) : Long :=
  if n = rp then Config.mmtmPointer (s.getReg f rp) now else s.getReg f n

/-- Push registers of file `f` one after another through a pointer that stands at `p`. Each register is read from `regs`,
the state before the instruction. -/
def State.pushRegs (s regs : State) (f : RegFile) (rp : RegNum) (p : Long) : List RegNum → State
  | [] => s.setReg f rp p
  | n :: ns =>
    let q := s.params.stackDir.pushed p 1
    (s.write q (mmtmValue regs f rp n q)).pushRegs regs f rp q ns

/-- Pop registers of file `f` one after another through a pointer that stands at `p`; the pointer register, where it is
listed, takes its popped value until `mmfmPointerAfter` settles it. -/
def State.popRegs (s : State) (f : RegFile) (p : Long) : List RegNum → State
  | [] => s
  | n :: ns => ((s.afterRead p 32).setReg f n (s.fetched p 32)).popRegs f (s.params.stackDir.popped p 1) ns

/-- What `MMFM` leaves in its pointer register, from the pointer before and the value popped for it: the address after the
last pop; a free value when the register is in its own list (log 30). -/
def mmfmPointerAfter (d : StackDir) (before popped : Long) (rp : RegNum) (ns : List RegNum) : Long :=
  if ns.contains rp then Config.mmfmPointer popped (d.popped before ns.length) else d.popped before ns.length

/-- `MMTM Rp,list` (R82): the listed registers are pushed through `Rp`; ST is unchanged. -/
def execMmtm (f : RegFile) (rp : RegNum) (list : Word) (s : State) : Host.Outcome State Fault Refusal :=
  let pushed := s.pushRegs s f rp (s.getReg f rp) (mmtmList list)
  s.unlessCut pushed (.next (pushed.advance 2))

/-- `MMFM Rp,list` (R81): the listed registers are popped through `Rp`; ST is unchanged. -/
def execMmfm (f : RegFile) (rp : RegNum) (list : Word) (s : State) : Host.Outcome State Fault Refusal :=
  let popped := s.popRegs f (s.getReg f rp) (mmfmList list)
  let after := mmfmPointerAfter s.params.stackDir (s.getReg f rp) (popped.getReg f rp) rp (mmfmList list)
  s.unlessCut popped (.next ((popped.setReg f rp after).advance 2))

end Sys2Proof.Machine
end

