-- ==== Sys2Proof/Machine/Pixel.lean ====
section
/-! DEFINITION. `PIXBLT`, `FILL` and `LINE` (40_trap_reti.md R77 to R79): "the model refuses it" (92_eei_decisions.md D19). What
they compute, where their interruptible points are, what PC they save and how they resume are not in the source (N9). -/

namespace Sys2Proof.Machine

/-- `IsInterruptible(op)` (00_scope.md R3; 60_exceptions.md R105, C6): the instructions the source names as interruptible. A
step of this model never stands inside one, since it refuses them. -/
def isInterruptible : Instr → Bool
  | .pixbltBL | .pixbltBXY | .pixbltLL | .pixbltLXY | .pixbltXYL | .pixbltXYXY => true
  | .fillL | .fillXY | .line _ => true
  | .trap _ | .reti | .rets _ | .jruc _ | .divs _ _ _ | .mmtm _ _ _ | .mmfm _ _ _ => false
  | .illop0000 _ | .illop0200 _ | .illop0400 _ | .illop0800 _ | .illop0A00 _ | .illop0C00 _ | .illop0E00 _ => false
  | .illop3400 _ | .illopBE00 _ => false
  | .maybe7E00 _ | .maybe9E00 _ | .maybeD800 _ | .maybeDC00 _ | .maybeDE00 _ | .maybeFE00 _ => false

/-- `PIXBLT B,L` (R77, D19). -/
def execPixbltBL (_ : State) : Host.Outcome State Fault Refusal := .refused .pixbltNotInSource

/-- `PIXBLT B,XY` (R77, D19). -/
def execPixbltBXY (_ : State) : Host.Outcome State Fault Refusal := .refused .pixbltNotInSource

/-- `PIXBLT L,L` (R77, D19). -/
def execPixbltLL (_ : State) : Host.Outcome State Fault Refusal := .refused .pixbltNotInSource

/-- `PIXBLT L,XY` (R77, D19). -/
def execPixbltLXY (_ : State) : Host.Outcome State Fault Refusal := .refused .pixbltNotInSource

/-- `PIXBLT XY,L` (R77, D19). -/
def execPixbltXYL (_ : State) : Host.Outcome State Fault Refusal := .refused .pixbltNotInSource

/-- `PIXBLT XY,XY` (R77, D19). -/
def execPixbltXYXY (_ : State) : Host.Outcome State Fault Refusal := .refused .pixbltNotInSource

/-- `FILL L` (R78, D19). -/
def execFillL (_ : State) : Host.Outcome State Fault Refusal := .refused .fillNotInSource

/-- `FILL XY` (R78, D19). -/
def execFillXY (_ : State) : Host.Outcome State Fault Refusal := .refused .fillNotInSource

/-- `LINE Z` (R79, D19). -/
def execLine (_ : BitVec 1) (_ : State) : Host.Outcome State Fault Refusal := .refused .lineNotInSource

end Sys2Proof.Machine
end

