-- ==== Sys2Proof/Machine/Traps.lean ====
section
/-! DEFINITION. `TRAP`, `RETI` and `RETS` (40_trap_reti.md R70 to R76). -/

namespace Sys2Proof.Machine

/-- `TRAP N` (R70, R72, R73): saves PC and ST, but for N = 0, which saves nothing (R71). -/
def execTrap (n : BitVec 5) (s : State) : Host.Outcome State Fault Refusal := s.takeTrap n (n ≠ 0) (s.pcNext 1) s.st

/-- `RETI` (R74). -/
def execReti (s : State) : Host.Outcome State Fault Refusal := s.returnFromInterrupt

/-- `RETS N` (R76): pops the PC; then `16*N` is added to SP, PRESUMED (log 28, G13). ST is unchanged. -/
def execRets (n : BitVec 5) (s : State) : Host.Outcome State Fault Refusal :=
  s.unlessCut s.drop32 ((s.drop32.setSP (s.drop32.sp + 16#32 * n.setWidth 32)).loadPC s.top32)

end Sys2Proof.Machine
end

