-- ==== Sys2Proof/Machine/Dispatch.lean ====
section
/-! DEFINITION. One arm per instruction, each a direct call of its meaning. -/

namespace Sys2Proof.Machine

def exec (i : Instr) (s : State) : Host.Outcome State Fault Refusal :=
  match i with
  | .trap n => Sys2Proof.Machine.execTrap n s
  | .reti => Sys2Proof.Machine.execReti s
  | .rets n => Sys2Proof.Machine.execRets n s
  | .jruc d => Sys2Proof.Machine.execJruc d s
  | .divs rs f rd => Sys2Proof.Machine.execDivs rs f rd s
  | .mmtm f rp list => Sys2Proof.Machine.execMmtm f rp list s
  | .mmfm f rp list => Sys2Proof.Machine.execMmfm f rp list s
  | .pixbltBL => Sys2Proof.Machine.execPixbltBL s
  | .pixbltBXY => Sys2Proof.Machine.execPixbltBXY s
  | .pixbltLL => Sys2Proof.Machine.execPixbltLL s
  | .pixbltLXY => Sys2Proof.Machine.execPixbltLXY s
  | .pixbltXYL => Sys2Proof.Machine.execPixbltXYL s
  | .pixbltXYXY => Sys2Proof.Machine.execPixbltXYXY s
  | .fillL => Sys2Proof.Machine.execFillL s
  | .fillXY => Sys2Proof.Machine.execFillXY s
  | .line z => Sys2Proof.Machine.execLine z s
  | .illop0000 low => Sys2Proof.Machine.execIllop0000 low s
  | .illop0200 low => Sys2Proof.Machine.execIllop0200 low s
  | .illop0400 low => Sys2Proof.Machine.execIllop0400 low s
  | .illop0800 low => Sys2Proof.Machine.execIllop0800 low s
  | .illop0A00 low => Sys2Proof.Machine.execIllop0A00 low s
  | .illop0C00 low => Sys2Proof.Machine.execIllop0C00 low s
  | .illop0E00 low => Sys2Proof.Machine.execIllop0E00 low s
  | .illop3400 low => Sys2Proof.Machine.execIllop3400 low s
  | .illopBE00 low => Sys2Proof.Machine.execIllopBE00 low s
  | .maybe7E00 low => Sys2Proof.Machine.execMaybe7E00 low s
  | .maybe9E00 low => Sys2Proof.Machine.execMaybe9E00 low s
  | .maybeD800 low => Sys2Proof.Machine.execMaybeD800 low s
  | .maybeDC00 low => Sys2Proof.Machine.execMaybeDC00 low s
  | .maybeDE00 low => Sys2Proof.Machine.execMaybeDE00 low s
  | .maybeFE00 low => Sys2Proof.Machine.execMaybeFE00 low s

end Sys2Proof.Machine
end

