-- ==== Sys2Proof/Machine/Env.lean ====
section
/-! DEFINITION. The memory controller's end of the RAS-only cycles, and the moves of the environment: reset, pins, display
timing, the host (60_exceptions.md R94, R99, R100, R126; 70_reset_and_hazards.md R155). -/

namespace Sys2Proof.Machine

/-- The end of the eighth RAS-only cycle (R149, R155): the GSP halts or starts. -/
def State.rasOnlyDone (s : State) : Host.Outcome State Fault Refusal :=
  if s.hstctl.hlt then .next (s.setRun .halted) else s.start

/-- The rise of RESET (R155, R147): the I/O registers are cleared but for HLT, ST and the cache are set, and what reset leaves
open is as `draw` has it. PC keeps its value until the start; pins keep their levels. -/
def State.resetReleased (s : State) (hcsHigh : Bool) (draw : PowerOn) : State :=
  { s with
    st := stEntry
    sp := draw.sp
    fileA := draw.fileA
    fileB := draw.fileB
    intenb := 0
    intpendHeld := 0
    hstctl := { nmi := false, nmim := false, intin := false, hlt := hcsHigh, other := 0 }
    dpyint := 0
    vcount := 0
    otherIo := Vector.replicate 22 0
    cache := { ssa := draw.ssa, lru := [0, 1, 2, 3], present := 0 }
    run := .initialising
    refreshInterval := 32
    mem := Memory.afterReset s.nonvolatile s.mem draw.mem
    fetchedSegs := []
    stale := [] }

/-- The start of a horizontal blanking period (R100): a display interrupt is requested when VCOUNT = DPYINT. The whole
registers are compared: DESIGN CHOICE (log 19, D20). -/
def State.hblankStart (s : State) : State :=
  if s.vcount = s.dpyint then { s with intpendHeld := s.intpendHeld ||| 0x0400#16 } else s

/-- The host writes HLT (R122, R152, R155): 0 starts a halted GSP; 1 is refused while the GSP runs (D17, U14). -/
def State.hostWriteHlt (s : State) (v : Bool) : Host.Outcome State Fault Refusal :=
  let written := s.writeHstctlBit .hlt v
  match s.run with
  | .halted => if v then .next written else written.start
  | .running => if v then .refused .haltWhileRunning else .next written
  | .resetLow => .next written
  | .initialising => .next written

/-- A host access by way of the GSP's bus: a host-indirect read or write of memory, or the load of an I/O register, which
the host makes "by host-indirect cycles" (00_scope.md section 5). -/
def EnvMove.isHostAccess : EnvMove → Bool
  | .hostWrite _ _ | .hostRead _ | .hostIo _ _ => true
  | .resetAsserted | .shortResetPulse | .resetReleased _ _ | .lint1 _ | .lint2 _ | .vcount _ | .hblankStart => false
  | .hostHstctl _ _ | .hostHstctlOther _ | .hostRefresh _ => false

/-- A move the host makes; the others are the board's and the devices'. -/
def EnvMove.isHost : EnvMove → Bool
  | .hostWrite _ _ | .hostRead _ | .hostIo _ _ | .hostHstctl _ _ | .hostHstctlOther _ | .hostRefresh _ => true
  | .resetAsserted | .shortResetPulse | .resetReleased _ _ | .lint1 _ | .lint2 _ | .vcount _ | .hblankStart => false

/-- Whether the host's accesses are held: until the RAS-only cycles are over (20_memory.md R51). DESIGN CHOICE (log 47): while
RESET is low too, of which R51 does not speak, and for I/O registers too, of which R51 and R149 do not. -/
def State.holdsAccesses (s : State) : Bool :=
  match s.run with
  | .resetLow | .initialising => true
  | .halted | .running => false

/-- Whether a turn can come now, `hostHeld` saying whether an earlier access of the host is held: then its later moves wait
behind it, since its writes to HSTCTL come after its earlier accesses (R54, D13). The board's and the devices' moves and the
machine's turns wait for nothing. -/
def Turn.canCome (s : State) (hostHeld : Bool) : Turn → Bool
  | .machine => true
  | .env m => !m.isHost || (!hostHeld && !(m.isHostAccess && s.holdsAccesses))

/-- The first turn of a list that can come, and the list without it (log 19, 47). -/
def State.nextTurn (s : State) (hostHeld : Bool) : List Turn → Option (Turn × List Turn)
  | [] => none
  | t :: rest =>
    if t.canCome s hostHeld then some (t, rest) else (s.nextTurn true rest).map (fun p => (p.1, t :: p.2))

/-- The effect of a move of the environment. RESET can rise only when it is low (R155); the host's writes to NMI, NMIM and
INTIN store the bit (log 42). -/
def envMove (m : EnvMove) (s : State) : Host.Outcome State Fault Refusal :=
  match m with
  | .resetAsserted => .next (s.setRun .resetLow)
  | .shortResetPulse => .refused .shortResetPulse
  | .resetReleased hcsHigh draw => .next (if s.run = .resetLow then s.resetReleased hcsHigh draw else s)
  | .lint1 low => .next { s with lint1Low := low }
  | .lint2 low => .next { s with lint2Low := low }
  | .vcount v => .next { s with vcount := v }
  | .hblankStart => .next s.hblankStart
  | .hostHstctl .hlt v => s.hostWriteHlt v
  | .hostHstctl .nmi v => .next (s.writeHstctlBit .nmi v)
  | .hostHstctl .nmim v => .next (s.writeHstctlBit .nmim v)
  | .hostHstctl .intin v => .next (s.writeHstctlBit .intin v)
  | .hostHstctlOther v => .next { s with hstctl := { s.hstctl with other := v } }
  | .hostIo r v => .next (s.writeIoReg r v)
  | .hostWrite addr v => .next (s.store addr v)
  | .hostRead _ => .next s
  | .hostRefresh interval => .next { s with refreshInterval := interval }

end Sys2Proof.Machine
end

