-- ==== Sys2Proof/Machine/Other.lean ====
section
/-! DEFINITION. `ExecOther` (00_scope.md R3, 30_encoding.md R63, R66, D19): the meanings that the parameter gives opcode words,
among them those that perform `WriteIoReg` and `WriteST` (40_trap_reti.md R84). -/

namespace Sys2Proof.Machine

/-! ### Which opcode words are passed to `ExecOther` -/

/-- The named instructions whose meaning comes from `ExecOther` (R76, R80 to R83). `PIXBLT`, `FILL` and `LINE` are refused
outright (D19). -/
def passedOn : Instr → Bool
  | .rets _ | .jruc _ | .divs _ _ _ | .mmtm _ _ _ | .mmfm _ _ _ => true
  | .trap _ | .reti => false
  | .pixbltBL | .pixbltBXY | .pixbltLL | .pixbltLXY | .pixbltXYL | .pixbltXYXY => false
  | .fillL | .fillXY | .line _ => false
  | .illop0000 _ | .illop0200 _ | .illop0400 _ | .illop0800 _ | .illop0A00 _ | .illop0C00 _ | .illop0E00 _ => false
  | .illop3400 _ | .illopBE00 _ => false
  | .maybe7E00 _ | .maybe9E00 _ | .maybeD800 _ | .maybeDC00 _ | .maybeDE00 _ | .maybeFE00 _ => false

/-- Whether `ExecOther` supplies an instruction with the meaning of general knowledge (R76, G13; log 50). -/
def Params.supplies (p : Params) : Instr → Bool
  | .rets _ => p.supplied.rets
  | .jruc _ => p.supplied.jruc
  | .divs _ _ _ => p.supplied.divs
  | .mmtm _ _ _ => p.supplied.mmtm
  | .mmfm _ _ _ => p.supplied.mmfm
  | .trap _ | .reti => false
  | .pixbltBL | .pixbltBXY | .pixbltLL | .pixbltLXY | .pixbltXYL | .pixbltXYXY => false
  | .fillL | .fillXY | .line _ => false
  | .illop0000 _ | .illop0200 _ | .illop0400 _ | .illop0800 _ | .illop0A00 _ | .illop0C00 _ | .illop0E00 _ => false
  | .illop3400 _ | .illopBE00 _ => false
  | .maybe7E00 _ | .maybe9E00 _ | .maybeD800 _ | .maybeDC00 _ | .maybeDE00 _ | .maybeFE00 _ => false

/-- The meaning that the list of `ExecOther` gives an opcode word, if any. -/
def Params.otherMeaning (p : Params) (op : Word) : Option OtherMeaning :=
  p.execOther.find? (fun m => op &&& m.mask = m.pattern)

/-- Whether the instruction decoded from an opcode word has the meaning of `exec`: always if it is not passed on, else where
`ExecOther` supplies that meaning and its list gives no other. -/
def Params.hasOwnMeaning (p : Params) (op : Word) (i : Instr) : Bool :=
  !passedOn i || (p.supplies i && (p.otherMeaning op).isNone)

/-! ### Values -/

def UnOp.value : UnOp → Long → Long
  | .not, a => ~~~a
  | .neg, a => -a
  | .leadingZeros, a => BitVec.ofNat 32 (if a = 0 then 32 else 31 - Nat.log2 a.toNat)

def BinOp.value : BinOp → Long → Long → Long
  | .add, a, b => a + b
  | .sub, a, b => a - b
  | .mul, a, b => a * b
  | .mulHigh, a, b => (a.setWidth 64 * b.setWidth 64).extractLsb' 32 32
  | .mulHighSigned, a, b => (a.signExtend 64 * b.signExtend 64).extractLsb' 32 32
  | .div, a, b => a.udiv b
  | .rem, a, b => a.umod b
  | .divSigned, a, b => a.sdiv b
  | .remSigned, a, b => a.srem b
  | .and, a, b => a &&& b
  | .or, a, b => a ||| b
  | .xor, a, b => a ^^^ b
  | .shiftLeft, a, b => a <<< min 32 b.toNat
  | .shiftRight, a, b => a >>> min 32 b.toNat
  | .shiftRightSigned, a, b => a.sshiftRight (min 32 b.toNat)
  | .rotateLeft, a, b => a.rotateLeft (b.toNat % 32)
  | .zext, a, b => (a.setWidth (min 32 b.toNat)).setWidth 32
  | .sext, a, b => sextLow a (min 32 b.toNat)
  | .equal, a, b => if a = b then 1 else 0
  | .less, a, b => if a.ult b then 1 else 0
  | .lessSigned, a, b => if a.slt b then 1 else 0

/-- What takes effect only at the end of the instruction (R84, D21). -/
inductive EndWrite where
  | st (v : Long)
  | io (r : IoReg) (v : Word)
  | hstctlBit (bit : HstctlBit) (v : Bool)
  | hstctlOther (v : BitVec 12)
  | wv
  | refresh (interval : Nat)
  deriving DecidableEq, Repr

/-- An instruction of `ExecOther` at work: the state so far, its words, its temporaries, and what it has put off to its end,
the earliest first. -/
structure Work where
  state : State
  op : Word
  exts : List Word
  tmps : Vector Long 16
  atEnd : List EndWrite
  deriving DecidableEq, Repr

def Work.start (s : State) (op : Word) (exts : List Word) : Work :=
  { state := s, op := op, exts := exts, tmps := Vector.replicate 16 0, atEnd := [] }

def Work.setState (w : Work) (s : State) : Work := { w with state := s }

def Work.setTmp (w : Work) (k : Fin 16) (v : Long) : Work := { w with tmps := w.tmps.set k v }

/-- Put a write off to the end of the instruction. -/
def Work.putOff (w : Work) (e : EndWrite) : Work := { w with atEnd := w.atEnd ++ [e] }

/-- The value of a source. ST, the I/O registers and HSTCTL read as before the instruction, since what it writes to them comes
at its end (R84). -/
def Source.value (w : Work) : Source → Long
  | .const v => v
  | .reg f n => w.state.getReg (fileOfBit ((f.value w).getLsbD 0)) ((n.value w).setWidth 4)
  | .status => w.state.st
  | .pc => w.state.pc
  | .opcode => w.op.setWidth 32
  | .ext k => (w.exts.getD k 0).setWidth 32
  | .io r => (w.state.readIoReg r).setWidth 32
  | .hstctlBit .nmi => if w.state.hstctl.nmi then 1 else 0
  | .hstctlBit .nmim => if w.state.hstctl.nmim then 1 else 0
  | .hstctlBit .intin => if w.state.hstctl.intin then 1 else 0
  | .hstctlBit .hlt => if w.state.hstctl.hlt then 1 else 0
  | .hstctlOther => w.state.hstctl.other.setWidth 32
  | .tmp k => w.tmps[k]
  | .un o a => o.value (a.value w)
  | .bin o a b => o.value (a.value w) (b.value w)
  | .ite c a b => if c.value w ≠ 0 then a.value w else b.value w
  | .field0 a => asField0 w.state.st (a.value w)
  | .field1 a => asField1 w.state.st (a.value w)

/-! ### Effects -/

/-- How many bits a width in a source means: at most 32. -/
def Work.width (w : Work) (v : Source) : Nat := min 32 (v.value w).toNat

/-- `f`, `n` times, up to the point where RESET cuts the work short. -/
def Work.iterate (f : Work → Work) : Nat → Work → Work
  | 0, w => w
  | n + 1, w => if w.state.isCut then w else Work.iterate f n (f w)

/-- What an effect does to the work. -/
def Effect.run : Effect → Work → Work
  | .skip, w => w
  | .seq a b, w => if (a.run w).state.isCut then a.run w else b.run (a.run w)
  | .ite c a b, w => if c.value w ≠ 0 then a.run w else b.run w
  | .times n a, w => Work.iterate (fun v => a.run v) (n.value w).toNat w
  | .setTmp k v, w => w.setTmp k (v.value w)
  | .setReg f n v, w =>
    w.setState (w.state.setReg (fileOfBit ((f.value w).getLsbD 0)) ((n.value w).setWidth 4) (v.value w))
  | .load k addr width, w =>
    (w.setState (w.state.afterRead (addr.value w) (w.width width))).setTmp k
      ((w.state.fetched (addr.value w) (w.width width)).setWidth 32)
  | .store addr width v, w => w.setState (w.state.write (addr.value w) ((v.value w).setWidth (w.width width)))
  | .push v, w => w.setState (w.state.push32 (v.value w))
  | .pop k, w => (w.setState w.state.drop32).setTmp k w.state.top32
  | .writeST v, w => w.putOff (.st (v.value w))
  | .writeIoReg r v, w => w.putOff (.io r ((v.value w).setWidth 16))
  | .writeHstctlBit bit v, w => w.putOff (.hstctlBit bit (v.value w ≠ 0))
  | .writeHstctlOther v, w => w.putOff (.hstctlOther ((v.value w).setWidth 12))
  | .requestWv, w => w.putOff .wv
  | .setRefresh interval, w => w.putOff (.refresh (interval.value w).toNat)

/-- One of the writes at the end of an instruction. DESIGN CHOICE (log 51): a write of INTIN, NMI or NMIM stores the bit as
written, so that an instruction can request HI by a 1 to INTIN and NMI by a 1 to NMI. The spec lets GSP software clear INTIN
(60_exceptions.md R99), names the host as the one that sets INTIN and NMI (R97, R99), and does not say what the GSP's other
writes of these bits do. -/
def State.endWrite (s : State) : EndWrite → State
  | .st v => s.writeST v
  | .io r v => s.writeIoReg r v
  | .hstctlBit bit v => s.writeHstctlBit bit v
  | .hstctlOther v => { s with hstctl := { s.hstctl with other := v } }
  | .wv => { s with intpendHeld := s.intpendHeld ||| 0x0800#16 }
  | .refresh interval => { s with refreshInterval := interval }

/-- The state with all the writes that were put off made in their order (R84). -/
def Work.finished (w : Work) : State := w.atEnd.foldl State.endWrite w.state

/-- Run a meaning: its effects; where its source points then, if it jumps; the writes that were put off; and the PC, which
otherwise goes past the instruction's words (10_state.md R10). Writing 1 to HLT of a running GSP is refused (60_exceptions.md
R122, D17). -/
def State.runOther (s : State) (m : OtherMeaning) (op : Word) (exts : List Word) : Host.Outcome State Fault Refusal :=
  let w := m.effects.run (Work.start s op exts)
  s.unlessCut w.state
    (if w.atEnd.contains (.hstctlBit .hlt true) then .refused .haltWhileRunning
    else
      match m.target with
      | some v => w.finished.loadPC (v.value w)
      | none => .next (w.finished.advance (1 + m.extWords)))

end Sys2Proof.Machine
end

