-- ==== Sys2Proof/Machine/Fetch.lean ====
section
/-! DEFINITION. Fetching and running one instruction, the machine's own turn in each run state, and whose turn it is. -/

namespace Sys2Proof.Machine

/-- Fetch the word at an address, which is one of the GSP's accesses (20_memory.md R52): the word and the state after it, or
the stop on a stale word (R55, D25), or the state that RESET leaves. -/
def State.fetchWord (s : State) (a : Long) : Except (Host.Outcome State Fault Refusal) (Word × State) :=
  let t := s.afterRead a 16
  if t.isCut then .error (.next (s.cutShort t))
  else if t.fetchIsStale a then .error (.refused (.staleFetch a))
  else .ok (s.fetched a 16, t.noteFetch a)

/-- Fetch `k` words from an address upward. -/
def State.fetchWords (s : State) (a : Long) : Nat → Except (Host.Outcome State Fault Refusal) (List Word × State)
  | 0 => .ok ([], s)
  | k + 1 =>
    match s.fetchWord a with
    | .error o => .error o
    | .ok (w, t) =>
      match t.fetchWords (a + 16#32) k with
      | .error o => .error o
      | .ok (ws, u) => .ok (w :: ws, u)

/-- An opcode word that is passed to `ExecOther`: what its list gives it, else refused (30_encoding.md R63, R66, D24). -/
def State.givenOpcode (s : State) (op : Word) : Host.Outcome State Fault Refusal :=
  match s.params.otherMeaning op with
  | none => .refused (.noMeaningGiven op)
  | some m =>
    match s.fetchWords (s.pcNext 1) m.extWords with
    | .error o => o
    | .ok (exts, t) => t.runOther m op exts

/-- An opcode word in no row of the table (R63, R66): illegal where the parameter `IsIllegal` holds of it, else passed to
`ExecOther`. -/
def State.otherOpcode (s : State) (op : Word) : Host.Outcome State Fault Refusal :=
  if s.params.declaredIllegal op then s.takeIllop else s.givenOpcode op

/-- Fetch, decode and execute the instruction at the PC (R60, R66): the opcode word says how many words follow it, and whether
it is passed to `ExecOther`. -/
def State.runInstruction (s : State) : Host.Outcome State Fault Refusal :=
  match s.fetchWord s.pc with
  | .error o => o
  | .ok (op, t) =>
    match decodeWith s.params.enc op 0 with
    | .error _ => t.otherOpcode op
    | .ok i =>
      if s.params.hasOwnMeaning op i then
        match t.fetchWords (s.pcNext 1) (i.words - 1) with
        | .error o => o
        | .ok (exts, u) =>
          match decodeWith s.params.enc op (exts.getD 0 0) with
          | .error _ => u.otherOpcode op
          | .ok j => exec j u
      else t.givenOpcode op

/-- The machine's own turn. Running: a pending enabled interrupt is taken before the word at the PC is examined
(60_exceptions.md R104, R105, R118). Halted or with RESET low it does nothing (R122, R142). -/
def State.machineTurn (s : State) : Host.Outcome State Fault Refusal :=
  match s.run with
  | .resetLow => .next s
  | .initialising => s.rasOnlyDone
  | .halted => .next s
  | .running =>
    match s.select with
    | some i => s.takeInterrupt i
    | none => s.runInstruction

/-- One turn (log 19): the first turn of `inputs` that can come, or else the machine's. -/
def State.turn (s : State) : Host.Outcome State Fault Refusal :=
  match s.nextTurn false s.inputs with
  | none => s.machineTurn
  | some (.machine, rest) => (s.setInputs rest).machineTurn
  | some (.env m, rest) => envMove m (s.setInputs rest)

end Sys2Proof.Machine
end

