-- ==== Sys2Proof/Machine/Step.lean ====
section
/-! DEFINITION. One step of the machine, and where a step fetches. -/

namespace Sys2Proof.Machine

/-- One step: one turn of the machine or of its environment. -/
def step (s : State) : Host.Outcome State Fault Refusal := s.turn

/-- The state in which the next step runs the instruction whose bits are `w`: its words at the PC in the machine's bit order
(word 0 at the PC, R44), the GSP running, no turn of the environment, no request and no bus event in the way, no word stale
(log 35). -/
def State.withFetchWord (s : State) (nbits w : Nat) : State :=
  let bits : Long := BitVec.ofNat 32 (w % 2 ^ nbits)
  let order := s.params.bitOrder
  { s with
    mem := (s.mem.write s.pc (order.arrange (bits.extractLsb' 0 16))).write (s.pc + 16#32)
      (order.arrange (bits.extractLsb' 16 16))
    run := .running
    hstctl := { s.hstctl with nmi := false, hlt := false }
    intenb := 0
    stale := []
    inputs := []
    bus := [] }

end Sys2Proof.Machine
end

