-- ==== Sys2Proof/Safety.lean ====
section
/-! DEFINITION. The terms the statements use: which instructions take the illegal-opcode trap or are refused, what it means
that memory is unchanged outside a field, and the invariant every step keeps. -/

namespace Sys2Proof

/-- The nine illegal-opcode instructions (30_encoding.md R61). -/
def Instr.isIllop : Instr → Bool
  | .illop0000 _ | .illop0200 _ | .illop0400 _ | .illop0800 _ | .illop0A00 _ | .illop0C00 _ | .illop0E00 _ => true
  | .illop3400 _ | .illopBE00 _ => true
  | .maybe7E00 _ | .maybe9E00 _ | .maybeD800 _ | .maybeDC00 _ | .maybeDE00 _ | .maybeFE00 _ => false
  | .trap _ | .reti | .rets _ | .jruc _ | .divs _ _ _ | .mmtm _ _ _ | .mmfm _ _ _ => false
  | .pixbltBL | .pixbltBXY | .pixbltLL | .pixbltLXY | .pixbltXYL | .pixbltXYXY => false
  | .fillL | .fillXY | .line _ => false

/-- The six rows of the reconstructed ranges (R62). -/
def Instr.isReconstructed : Instr → Bool
  | .maybe7E00 _ | .maybe9E00 _ | .maybeD800 _ | .maybeDC00 _ | .maybeDE00 _ | .maybeFE00 _ => true
  | .illop0000 _ | .illop0200 _ | .illop0400 _ | .illop0800 _ | .illop0A00 _ | .illop0C00 _ | .illop0E00 _ => false
  | .illop3400 _ | .illopBE00 _ => false
  | .trap _ | .reti | .rets _ | .jruc _ | .divs _ _ _ | .mmtm _ _ _ | .mmfm _ _ _ => false
  | .pixbltBL | .pixbltBXY | .pixbltLL | .pixbltLXY | .pixbltXYL | .pixbltXYXY => false
  | .fillL | .fillXY | .line _ => false

end Sys2Proof

namespace Sys2Proof.Machine

/-- Every bit but the `n` bits from `a` upward (modulo 2^32) reads in `m'` as it reads in `m`. -/
def sameOutside (m m' : Memory) (a : Long) (n : Nat) : Prop := ∀ b : Long, n ≤ (b - a).toNat → m'.bit b = m.bit b

/-- The lowest address of the bits that `k` pushes of 32 bits occupy. -/
def StackDir.low (d : StackDir) (p : Long) (k : Nat) : Long :=
  match d with
  | .down => p - 32#32 * BitVec.ofNat 32 k
  | .up => p + 32#32

/-- No host access and no reset falls inside the GSP's memory accesses to come (20_memory.md R53; log 13, 16). -/
def State.quiet (s : State) : Prop := s.bus = []

/-- The next turn is the machine's own, and `rest` are the turns after it. -/
def State.machineIsNext (s : State) (rest : List Turn) : Prop :=
  (s.inputs = [] ∧ rest = []) ∨ s.inputs = .machine :: rest

/-- The PC that the vector with number `n` gives as memory stands (20_memory.md R42, R47), its four lowest bits 0. -/
def State.vectorPC (s : State) (n : BitVec 5) : Long :=
  s.peek (0xFFFFFFE0#32 - 32#32 * n.setWidth 32) 32 &&& 0xFFFFFFF0#32

/-- `t` is `s` after an entry through vector `n` that saves `retPC` and `stSaved` (60_exceptions.md R106, R108; 20_memory.md
R42, R45): both lie on the stack, ST on top; no other bit of memory changes; ST is `>00000010`; the PC is the vector as memory
holds it after the pushes, its four lowest bits 0; every other field is unchanged, but for the model's own `stale`. -/
structure EntersSaving (s t : State) (n : BitVec 5) (retPC stSaved : Long) : Prop where
  savedPC : t.peek (s.params.stackDir.pushed s.sp 1) 32 = retPC
  savedST : t.peek (s.params.stackDir.pushed s.sp 2) 32 = stSaved
  otherMemory : sameOutside s.mem t.mem (s.params.stackDir.low s.sp 2) 64
  frame : t = { s with
    sp := s.params.stackDir.pushed s.sp 2
    st := 0x00000010#32
    pc := t.vectorPC n
    mem := t.mem
    stale := t.stale }

/-- The state in which an instruction runs after its words have been fetched: the fetch of each is noted. -/
def State.noteInstruction (s : State) (i : Instr) : State :=
  if i.words = 2 then (s.noteFetch s.pc).noteFetch (s.pc + 16#32) else s.noteFetch s.pc

/-- None of the words of an instruction at the PC was written after it was fetched. -/
def State.freshInstruction (s : State) (i : Instr) : Prop :=
  s.fetchIsStale s.pc = false ∧ (i.words = 2 → s.fetchIsStale (s.pc + 16#32) = false)

/-- Register `k` of file `g` is none of the registers `ns` of file `f`; SP is register 15 of both files. -/
def untouched (f : RegFile) (ns : List RegNum) (g : RegFile) (k : RegNum) : Prop := ¬ (k ∈ ns ∧ (g = f ∨ k = 15#4))

/-- Numbers strictly rising. -/
def risingNats : List Nat → Bool
  | [] => true
  | x :: xs => xs.all (x < ·) && risingNats xs

/-- The five interrupts that INTENB can mask (60_exceptions.md R91). -/
def maskable : List Interrupt := [.hi, .di, .wv, .int1, .int2]

/-- What holds of every state a run reaches: memory is canonical; the PC is at a word boundary (20_memory.md R47); HLT is 1 in
the halted state and 0 in the running state (60_exceptions.md R122); INTPEND's stored part leaves X1P, X2P and HIP to the
pins and to INTIN (R94, R99); the LRU stack orders the four segments (10_state.md R23); the model's own lists are canonical. -/
structure State.Inv (s : State) : Prop where
  memory : s.mem.wf
  pcWord : s.pc &&& 0xF#32 = 0#32
  haltedHlt : s.run = .halted → s.hstctl.hlt = true
  runningHlt : s.run = .running → s.hstctl.hlt = false
  heldBits : s.intpendHeld &&& 0x0206#16 = 0#16
  lru : s.cache.lru = [0, 1, 2, 3]
  segments : risingNats s.fetchedSegs
  staleWords : risingNats s.stale

end Sys2Proof.Machine
end

