-- ==== Sys2Proof/Certificates/Slice0/Obligations.lean ====
section
/-! DEFINITION. The statements about the model, each with the rules of spec/ it rests on. Where a clause rests on a choice of the
model's own, the docstring names the log entry. Two premises recur: `quiet` says that no host access and no reset falls
inside the work spoken of (20_memory.md R53), and `pcLow4 = .forceZero` is the default policy for loading the PC (R47). -/

open Sys2Proof Sys2Proof.Machine

/-! ### Encoding -/

/-- 30_encoding.md R61, R64, R68 and 95_test_vectors.md V7 (log 12): words written out from the spec's patterns decode to their
instructions, and the two displacements that R64 excludes from the short JRUC do not decode. -/
def Obligations.SpecWordsDecode : Prop :=
  decode 0x0905 0 = .ok (.trap 5) ∧ decode 0x091F 0 = .ok (.trap 31) ∧ decode 0x0940 0 = .ok .reti ∧
  decode 0x0963 0 = .ok (.rets 3) ∧ decode 0xC0FF 0 = .ok (.jruc 0xFF) ∧ decode 0x5802 0 = .ok (.divs 0 .a 2) ∧
  decode 0x098F 0xFFFF = .ok (.mmtm .a 15 0xFFFF) ∧ decode 0x09BE 0x8001 = .ok (.mmfm .b 14 0x8001) ∧
  decode 0x0F60 0 = .ok .pixbltLXY ∧ decode 0x0FE0 0 = .ok .fillXY ∧ decode 0xDF9A 0 = .ok (.line 1) ∧
  decode 0x37FF 0 = .ok (.illop3400 0x3FF) ∧ decode 0xBE00 0 = .ok (.illopBE00 0) ∧
  decode 0xDE00 0 = .ok (.maybeDE00 0) ∧ decode 0xC000 0 = .error (.excludedField 0xC000) ∧
  decode 0xC080 0 = .error (.excludedField 0xC080) ∧ decode 0x0920 0 = .error (.noRow 0x0920)

/-- 30_encoding.md R60, R61, R62, R64, R65 (log 12): the bytes of every well-formed instruction, whatever bytes follow them,
decode to that instruction and leave those bytes. -/
def Obligations.DecodeOfEncodeIsInstruction : Prop :=
  ∀ (i : Instr) (rest : List Byte), i.wellFormed = true →
    decodeBytes ((encode i).flatMap bytesOfWord ++ rest) = .ok (i, rest)

/-- 30_encoding.md R60, R64 (log 12): what decodes is well-formed, and its encoding is the words it was decoded from, so no
word has two meanings and no bit is dropped. -/
def Obligations.EncodeOfDecodeIsWords : Prop :=
  ∀ (op ext : Word) (i : Instr), decode op ext = .ok i →
    i.wellFormed = true ∧ encode i = if i.words = 2 then [op, ext] else [op]

/-- 30_encoding.md R61: under every encoding of the named instructions, an opcode decodes to an illegal-opcode instruction
exactly when it lies in one of the nine ranges, given by their bounds and by match and mask; and such an instruction raises
the illegal-opcode interrupt. -/
def Obligations.IllegalOpcodesAreTheNineRanges : Prop :=
  (∀ (e : Enc) (op ext : Word),
    ((∃ i, decodeWith e op ext = .ok i ∧ i.isIllop = true) ↔ isIllegalOpcode op = true) ∧
    (isIllegalOpcode op = true ↔
      (op &&& 0xFF00#16 ∈ [0x0000#16, 0x0200#16, 0x0400#16, 0x0800#16, 0x0A00#16, 0x0C00#16, 0x0E00#16] ∨
        op &&& 0xFC00#16 = 0x3400#16 ∨ op &&& 0xFE00#16 = 0xBE00#16))) ∧
  (∀ (i : Instr) (s : State), i.isIllop = true → exec i s = s.takeIllop)

/-- 30_encoding.md R62 (D11, C5; log 11): under every encoding of the named instructions, an opcode decodes to a row of the
reconstructed ranges exactly when it lies in one of the four ranges; such an instruction is refused unless the parameter
`IsIllegal` covers its opcode, and raises the illegal-opcode interrupt where it does (60_exceptions.md R117, R106): the address
of the next word (D18; log 3) and ST are pushed, and the entry is through vector 30 (log 1 to 4). -/
def Obligations.ReconstructedRangesRefusedUnlessDeclared : Prop :=
  (∀ (e : Enc) (op ext : Word),
    (∃ i, decodeWith e op ext = .ok i ∧ i.isReconstructed = true) ↔ isReconstructedOpcode op = true) ∧
  (∀ (i : Instr) (s : State), i.isReconstructed = true →
    ((∀ r ∈ s.params.moreIllegal, ¬ (r.1.toNat ≤ i.opcode.toNat ∧ i.opcode.toNat ≤ r.2.toNat)) →
      exec i s = .refused .reconstructedRange) ∧
    ((∃ r ∈ s.params.moreIllegal, r.1.toNat ≤ i.opcode.toNat ∧ i.opcode.toNat ≤ r.2.toNat) →
      exec i s = s.takeIllop ∧
      (s.quiet → s.params.pcLow4 = .forceZero →
        ∃ t, exec i s = .next t ∧ EntersSaving s t 30#5 (s.pc + 16#32) s.st)))

/-! ### Memory and vectors -/

/-- 20_memory.md R44, R46 (D1; log 1): the low 16 bits of a 32-bit value lie in the word at its address and the high 16 bits
in the word 16 bits above, or the other way round under the other bit order; a 32-bit value reads as it was stored, a store
changes no other bit, and where nothing falls between its cycles the GSP's write is the store. -/
def Obligations.LowWordAtLowerAddress : Prop :=
  ∀ (s : State) (a v : Long),
    (s.params.bitOrder = .lowFirst → s.peek a 32 = s.peek (a + 16#32) 16 ++ s.peek a 16) ∧
    (s.params.bitOrder = .highFirst → s.peek a 32 = s.peek a 16 ++ s.peek (a + 16#32) 16) ∧
    (s.store a v).peek a 32 = v ∧ sameOutside s.mem (s.store a v).mem a 32 ∧
    (s.quiet → s.write a v = s.store a v)

/-- 20_memory.md R42: the vector address of N is `>FFFFFFE0 - 32*N`, a multiple of 32, from `>FFFFFC00` for 31 to `>FFFFFFE0`
for 0; an entry through N loads the PC with the 32 bits there (stated for a vector whose bits 3:0 are 0, so nothing rests on
log 4). -/
def Obligations.VectorAddressFormula : Prop :=
  (∀ n : BitVec 5, (vectorAddr n).toNat = 0xFFFFFFE0 - 32 * n.toNat ∧ (vectorAddr n).toNat % 32 = 0) ∧
  vectorAddr 0 = 0xFFFFFFE0#32 ∧ vectorAddr 31 = 0xFFFFFC00#32 ∧
  ∀ (s : State) (n : BitVec 5), s.quiet → s.peek (vectorAddr n) 32 &&& 0xF#32 = 0#32 →
    s.enterVector n = .next { s with st := 0x00000010#32, pc := s.peek (vectorAddr n) 32 }

/-- 60_exceptions.md R126 e (log 13, 46): a host write that can be made stores its 16 bits, changes no other bit of memory and
no other field but the model's own note of changed words. That it is 16 bits at any bit address is the model's choice
(log 46). -/
def Obligations.HostWriteStoresOneWord : Prop :=
  ∀ (s : State) (a : Long) (v : Word) (rest : List Turn),
    s.inputs = .env (.hostWrite a v) :: rest → s.run = .halted ∨ s.run = .running →
    ∃ t, step s = .next t ∧ t.peek a 16 = v ∧ sameOutside s.mem t.mem a 16 ∧
      t = { s with mem := t.mem, stale := t.stale, inputs := rest }

/-- 20_memory.md R46, R53; 60_exceptions.md R106 (D13; log 13): a host write that falls inside an entry. Between the two halves
of the vector fetch, a new upper half is in the PC and a new lower half comes too late for it; between the two pushes, the
saved PC on the stack is what the host wrote over it. That the lower word's cycle comes first is the model's choice
(log 13). -/
def Obligations.HostWriteInsideAnEntry : Prop :=
  ∀ (s : State) (n : BitVec 5) (p q : Long) (v : Word),
    s.params.bitOrder = .lowFirst → s.params.pcLow4 = .forceZero →
    (s.bus = [.cycle, .hostWrite (vectorAddr n + 16#32) v] → ∃ t, s.takeTrap n false p q = .next t ∧
      t.pc = (v ++ s.peek (vectorAddr n) 16) &&& 0xFFFFFFF0#32 ∧ t.run = s.run ∧ t.bus = []) ∧
    (s.bus = [.cycle, .hostWrite (vectorAddr n) v] → ∃ t, s.takeTrap n false p q = .next t ∧
      t.pc = s.vectorPC n ∧ t.peek (vectorAddr n) 16 = v ∧ t.run = s.run ∧ t.bus = []) ∧
    (s.sp &&& 0xF#32 = 0#32 → s.bus = [.cycle, .cycle, .hostWrite (s.params.stackDir.pushed s.sp 1) v] →
      ∃ t, s.takeTrap n true p q = .next t ∧
        t.peek (s.params.stackDir.pushed s.sp 1) 32 = p.extractLsb' 16 16 ++ v ∧
        t.peek (s.params.stackDir.pushed s.sp 2) 32 = q ∧ t.run = s.run ∧ t.bus = [])

/-! ### TRAP, RETI and illegal opcodes -/

/-- 40_trap_reti.md R70, R72 (log 1, 2, 3, 4): `TRAP 1` to `TRAP 31` push the address of the next word and ST and enter
through their vector, in every state, `TRAP 8` whatever NMIM is. -/
def Obligations.TrapSavesContextAndEnters : Prop :=
  ∀ (n : BitVec 5) (s : State), n ≠ 0#5 → s.quiet → s.params.pcLow4 = .forceZero →
    ∃ t, exec (.trap n) s = .next t ∧ EntersSaving s t n (s.pc + 16#32) s.st

/-- 40_trap_reti.md R71, 10_state.md R29 (log 4, 8): `TRAP 0` sets ST and loads the PC from the level-0 vector, and changes
nothing else: no push, no register, no bit of memory, no I/O register. -/
def Obligations.TrapZeroChangesOnlyStAndPc : Prop :=
  ∀ s : State, s.quiet → s.params.pcLow4 = .forceZero →
    exec (.trap 0) s = .next { s with st := 0x00000010#32, pc := s.peek 0xFFFFFFE0#32 32 &&& 0xFFFFFFF0#32 }

/-- 40_trap_reti.md R72, R73; 60_exceptions.md R92: what `TRAP N` does depends on no enable bit, pending bit, HSTCTL bit (NMIM
among them) or interrupt pin, and changes none, whatever falls on the bus. -/
def Obligations.TrapIgnoresEnablesAndRequests : Prop :=
  ∀ (n : BitVec 5) (s : State) (enables held : Word) (h : Hstctl) (low1 low2 : Bool), s.params.pcLow4 = .forceZero → ∃ t,
    exec (.trap n) s = .next t ∧ t.intenb = s.intenb ∧ t.intpend = s.intpend ∧ t.hstctl = s.hstctl ∧
    exec (.trap n) { s with intenb := enables, intpendHeld := held, hstctl := h, lint1Low := low1, lint2Low := low2 } =
      .next { t with intenb := enables, intpendHeld := held, hstctl := h, lint1Low := low1, lint2Low := low2 }

/-- 60_exceptions.md R117, R111 (D18; log 1 to 4): an illegal opcode does what `TRAP 30` does: it pushes the address of the
word after it and ST, and enters through vector 30. -/
def Obligations.IllegalOpcodeEntersVectorThirty : Prop :=
  ∀ (i : Instr) (s : State), i.isIllop = true →
    exec i s = exec (.trap 30) s ∧
    (s.quiet → s.params.pcLow4 = .forceZero →
      ∃ t, exec i s = .next t ∧ EntersSaving s t 30#5 (s.pc + 16#32) s.st)

/-- 40_trap_reti.md R74, 93_implementation_defined.md U13 (log 2, 4, 34): `RETI` with PBX clear in the popped word pops ST, then
the PC, and changes nothing else; with PBX set it is refused. -/
def Obligations.RetiPopsStThenPc : Prop :=
  ∀ s : State, s.quiet →
    ((s.peek s.sp 32).getLsbD 25 = true → exec .reti s = .refused .resumePixelOperation) ∧
    ((s.peek s.sp 32).getLsbD 25 = false → s.params.pcLow4 = .forceZero →
      exec .reti s = .next { s with
        st := s.peek s.sp 32
        pc := s.peek (s.params.stackDir.popped s.sp 1) 32 &&& 0xFFFFFFF0#32
        sp := s.params.stackDir.popped s.sp 2 })

/-- 95_test_vectors.md V5 case 5; 40_trap_reti.md R70, R74 (log 1 to 4): `TRAP N` and then `RETI` give back the state before
the trap, with the PC after it; only the 64 bits of the two pushes differ. -/
def Obligations.RetiUndoesTrap : Prop :=
  ∀ (n : BitVec 5) (s : State), n ≠ 0#5 → s.quiet → s.params.pcLow4 = .forceZero → s.st.getLsbD 25 = false →
    s.pc &&& 0xF#32 = 0#32 →
    ∃ t, exec (.trap n) s = .next t ∧
      exec .reti t = .next { s with pc := s.pc + 16#32, mem := t.mem, stale := t.stale } ∧
      sameOutside s.mem t.mem (s.params.stackDir.low s.sp 2) 64

/-- 40_trap_reti.md R76 (G13; log 2, 4, 28): `RETS N` pops the PC, adds `16*N` to SP, and changes nothing else. -/
def Obligations.RetsPopsOnlyPc : Prop :=
  ∀ (n : BitVec 5) (s : State), s.quiet → s.params.pcLow4 = .forceZero →
    exec (.rets n) s = .next { s with
      pc := s.peek s.sp 32 &&& 0xFFFFFFF0#32
      sp := s.params.stackDir.popped s.sp 1 + 16#32 * n.setWidth 32 }

/-! ### The other instructions -/

/-- 40_trap_reti.md R83 (G13; log 29): `JRUC` adds its displacement in words to the address of the next word, and changes
nothing else. -/
def Obligations.JrucAddsSignedWords : Prop :=
  ∀ (d : BitVec 8) (s : State),
    exec (.jruc d) s = .next { s with pc := s.pc + 16#32 + 16#32 * d.signExtend 32 }

/-- 30_encoding.md R68, 60_exceptions.md R123 (log 12, 29, 50): with nothing to take, the word `>C0FF` leaves the PC and everything
else as it is, but for the turn that is used up and the model's own note of fetched segments: it waits. -/
def Obligations.SelfJumpWaits : Prop :=
  ∀ (s : State) (rest : List Turn), s.run = .running → s.machineIsNext rest → s.quiet → s.params.enc = Enc.standard →
    s.params.supplied.jruc = true → (∀ m ∈ s.params.execOther, 0xC0FF#16 &&& m.mask ≠ m.pattern) →
    s.select = none → s.fetchIsStale s.pc = false → s.peek s.pc 16 = 0xC0FF#16 →
    ∃ t, step s = .next t ∧ t = { s with inputs := rest, fetchedSegs := t.fetchedSegs }

/-- 40_trap_reti.md R80 (G13; log 31): `DIVS` completes in every state; the quotient goes to `Rd` and, for an even `Rd`, the
remainder to the next register; bits 27:0 of ST, every other register and every other field are unchanged, the PC advances. The
quotient and the remainder are the free values of log 31 where the divisor is 0 or the quotient does not fit. -/
def Obligations.DivsWritesItsDestination : Prop :=
  ∀ (rs : RegNum) (f : RegFile) (rd : RegNum) (s : State), ∃ t, exec (.divs rs f rd) s = .next t ∧
    (rd.getLsbD 0 = false →
      t.getReg f rd = divsQuotient true (s.getReg f rd ++ s.getReg f (rd + 1)) (s.getReg f rs) ∧
      t.getReg f (rd + 1) = divsRemainder (s.getReg f rd ++ s.getReg f (rd + 1)) (s.getReg f rs) ∧
      ∀ g k, untouched f [rd, rd + 1] g k → t.getReg g k = s.getReg g k) ∧
    (rd.getLsbD 0 = true →
      t.getReg f rd = divsQuotient false ((s.getReg f rd).signExtend 64) (s.getReg f rs) ∧
      ∀ g k, untouched f [rd] g k → t.getReg g k = s.getReg g k) ∧
    t.st.extractLsb' 0 28 = s.st.extractLsb' 0 28 ∧
    t = { s with pc := s.pc + 16#32, st := t.st, sp := t.sp, fileA := t.fileA, fileB := t.fileB }

/-- 40_trap_reti.md R80, "signed divide" (log 31): where the divisor is not 0 and the truncated quotient fits 32 bits, quotient
times divisor plus remainder is the dividend, and the remainder is smaller than the divisor; the remainder of an odd
destination is not kept. -/
def Obligations.DivsIsSignedDivision : Prop :=
  ∀ (rs : RegNum) (f : RegFile) (rd : RegNum) (s : State), ∃ t, exec (.divs rs f rd) s = .next t ∧
    (rd.getLsbD 0 = false → s.getReg f rs ≠ 0#32 →
      -(2 ^ 31) ≤ (s.getReg f rd ++ s.getReg f (rd + 1)).toInt.tdiv (s.getReg f rs).toInt →
      (s.getReg f rd ++ s.getReg f (rd + 1)).toInt.tdiv (s.getReg f rs).toInt < 2 ^ 31 →
      (t.getReg f rd).toInt * (s.getReg f rs).toInt + (t.getReg f (rd + 1)).toInt =
          (s.getReg f rd ++ s.getReg f (rd + 1)).toInt ∧
        (t.getReg f (rd + 1)).toInt.natAbs < (s.getReg f rs).toInt.natAbs) ∧
    (rd.getLsbD 0 = true → s.getReg f rs ≠ 0#32 → (s.getReg f rd).toInt.tdiv (s.getReg f rs).toInt < 2 ^ 31 →
      ((s.getReg f rd).toInt - (t.getReg f rd).toInt * (s.getReg f rs).toInt).natAbs < (s.getReg f rs).toInt.natAbs)

/-- 40_trap_reti.md R82 (G13; log 2, 30): `MMTM` completes; it pushes the listed registers one after the other through `Rp`,
which ends 32 bits further for each; no other bit of memory, no other register and no other field changes, ST among them;
the PC advances by two words. What is stored for `Rp` itself is the free value of log 30. -/
def Obligations.MmtmPushesListedRegisters : Prop :=
  ∀ (f : RegFile) (rp : RegNum) (list : Word) (s : State), s.quiet →
    let d := s.params.stackDir
    let k := (mmtmList list).length
    ∃ t, exec (.mmtm f rp list) s = .next t ∧
      t.getReg f rp = d.pushed (s.getReg f rp) k ∧
      (∀ (j : Nat) (n : RegNum), (mmtmList list)[j]? = some n → n ≠ rp →
        t.peek (d.pushed (s.getReg f rp) (j + 1)) 32 = s.getReg f n) ∧
      sameOutside s.mem t.mem (d.low (s.getReg f rp) k) (32 * k) ∧
      (∀ g k, untouched f [rp] g k → t.getReg g k = s.getReg g k) ∧
      t = { s with
        pc := s.pc + 32#32, sp := t.sp, fileA := t.fileA, fileB := t.fileB, mem := t.mem, stale := t.stale }

/-- 40_trap_reti.md R81 (G13; log 2, 30): `MMFM` completes; it pops the listed registers one after the other through `Rp`,
which ends 32 bits further for each unless it is in the list (the free value of log 30); memory, ST, no other register and
no other field changes; the PC advances by two words. -/
def Obligations.MmfmPopsListedRegisters : Prop :=
  ∀ (f : RegFile) (rp : RegNum) (list : Word) (s : State), s.quiet →
    let d := s.params.stackDir
    ∃ t, exec (.mmfm f rp list) s = .next t ∧
      (rp ∉ mmfmList list → t.getReg f rp = d.popped (s.getReg f rp) (mmfmList list).length) ∧
      (∀ (j : Nat) (n : RegNum), (mmfmList list)[j]? = some n → n ≠ rp →
        t.getReg f n = s.peek (d.popped (s.getReg f rp) j) 32) ∧
      (∀ g k, untouched f (rp :: mmfmList list) g k → t.getReg g k = s.getReg g k) ∧
      t = { s with pc := s.pc + 32#32, sp := t.sp, fileA := t.fileA, fileB := t.fileB }

/-- 40_trap_reti.md R81, R82 (G13; log 30): `MMTM` and then `MMFM` with the mask reversed give back every register, when the
pointer register is not in the list. -/
def Obligations.MmfmUndoesMmtm : Prop :=
  ∀ (f : RegFile) (rp : RegNum) (list : Word) (s : State), s.quiet → rp ∉ mmtmList list →
    ∃ t, exec (.mmtm f rp list) s = .next t ∧
      exec (.mmfm f rp list.reverse) t = .next { s with pc := s.pc + 64#32, mem := t.mem, stale := t.stale }

/-- 40_trap_reti.md R77, R78, R79 (D19; log 18): `PIXBLT`, `FILL` and `LINE` are refused in every form and every state. -/
def Obligations.PixelInstructionsRefused : Prop :=
  ∀ (s : State) (z : BitVec 1),
    (∀ i ∈ [Instr.pixbltBL, .pixbltBXY, .pixbltLL, .pixbltLXY, .pixbltXYL, .pixbltXYXY],
      exec i s = .refused .pixbltNotInSource) ∧
    (∀ i ∈ [Instr.fillL, .fillXY], exec i s = .refused .fillNotInSource) ∧
    exec (.line z) s = .refused .lineNotInSource

/-- 00_scope.md R3, 40_trap_reti.md R84, 30_encoding.md R66 (D19, D21; log 39, 45, 50): an opcode word in no row of the table, or
of one of the five named instructions that are passed to `ExecOther`, that the parameter gives the effects `WriteIoReg(r, v)`,
`WriteST(w)` and a push of ST. The push stores the ST of before the instruction, since both writes come at its end; the PC
advances past its one word, and nothing else changes. -/
def Obligations.OtherOpcodeTakesItsMeaning : Prop :=
  ∀ (s : State) (rest : List Turn) (op : Word) (r : IoReg) (v w : Long),
    s.run = .running → s.machineIsNext rest → s.quiet → s.select = none → s.fetchIsStale s.pc = false →
    s.peek s.pc 16 = op →
    ((∃ e, decodeWith s.params.enc op 0 = .error e ∧ s.params.moreIllegal = []) ∨
      ∃ i, decodeWith s.params.enc op 0 = .ok i ∧ passedOn i = true) →
    s.params.execOther =
      [⟨0xFFFF, op, 0, .seq (.writeIoReg r (.const v)) (.seq (.writeST (.const w)) (.push .status)), none⟩] →
    ∃ t, step s = .next t ∧ t.peek (s.params.stackDir.pushed s.sp 1) 32 = s.st ∧
      sameOutside s.mem t.mem (s.params.stackDir.low s.sp 1) 32 ∧
      t = { s.writeIoReg r (v.setWidth 16) with
        st := w
        sp := s.params.stackDir.pushed s.sp 1
        pc := s.pc + 16#32
        mem := t.mem
        stale := t.stale
        inputs := rest
        fetchedSegs := t.fetchedSegs }

/-! ### Interrupts -/

/-- 60_exceptions.md R91: a maskable interrupt is enabled when IE and its bit of INTENB are both 1. -/
def Obligations.MaskableEnabledByIeAndMask : Prop :=
  ∀ s : State,
    (Interrupt.hi.enabled s = true ↔ s.st.getLsbD 21 = true ∧ s.intenb.getLsbD 9 = true) ∧
    (Interrupt.di.enabled s = true ↔ s.st.getLsbD 21 = true ∧ s.intenb.getLsbD 10 = true) ∧
    (Interrupt.wv.enabled s = true ↔ s.st.getLsbD 21 = true ∧ s.intenb.getLsbD 11 = true) ∧
    (Interrupt.int1.enabled s = true ↔ s.st.getLsbD 21 = true ∧ s.intenb.getLsbD 1 = true) ∧
    (Interrupt.int2.enabled s = true ↔ s.st.getLsbD 21 = true ∧ s.intenb.getLsbD 2 = true)

/-- 60_exceptions.md R104, R90, R103 (C4, D7; log 7): the interrupt selected is the one of highest priority among those pending
and enabled; none is selected exactly when there is none. -/
def Obligations.SelectIsHighestPriority : Prop :=
  ∀ s : State,
    (∀ i : Interrupt, s.select = some i ↔ i.pending s = true ∧ i.enabled s = true ∧
      ∀ j : Interrupt, j.pending s = true → j.enabled s = true → i.priority ≤ j.priority) ∧
    (s.select = none ↔ ∀ j : Interrupt, j.pending s = true → j.enabled s = false)

/-- 60_exceptions.md R96, R104 (C4, D7; log 6, 7): when both external requests are active and enabled and no internal one is, INT1
is selected; INT2 is never selected while INT1 is active and enabled. That the level of a pin is its request is the model's
choice (log 6), and so is that internal requests which are pending and disabled do not hold INT1 back (log 7). -/
def Obligations.ExternalInterruptOneFirst : Prop :=
  ∀ s : State, s.lint1Low = true → s.lint2Low = true → Interrupt.int1.enabled s = true →
    Interrupt.int2.enabled s = true →
    s.select ≠ some .int2 ∧
    ((∀ i ∈ [Interrupt.nmi, .hi, .di, .wv], ¬ (i.pending s = true ∧ i.enabled s = true)) → s.select = some .int1)

/-- 10_state.md R19, R20 (D21; log 20): the bits of INTENB and INTPEND that the source does not name have no effect on which
interrupt is selected. -/
def Obligations.UnnamedMaskBitsHaveNoEffect : Prop :=
  ∀ (s : State) (enables held : Word), enables &&& 0x0E06#16 = s.intenb &&& 0x0E06#16 →
    held &&& 0x0C00#16 = s.intpendHeld &&& 0x0C00#16 →
    ({ s with intenb := enables, intpendHeld := held } : State).select = s.select

/-- 60_exceptions.md R105, R106, R111, R118 (log 1 to 4): at a boundary of the running machine a selected interrupt that saves
is taken before the word at the PC is examined: its request is cleared where the parameter `ClearOnTake` says so, PC and ST
are pushed as they stand, and the entry is through its vector. -/
def Obligations.SelectedInterruptIsTaken : Prop :=
  ∀ (s : State) (i : Interrupt) (rest : List Turn), s.run = .running → s.machineIsNext rest → s.quiet →
    s.params.pcLow4 = .forceZero → s.select = some i → (i = .nmi → s.hstctl.nmim = false) →
    ∃ t, step s = .next t ∧ EntersSaving (({ s with inputs := rest } : State).clearOnTake i) t i.vector s.pc s.st

/-- 60_exceptions.md R112, R101 (D6; log 6): taking an interrupt clears its own request where the parameter `ClearOnTake` says
so, and no other; the requests of the pins it never clears; the default, which is the model's choice (log 6), clears NMI
alone. -/
def Obligations.ClearOnTakeClearsOneRequest : Prop :=
  ∀ s : State,
    (s.params.clearOnTake.nmi = true → Interrupt.nmi.pending (s.clearOnTake .nmi) = false) ∧
    (s.params.clearOnTake.hi = true → Interrupt.hi.pending (s.clearOnTake .hi) = false) ∧
    (s.params.clearOnTake.di = true → Interrupt.di.pending (s.clearOnTake .di) = false) ∧
    (s.params.clearOnTake.wv = true → Interrupt.wv.pending (s.clearOnTake .wv) = false) ∧
    (∀ i ∈ [Interrupt.int1, .int2, .illop], s.clearOnTake i = s) ∧
    (s.params.clearOnTake = Params.standard.clearOnTake → ∀ i, i ≠ .nmi → s.clearOnTake i = s) ∧
    (∀ i j : Interrupt, j ≠ i → j.pending (s.clearOnTake i) = j.pending s) ∧
    (∀ i : Interrupt, s.clearOnTake i =
      { s with hstctl := (s.clearOnTake i).hstctl, intpendHeld := (s.clearOnTake i).intpendHeld })

/-- 60_exceptions.md R98, R97 (D6, D8; log 4, 6, 8): an NMI with NMIM = 1 saves nothing: it sets ST, loads the PC from vector 8,
clears its request, and changes nothing else, whatever IE and INTENB hold. -/
def Obligations.NmiWithNmimSavesNothing : Prop :=
  ∀ (s : State) (rest : List Turn), s.run = .running → s.machineIsNext rest → s.quiet → s.params.pcLow4 = .forceZero →
    s.params.clearOnTake.nmi = true → s.hstctl.nmi = true → s.hstctl.nmim = true →
    step s = .next { s with
      st := 0x00000010#32
      pc := s.vectorPC 8#5
      hstctl := { s.hstctl with nmi := false }
      inputs := rest }

/-- 60_exceptions.md R108: an entry writes all 32 bits of ST, every bit 0 except bit 4, field by field, for every vector and
whether it saves or not, whatever the host writes inside it, unless RESET cuts it short; an entry that nothing falls into
completes; the value is the reset value of ST. -/
def Obligations.EntryWritesWholeStatus : Prop :=
  (∀ (s t : State) (n : BitVec 5) (save : Bool) (retPC stSaved : Long),
    s.takeTrap n save retPC stSaved = .next t → t.run ≠ .resetLow →
      t.st = 0x00000010#32 ∧ stCond t.st = 0#4 ∧ stPBX t.st = false ∧ stIE t.st = false ∧ stFE1 t.st = false ∧
      stFS1 t.st = 0#5 ∧ stFE0 t.st = false ∧ stFS0 t.st = 0b10000#5) ∧
  (∀ (s : State) (n : BitVec 5) (save : Bool) (retPC stSaved : Long), s.quiet → s.params.pcLow4 = .forceZero →
    ∃ t, s.takeTrap n save retPC stSaved = .next t ∧ t.run = s.run ∧ t.st = 0x00000010#32) ∧
  State.reset.st = 0x00000010#32

/-- 60_exceptions.md R109, 10_state.md R14: after an entry none of the five maskable interrupts is enabled, so only NMI can be
selected; field 0 is 16 bits and field 1 is 32 bits, and a value read as one of them is zero-extended; INTENB and INTPEND are
as before. -/
def Obligations.EntryLeavesOnlyNmi : Prop :=
  ∀ (s : State) (n : BitVec 5) (save : Bool) (retPC stSaved : Long), s.quiet → s.params.pcLow4 = .forceZero →
    ∃ t, s.takeTrap n save retPC stSaved = .next t ∧
      (∀ i ∈ maskable, i.enabled t = false) ∧ (t.select = if s.hstctl.nmi then some .nmi else none) ∧
      fieldSize (stFS0 t.st) = 16 ∧ fieldSize (stFS1 t.st) = 32 ∧
      (∀ v : Long, asField0 t.st v = (v.setWidth 16).setWidth 32 ∧ asField1 t.st v = v) ∧
      t.intenb = s.intenb ∧ t.intpend = s.intpend

/-- 60_exceptions.md R107, the half of it that speaks of an instruction boundary: an interrupt taken there pushes ST with its
PBX bit as it stands, set or clear, and leaves PBX clear in ST. -/
def Obligations.BoundaryEntrySavesStAsItStands : Prop :=
  ∀ (s : State) (i : Interrupt), i ∈ [Interrupt.nmi, .hi, .di, .wv, .int1, .int2] → s.quiet →
    s.params.pcLow4 = .forceZero → (i = .nmi → s.hstctl.nmim = false) →
    ∃ t, s.takeInterrupt i = .next t ∧ t.peek t.sp 32 = s.st ∧ stPBX (t.peek t.sp 32) = stPBX s.st ∧ stPBX t.st = false

/-- 60_exceptions.md R94, R99 (D6; log 6): in every state X1P and X2P are the levels of the pins and HIP is INTIN. -/
def Obligations.PendingBitsFollowTheirSources : Prop :=
  ∀ s : State, s.intpend.getLsbD 1 = s.lint1Low ∧ s.intpend.getLsbD 2 = s.lint2Low ∧
    s.intpend.getLsbD 9 = s.hstctl.intin

/-- 60_exceptions.md R100 (D20; log 19): at the start of horizontal blanking DIP is set when VCOUNT = DPYINT and otherwise kept;
every other bit of INTPEND and every other field is unchanged. -/
def Obligations.DisplayInterruptOnEqualLine : Prop :=
  ∀ (s : State) (rest : List Turn), s.inputs = .env .hblankStart :: rest →
    ∃ t, step s = .next t ∧ t.intpend.getLsbD 10 = (s.intpend.getLsbD 10 || decide (s.vcount = s.dpyint)) ∧
      (∀ b, b ≠ 10 → t.intpend.getLsbD b = s.intpend.getLsbD b) ∧
      t = { s with intpendHeld := t.intpendHeld, inputs := rest }

/-- 60_exceptions.md R101, 40_trap_reti.md R84 (D21, G10; log 20): a write to INTPEND can clear DIP and WVP and set neither, does
not touch X1P, X2P and HIP, and stores the unnamed bits; no other register is changed. -/
def Obligations.IntpendWriteOnlyClearsRequests : Prop :=
  ∀ (s : State) (v : Word),
    let t := s.writeIoReg .intpend v
    (∀ b ∈ [1, 2, 9], t.intpend.getLsbD b = s.intpend.getLsbD b) ∧
    (∀ b ∈ [10, 11], t.intpend.getLsbD b = (s.intpend.getLsbD b && v.getLsbD b)) ∧
    (∀ b < 16, b ∉ [1, 2, 9, 10, 11] → t.intpend.getLsbD b = v.getLsbD b) ∧
    t = { s with intpendHeld := t.intpendHeld }

/-- 40_trap_reti.md R84, 10_state.md R18 (D9, D21; log 9, 20, 49): a register other than INTPEND reads as written, and every
other register reads as before. That all 16 bits of each can be written is the model's choice (log 49). -/
def Obligations.IoRegisterReadsAsWritten : Prop :=
  ∀ (s : State) (r : IoReg) (v : Word), r ≠ .intpend →
    (s.writeIoReg r v).readIoReg r = v ∧ ∀ q : IoReg, q ≠ r → (s.writeIoReg r v).readIoReg q = s.readIoReg q

/-- 60_exceptions.md R94, R100 (D20, D26; log 19, 25): the moves of LINT1, LINT2 and VCOUNT. Each sets its level or its value,
the request bit of a pin with it, and changes nothing else, in every run state. -/
def Obligations.PinAndCounterMovesSetTheirState : Prop :=
  ∀ (s : State) (rest : List Turn) (low : Bool) (v : Word),
    (s.inputs = .env (.lint1 low) :: rest →
      ∃ t, step s = .next t ∧ t.intpend.getLsbD 1 = low ∧ t = { s with lint1Low := low, inputs := rest }) ∧
    (s.inputs = .env (.lint2 low) :: rest →
      ∃ t, step s = .next t ∧ t.intpend.getLsbD 2 = low ∧ t = { s with lint2Low := low, inputs := rest }) ∧
    (s.inputs = .env (.vcount v) :: rest →
      ∃ t, step s = .next t ∧ t.readIoReg .vcount = v ∧ t = { s with vcount := v, inputs := rest })

/-! ### Reset, halt and the host -/

/-- 10_state.md R27, 70_reset_and_hazards.md R147, R155: what the spec gives the state at the end of reset. The registers, the
memory and the PC that it leaves open, and the boot mode, are the model's choices (log 15, 26, 36) and are not stated. -/
def Obligations.ResetStateAsGiven : Prop :=
  State.reset.st = 0x00000010#32 ∧ (∀ r : IoReg, State.reset.readIoReg r = 0#16) ∧ State.reset.hstctl.nmi = false ∧
  State.reset.hstctl.nmim = false ∧ State.reset.hstctl.intin = false ∧ State.reset.cache.lru = [0, 1, 2, 3] ∧
  State.reset.cache.present = 0#32 ∧ State.reset.refreshInterval = 32 ∧ State.reset.run = .initialising

/-- 70_reset_and_hazards.md R146, R147, R155; 20_memory.md R50, R55 (log 15, 16, 24, 25, 27): the rise of RESET clears every I/O
register but HLT, which takes the level of HCS, sets ST and the cache, leaves the registers and the volatile memory at
whatever the environment drew (log 15), keeps non-volatile memory and the pins (log 25), and makes every word fetchable
again, rewritten code among it. -/
def Obligations.ResetReleaseSetsTheState : Prop :=
  ∀ (s : State) (hcsHigh : Bool) (draw : PowerOn) (rest : List Turn), s.run = .resetLow →
    s.inputs = .env (.resetReleased hcsHigh draw) :: rest → ∃ t, step s = .next t ∧
      t.st = 0x00000010#32 ∧ (∀ r : IoReg, r ≠ .intpend → t.readIoReg r = 0#16) ∧ t.intpendHeld = 0#16 ∧
      t.hstctl = { nmi := false, nmim := false, intin := false, hlt := hcsHigh, other := 0 } ∧
      t.cache = { ssa := draw.ssa, lru := [0, 1, 2, 3], present := 0 } ∧ t.run = .initialising ∧
      t.fileA = draw.fileA ∧ t.fileB = draw.fileB ∧ t.sp = draw.sp ∧ t.refreshInterval = 32 ∧ t.pc = s.pc ∧
      t.lint1Low = s.lint1Low ∧ t.lint2Low = s.lint2Low ∧ t.nonvolatile = s.nonvolatile ∧ t.inputs = rest ∧
      t.fetchedSegs = [] ∧ t.stale = [] ∧ (∀ a : Long, t.fetchIsStale a = false) ∧ t.params = s.params ∧ t.bus = s.bus ∧
      ∀ k < 2 ^ 29, t.mem.byte k = if inRanges s.nonvolatile k then s.mem.byte k else draw.mem.byte k

/-- 70_reset_and_hazards.md R140, R154, R155; 60_exceptions.md R120 a (log 16): RESET low is taken in every state; it saves
nothing, writes no memory and uses no register. -/
def Obligations.ResetAssertedAtAnyTurn : Prop :=
  ∀ (s : State) (rest : List Turn), s.inputs = .env .resetAsserted :: rest →
    step s = .next { s with run := .resetLow, inputs := rest }

/-- 70_reset_and_hazards.md R154, 60_exceptions.md R115, R106 (D16; log 13, 16): RESET inside the GSP's work. In an entry, after
the cycles of the first push, that push stays in memory and nothing else is done; and whenever RESET cuts an instruction
short, every register is as before it and only memory shows how far it had got. That the registers are as before is the
model's choice (log 16): reset draws them anew. -/
def Obligations.ResetInsideTheWork : Prop :=
  (∀ (s : State) (n : BitVec 5) (p q : Long) (later : List BusEvent), s.sp &&& 0xF#32 = 0#32 →
    s.bus = .cycle :: .cycle :: .resetAsserted :: later →
    ∃ t, s.takeTrap n true p q = .next t ∧
      t = { s with
        run := .resetLow
        mem := (s.store (s.params.stackDir.pushed s.sp 1) p).mem
        stale := t.stale
        bus := later }) ∧
  (∀ (i : Instr) (s t : State), exec i s = .next t → t.run ≠ s.run →
    t = { s with run := .resetLow, mem := t.mem, stale := t.stale, bus := t.bus })

/-- 70_reset_and_hazards.md R149, R151, R152, R155 (log 4): the end of the RAS-only cycles halts the GSP when HLT is 1, and
otherwise starts it: ST is set and the PC is loaded from the level-0 vector. -/
def Obligations.EndOfRasCyclesHaltsOrStarts : Prop :=
  ∀ (s : State) (rest : List Turn), s.run = .initialising → s.machineIsNext rest →
    (s.hstctl.hlt = true → step s = .next { s with run := .halted, inputs := rest }) ∧
    (s.hstctl.hlt = false → s.quiet → s.params.pcLow4 = .forceZero →
      step s = .next { s with run := .running, st := 0x00000010#32, pc := s.vectorPC 0#5, inputs := rest })

/-- 60_exceptions.md R122, 70_reset_and_hazards.md R142 (D17; log 17): a halted GSP, and one whose RESET is low, does nothing in
its own turn, whatever requests are pending. -/
def Obligations.HaltedMachineDoesNothing : Prop :=
  ∀ (s : State) (rest : List Turn), s.run = .halted ∨ s.run = .resetLow → s.machineIsNext rest →
    step s = .next { s with inputs := rest }

/-- 70_reset_and_hazards.md R152, R155 (log 4): when the host clears HLT of a halted GSP, ST is set, the PC is loaded from the
level-0 vector as memory then holds it, and the GSP runs; nothing else changes, the I/O registers the host loaded among
it (10_state.md R28). -/
def Obligations.HostClearingHltStartsTheGsp : Prop :=
  ∀ (s : State) (rest : List Turn), s.run = .halted → s.inputs = .env (.hostHstctl .hlt false) :: rest → s.quiet →
    s.params.pcLow4 = .forceZero →
    step s = .next { s with
      run := .running
      st := 0x00000010#32
      pc := s.vectorPC 0#5
      hstctl := { s.hstctl with hlt := false }
      inputs := rest }

/-- 70_reset_and_hazards.md R155, 60_exceptions.md R122 (D17; log 17): the host's other writes of HLT store the bit and change
nothing else: either value while RESET is low or the RAS-only cycles run, 1 to a halted GSP, 0 to a running one. -/
def Obligations.HostHltWritesStoreTheBit : Prop :=
  ∀ (s : State) (rest : List Turn) (v : Bool), s.inputs = .env (.hostHstctl .hlt v) :: rest →
    (s.run = .resetLow ∨ s.run = .initialising ∨ (s.run = .halted ∧ v = true) ∨ (s.run = .running ∧ v = false)) →
    step s = .next { s with hstctl := { s.hstctl with hlt := v }, inputs := rest }

/-- 60_exceptions.md R126 a, b, c, e, f, g; R97 to R99 (log 10, 42, 43): the host's other moves. A write of NMI, NMIM, INTIN or the
unnamed bits of HSTCTL stores them, and with INTIN goes HIP; a load of an I/O register is `WriteIoReg`; a read changes
nothing; a change of the refresh rate stores the interval. That a written 0 is stored is the model's choice (log 42). -/
def Obligations.HostMovesStoreWhatTheySay : Prop :=
  ∀ (s : State) (rest : List Turn) (b : Bool) (o : BitVec 12) (r : IoReg) (v : Word) (a : Long) (k : Nat),
    (s.inputs = .env (.hostHstctl .nmi b) :: rest →
      step s = .next { s with hstctl := { s.hstctl with nmi := b }, inputs := rest }) ∧
    (s.inputs = .env (.hostHstctl .nmim b) :: rest →
      step s = .next { s with hstctl := { s.hstctl with nmim := b }, inputs := rest }) ∧
    (s.inputs = .env (.hostHstctl .intin b) :: rest → ∃ t, step s = .next t ∧
      t.intpend.getLsbD 9 = b ∧ t = { s with hstctl := { s.hstctl with intin := b }, inputs := rest }) ∧
    (s.inputs = .env (.hostHstctlOther o) :: rest →
      step s = .next { s with hstctl := { s.hstctl with other := o }, inputs := rest }) ∧
    (s.inputs = .env (.hostIo r v) :: rest → s.run = .halted ∨ s.run = .running →
      step s = .next { s.writeIoReg r v with inputs := rest }) ∧
    (s.inputs = .env (.hostRead a) :: rest → s.run = .halted ∨ s.run = .running →
      step s = .next { s with inputs := rest }) ∧
    (s.inputs = .env (.hostRefresh k) :: rest → step s = .next { s with refreshInterval := k, inputs := rest })

/-- 60_exceptions.md R122 (log 17): only the host's writing 0 to HLT, or a reset, takes the GSP out of the halted state. -/
def Obligations.OnlyHostOrResetEndsTheHalt : Prop :=
  ∀ s t : State, s.run = .halted → step s = .next t → t.run ≠ .halted →
    ∃ rest, s.inputs = .env (.hostHstctl .hlt false) :: rest ∨ s.inputs = .env .resetAsserted :: rest

/-- 60_exceptions.md R122, 70_reset_and_hazards.md R141 (D17, U6, U14; log 17, 41): the two moves the source gives no meaning are
refused: writing 1 to HLT while the GSP runs, and a reset pulse that is too short. -/
def Obligations.UndescribedMovesRefused : Prop :=
  ∀ (s : State) (rest : List Turn),
    (s.run = .running → s.inputs = .env (.hostHstctl .hlt true) :: rest → step s = .refused .haltWhileRunning) ∧
    (s.inputs = .env .shortResetPulse :: rest → step s = .refused .shortResetPulse)

/-- 20_memory.md R51, 70_reset_and_hazards.md R149 (log 19, 47): a host access (a write or a read of memory, a load of an I/O
register) before the RAS-only cycles are over is held: it stays first in the list, the cycles end with memory unchanged, and
with RESET low the rise of RESET behind it comes. That it is held with RESET low, and that a load of an I/O register is
held, are the model's choices (log 47). -/
def Obligations.HostAccessHeldUntilRasCyclesEnd : Prop :=
  ∀ (s : State) (m : EnvMove) (rest : List Turn), s.run = .initialising ∨ s.run = .resetLow →
    ((∃ a v, m = .hostWrite a v) ∨ (∃ a, m = .hostRead a) ∨ ∃ r v, m = .hostIo r v) → s.inputs = .env m :: rest →
    (∀ t, step s = .next t → ∃ later, t.inputs = .env m :: later) ∧
    (rest = [] → s.run = .resetLow → step s = .next s) ∧
    (rest = [] → s.run = .initialising → s.quiet → s.params.pcLow4 = .forceZero →
      ∃ t, step s = .next t ∧ t.inputs = s.inputs ∧ t.mem = s.mem ∧ (t.run = .halted ∨ t.run = .running)) ∧
    (∀ hcsHigh draw later, s.run = .resetLow → rest = .env (.resetReleased hcsHigh draw) :: later →
      ∃ t, step s = .next t ∧ t.run = .initialising ∧ t.inputs = .env m :: later)

/-! ### The step -/

/-- 30_encoding.md R60, R66; 60_exceptions.md R104 (log 19, 24, 50): at a boundary of the running machine with nothing to take,
when the words at the PC decode to an instruction under the machine's encoding and none of them is stale, the step is the
meaning of that instruction on the state that notes the fetch and has used up the turn. For the five instructions that are
passed to `ExecOther` this is so where the parameter supplies that meaning and its list gives the word no other. -/
def Obligations.StepRunsTheDecodedInstruction : Prop :=
  ∀ (s : State) (i : Instr) (rest : List Turn), s.run = .running → s.machineIsNext rest → s.quiet → s.select = none →
    decodeWith s.params.enc (s.peek s.pc 16) (s.peek (s.pc + 16#32) 16) = .ok i → s.freshInstruction i →
    (passedOn i = true →
      s.params.supplies i = true ∧ ∀ m ∈ s.params.execOther, s.peek s.pc 16 &&& m.mask ≠ m.pattern) →
    step s = exec i (({ s with inputs := rest } : State).noteInstruction i)

/-- 30_encoding.md R63, R66; 40_trap_reti.md R76 (D11, D24; log 11, 23, 50): an opcode word that decodes to nothing is refused by
name where neither `IsIllegal` covers it nor `ExecOther` gives it a meaning, and raises the illegal-opcode interrupt where
`IsIllegal` covers it; the word of one of the five named instructions is refused by name where `ExecOther` neither supplies
it nor gives it a meaning. -/
def Obligations.UndefinedOpcodeRefused : Prop :=
  ∀ (s : State) (rest : List Turn), s.run = .running → s.machineIsNext rest → s.quiet →
    s.select = none → s.fetchIsStale s.pc = false →
    (∀ e, decodeWith s.params.enc (s.peek s.pc 16) 0 = .error e →
      ((∀ r ∈ s.params.moreIllegal, ¬ (r.1.toNat ≤ (s.peek s.pc 16).toNat ∧ (s.peek s.pc 16).toNat ≤ r.2.toNat)) →
        (∀ m ∈ s.params.execOther, s.peek s.pc 16 &&& m.mask ≠ m.pattern) →
        step s = .refused (.noMeaningGiven (s.peek s.pc 16))) ∧
      ((∃ r ∈ s.params.moreIllegal, r.1.toNat ≤ (s.peek s.pc 16).toNat ∧ (s.peek s.pc 16).toNat ≤ r.2.toNat) →
        step s = (({ s with inputs := rest } : State).noteFetch s.pc).takeIllop)) ∧
    (∀ i, decodeWith s.params.enc (s.peek s.pc 16) 0 = .ok i → passedOn i = true → s.params.supplies i = false →
      (∀ m ∈ s.params.execOther, s.peek s.pc 16 &&& m.mask ≠ m.pattern) →
      step s = .refused (.noMeaningGiven (s.peek s.pc 16)))

/-- 20_memory.md R55 (D25, U20; log 24): a word that the GSP or the host writes after the GSP has fetched it is stale, and a
running machine that comes to fetch a stale word, as an opcode word or as the extension word of `MMTM` or `MMFM`, is
refused. That of `MMTM` and `MMFM` is spoken of where `ExecOther` supplies them and gives the word no other meaning (log 50). -/
def Obligations.RewrittenCodeStopsTheFetch : Prop :=
  (∀ (s : State) (a : Long) (v : Word), ((s.noteFetch a).store a v).fetchIsStale a = true ∧
    ((s.noteFetch a).write a v).fetchIsStale a = true) ∧
  (∀ (s : State) (rest : List Turn), s.run = .running → s.machineIsNext rest → s.quiet → s.select = none →
    (s.fetchIsStale s.pc = true → step s = .refused (.staleFetch s.pc)) ∧
    (∀ i : Instr, s.fetchIsStale s.pc = false → decodeWith s.params.enc (s.peek s.pc 16) 0 = .ok i → i.words = 2 →
      s.params.supplies i = true → (∀ m ∈ s.params.execOther, s.peek s.pc 16 &&& m.mask ≠ m.pattern) →
      s.fetchIsStale (s.pc + 16#32) = true → step s = .refused (.staleFetch (s.pc + 16#32))))

/-- 60_exceptions.md R109, R112, R114; 40_trap_reti.md R71, R73, R84 (log 6, 9, 33, 39): a turn of the machine changes no pin, cache
register, parameter or turn to come; where `ExecOther` gives no meanings it keeps the refresh interval, and with the default
of `ClearOnTake` it changes no I/O register and of HSTCTL can only clear NMI. That the cache registers do not change is the
model's choice, since it does not operate the cache (log 33), and so is that a store changes no I/O register, since no
address reaches one (log 9). -/
def Obligations.MachineTurnKeepsIoRegisters : Prop :=
  ∀ s t : State, s.machineTurn = .next t →
    t.lint1Low = s.lint1Low ∧ t.lint2Low = s.lint2Low ∧ t.cache = s.cache ∧ t.nonvolatile = s.nonvolatile ∧
    t.inputs = s.inputs ∧ t.params = s.params ∧
    (s.params.execOther = [] → t.refreshInterval = s.refreshInterval ∧
      (s.params.clearOnTake = Params.standard.clearOnTake →
        (∀ r : IoReg, t.readIoReg r = s.readIoReg r) ∧ t.intpendHeld = s.intpendHeld ∧
        (t.hstctl = s.hstctl ∨ t.hstctl = { s.hstctl with nmi := false })))

/-- 00_scope.md R3, 20_memory.md R50 (log 27): no step changes a parameter or which part of memory is non-volatile. -/
def Obligations.ParametersNeverChange : Prop :=
  ∀ s t : State, step s = .next t → t.params = s.params ∧ t.nonvolatile = s.nonvolatile

/-- 20_memory.md R47 (D4; log 4): the two policies of `PcLow4`. Bits 3:0 are forced to 0, or a value whose bits 3:0 are not 0 is
refused and any other is loaded as it is; `TRAP 0` follows the policy. -/
def Obligations.PcLowBitsFollowThePolicy : Prop :=
  ∀ (s : State) (v : Long),
    (s.params.pcLow4 = .forceZero → s.loadPC v = .next { s with pc := v &&& 0xFFFFFFF0#32 }) ∧
    (s.params.pcLow4 = .refuse → v &&& 0xF#32 = 0#32 → s.loadPC v = .next { s with pc := v }) ∧
    (s.params.pcLow4 = .refuse → v &&& 0xF#32 ≠ 0#32 → s.loadPC v = .refused (.pcNotAtWord v)) ∧
    (s.params.pcLow4 = .refuse → s.quiet → s.peek 0xFFFFFFE0#32 32 = v →
      exec (.trap 0) s =
        if v &&& 0xF#32 = 0#32 then .next { s with st := 0x00000010#32, pc := v } else .refused (.pcNotAtWord v))

/-- The invariant of Safety.lean holds after reset: 20_memory.md R47, 60_exceptions.md R94, R99, R122, 10_state.md R27 (log 6, 17).
The PC clause rests on PC 0 in `State.reset` (log 36), the memory clause on empty memory (log 26), and the model's own
empty lists on log 24: these are the model's choices. -/
def Obligations.InvariantAtReset : Prop := State.reset.Inv

/-- 20_memory.md R40, R44, R47; 60_exceptions.md R94, R99, R122 (log 4, 6, 17, 24, 26): every step keeps the invariant: memory
stays canonical, the PC stays at a word boundary, HLT agrees with the run state, INTPEND's stored part leaves the requests
of the pins and of the host to their sources. The clause that the LRU stack stays 0, 1, 2, 3 is the model's choice, false of
the chip, whose stack orders the segments by use: the model does not operate the cache (log 33). -/
def Obligations.StepKeepsInvariant : Prop := ∀ s t : State, s.Inv → step s = .next t → t.Inv
end

