-- ==== Sys2Proof/Laws/Memory.lean ====
section
/-! SUPPORT. Memory: what a byte and a bit read after a write, that reads and writes of a field meet, and that every
operation keeps the canonical form. -/

namespace Sys2Proof.Machine

/-! ### Bytes -/

theorem byte_filter_ne (m : Memory) {k j : Nat} (h : j ≠ k) :
    Memory.byte (m.filter (fun c => c.1 ≠ k)) j = m.byte j := by
  induction m with
  | nil => rfl
  | cons c m ih =>
    by_cases hk : c.1 = k
    · simpa [hk, Memory.byte, Ne.symm h] using ih
    · simp only [ne_eq, decide_not, List.filter_cons, hk, decide_false, Bool.not_false, ite_true, Memory.byte] at *
      rw [ih]

theorem byte_filter_self (m : Memory) (k : Nat) :
    Memory.byte (m.filter (fun c => c.1 ≠ k)) k = unlistedByte := by
  induction m with
  | nil => rfl
  | cons c m ih => by_cases hk : c.1 = k <;> simp_all [Memory.byte]

theorem byte_insertCell_ne (m : Memory) {k j : Nat} (b : Byte) (h : j ≠ k) :
    (Memory.insertCell k b m).byte j = m.byte j := by
  induction m with
  | nil => simp [Memory.insertCell, Memory.byte, Ne.symm h]
  | cons c m ih =>
    unfold Memory.insertCell
    split
    · simp [Memory.byte, Ne.symm h]
    · simp [Memory.byte, ih]

theorem byte_insertCell_self (m : Memory) (k : Nat) (b : Byte) (h : ∀ c ∈ m, c.1 ≠ k) :
    (Memory.insertCell k b m).byte k = b := by
  induction m with
  | nil => simp [Memory.insertCell, Memory.byte]
  | cons c m ih =>
    unfold Memory.insertCell
    split
    · simp [Memory.byte]
    · simp only [Memory.byte, h c (by simp), if_false]
      exact ih (fun d hd => h d (by simp [hd]))

/-- Reading a byte after a write of one byte. -/
theorem byte_setByte (m : Memory) (k j : Nat) (b : Byte) :
    (m.setByte k b).byte j = if j = k then b else m.byte j := by
  unfold Memory.setByte
  by_cases h : j = k
  · subst h
    by_cases hb : b = unlistedByte
    · simpa [hb] using byte_filter_self m j
    · simp only [hb, if_false, if_true]
      exact byte_insertCell_self _ _ _ (fun c hc => by simpa using (List.mem_filter.mp hc).2)
  · by_cases hb : b = unlistedByte
    · simpa [hb, h] using byte_filter_ne m h
    · simp only [hb, h, if_false]
      rw [byte_insertCell_ne _ _ h, byte_filter_ne m h]

/-! ### Bits -/

theorem getLsbD_withBit (b : Byte) (v : Bool) {i j : Nat} (hi : i < 8) (hj : j < 8) :
    (withBit b i v).getLsbD j = if j = i then v else b.getLsbD j := by
  cases v
  · by_cases h : j = i
    · subst h; simp [withBit, hj]
    · rcases Nat.lt_or_ge j i with hlt | hge
      · simp [withBit, h, hj, hlt]
      · have : j - i ≠ 0 := by omega
        simp [withBit, h, hj, this]
  · by_cases h : j = i
    · subst h; simp [withBit, hj]
    · rcases Nat.lt_or_ge j i with hlt | hge
      · simp [withBit, h, hlt]
      · have : j - i ≠ 0 := by omega
        simp [withBit, h, hj, this]

/-- Reading a bit after a write of one bit. -/
theorem bit_setBit (m : Memory) (a b : Long) (v : Bool) :
    (m.setBit a v).bit b = if b = a then v else m.bit b := by
  unfold Memory.setBit Memory.bit
  rw [byte_setByte]
  by_cases h : b.toNat / 8 = a.toNat / 8
  · rw [if_pos h, getLsbD_withBit _ _ (Nat.mod_lt _ (by decide)) (Nat.mod_lt _ (by decide)), h]
    have : b.toNat % 8 = a.toNat % 8 ↔ b = a := by
      rw [← BitVec.toNat_inj]; omega
    simp [this]
  · rw [if_neg h]
    have : b ≠ a := fun e => h (by rw [e])
    simp [this]

theorem offset_eq (a b : Long) {n : Nat} (hn : n < 2 ^ 32) :
    b = a + BitVec.ofNat 32 n ↔ (b - a).toNat = n := by
  constructor
  · intro h; subst h; rw [add_sub_cancel_left, BitVec.toNat_ofNat, Nat.mod_eq_of_lt hn]
  · intro h
    have : b - a = BitVec.ofNat 32 n := by rw [← h, BitVec.ofNat_toNat, BitVec.setWidth_eq]
    rw [← this]; abel

theorem bit_writeLow (m : Memory) (a b : Long) {w : Nat} (v : BitVec w) {n : Nat} (hn : n ≤ 2 ^ 32) :
    (m.writeLow a v n).bit b = if (b - a).toNat < n then v.getLsbD (b - a).toNat else m.bit b := by
  induction n with
  | zero => simp [Memory.writeLow]
  | succ n ih =>
    rw [Memory.writeLow, bit_setBit, ih (by omega)]
    simp only [offset_eq a b (show n < 2 ^ 32 by omega)]
    by_cases h : (b - a).toNat = n
    · simp [h]
    · simp only [h, if_false]
      have : (b - a).toNat < n ↔ (b - a).toNat < n + 1 := by omega
      rw [if_congr this rfl rfl]

/-- Reading a bit after `MemWrite` (R44): the bit of the value inside the field, the old bit outside. -/
theorem bit_write (m : Memory) (a b : Long) {w : Nat} (v : BitVec w) (hw : w ≤ 2 ^ 32) :
    (m.write a v).bit b = if (b - a).toNat < w then v.getLsbD (b - a).toNat else m.bit b :=
  bit_writeLow m a b v hw

/-- Bit `i` of `MemRead` (R44). -/
theorem getLsbD_read (m : Memory) (a : Long) (n i : Nat) :
    (m.read a n).getLsbD i = (decide (i < n) && m.bit (a + BitVec.ofNat 32 i)) := by
  induction n with
  | zero => simp [Memory.read]
  | succ n ih =>
    rw [Memory.read, BitVec.getLsbD_cons, ih]
    by_cases h : i = n
    · simp [h]
    · have : i < n ↔ i < n + 1 := by omega
      simp [h, this]

/-- Two memories with the same bits in a field read the same there. -/
theorem read_congr (m m' : Memory) (a : Long) (n : Nat)
    (h : ∀ i < n, m'.bit (a + BitVec.ofNat 32 i) = m.bit (a + BitVec.ofNat 32 i)) : m'.read a n = m.read a n := by
  apply BitVec.eq_of_getLsbD_eq
  intro i hi
  rw [getLsbD_read, getLsbD_read, h i hi]

/-- A field reads as it was written. -/
theorem read_write_same (m : Memory) (a : Long) {w : Nat} (v : BitVec w) (hw : w ≤ 2 ^ 32) :
    (m.write a v).read a w = v := by
  apply BitVec.eq_of_getLsbD_eq
  intro i hi
  have hi' : i < 2 ^ 32 := by omega
  rw [getLsbD_read, bit_write _ _ _ _ hw, (offset_eq a _ hi').mp rfl]
  simp [hi]

/-- A write leaves a field alone that none of its bits touches. -/
theorem read_write_apart (m : Memory) (a b : Long) {w : Nat} (v : BitVec w) (n : Nat) (hw : w ≤ 2 ^ 32)
    (h : ∀ i < n, w ≤ (b + BitVec.ofNat 32 i - a).toNat) : (m.write a v).read b n = m.read b n :=
  read_congr _ _ _ _ (fun i hi => by rw [bit_write _ _ _ _ hw, if_neg (by have := h i hi; omega)])

/-! ### Reads and writes cycle by cycle -/

/-- A write goes on where its first cycles left off. -/
theorem writeSpan_writeLow (m : Memory) (a : Long) {w : Nat} (v : BitVec w) (lo len : Nat) :
    (m.writeLow a v lo).writeSpan a v lo len = m.writeLow a v (lo + len) := by
  induction len with
  | zero => rfl
  | succ len ih => rw [Memory.writeSpan, ih]; rfl

/-- A read that sees the same memory in every cycle is the read of that memory. -/
theorem readAcross_const (m : Memory) (a : Long) (n : Nat) : readAcross (fun _ => m) a n = m.read a n := by
  induction n with
  | zero => rfl
  | succ n ih => rw [readAcross, ih]; rfl

/-- After as many cycles as a field touches words, all of it is reached. -/
theorem bitsReached_all (a : Long) (w : Nat) : bitsReached a w (cycleCount a w) = w := by
  unfold bitsReached cycleCount
  omega

theorem bitsReached_mono (a : Long) (w k : Nat) : bitsReached a w k ≤ bitsReached a w (k + 1) := by
  unfold bitsReached
  omega

/-! ### The canonical form -/

theorem rising_mono {m : Memory} {x y : Nat} (h : y ≤ x) (hm : Memory.rising (some x) m) :
    Memory.rising (some y) m := by
  cases m with
  | nil => rfl
  | cons c m => simp only [Memory.rising, Option.all, Bool.and_eq_true, decide_eq_true_eq] at *; exact ⟨by omega, hm.2⟩

theorem rising_filter (p : Host.Cell → Bool) (m : Memory) (lo : Option Nat) (h : Memory.rising lo m) :
    Memory.rising lo (m.filter p) := by
  induction m generalizing lo with
  | nil => exact h
  | cons c m ih =>
    simp only [Memory.rising, Bool.and_eq_true] at h
    by_cases hp : p c
    · simp only [List.filter_cons, hp, if_true, Memory.rising, Bool.and_eq_true]
      exact ⟨h.1, ih _ h.2⟩
    · simp only [List.filter_cons, hp]
      refine ih _ ?_
      cases lo with
      | none =>
        cases m with
        | nil => rfl
        | cons d m => simpa [Memory.rising] using (show Memory.rising (some d.1) m from by
            have := h.2; simp only [Memory.rising, Bool.and_eq_true] at this; exact this.2)
      | some x =>
        simp only [Option.all, decide_eq_true_eq] at h
        exact rising_mono (Nat.le_of_lt h.1) h.2

theorem rising_insertCell (m : Memory) (k : Nat) (b : Byte) (lo : Option Nat) (hlo : lo.all (· < k))
    (h : Memory.rising lo m) (hne : ∀ c ∈ m, c.1 ≠ k) : Memory.rising lo (Memory.insertCell k b m) := by
  induction m generalizing lo with
  | nil => simpa [Memory.insertCell, Memory.rising] using hlo
  | cons c m ih =>
    unfold Memory.insertCell
    simp only [Memory.rising, Bool.and_eq_true] at h
    split
    · simp only [Memory.rising, Bool.and_eq_true]
      exact ⟨hlo, by simpa [Option.all] using ‹k < c.1›, h.2⟩
    · have : c.1 ≠ k := hne c (by simp)
      simp only [Memory.rising, Bool.and_eq_true]
      exact ⟨h.1, ih _ (by simp only [Option.all, decide_eq_true_eq]; omega) h.2 (fun d hd => hne d (by simp [hd]))⟩

theorem mem_insertCell {m : Memory} {k : Nat} {b : Byte} {c : Host.Cell} (h : c ∈ Memory.insertCell k b m) :
    c = (k, b) ∨ c ∈ m := by
  induction m with
  | nil => simpa [Memory.insertCell] using h
  | cons d m ih =>
    unfold Memory.insertCell at h
    split at h
    · simpa using h
    · rcases List.mem_cons.mp h with h | h
      · exact .inr (by simp [h])
      · rcases ih h with h | h
        · exact .inl h
        · exact .inr (by simp [h])

/-- Writing a byte of the address space keeps the canonical form. -/
theorem wf_setByte {m : Memory} (h : m.wf) {k : Nat} (hk : k < byteCount) (b : Byte) : (m.setByte k b).wf := by
  simp only [Memory.wf, Bool.and_eq_true, List.all_eq_true] at h ⊢
  have hr := rising_filter (fun c => c.1 ≠ k) m none h.1
  unfold Memory.setByte
  by_cases hb : b = unlistedByte
  · simp only [hb, if_true]
    exact ⟨hr, fun c hc => h.2 c (List.mem_filter.mp hc).1⟩
  · simp only [hb, if_false]
    refine ⟨rising_insertCell _ _ _ _ rfl hr (fun c hc => by simpa using (List.mem_filter.mp hc).2), fun c hc => ?_⟩
    rcases mem_insertCell hc with rfl | hc
    · simp [hb, hk]
    · exact h.2 c (List.mem_filter.mp hc).1

theorem wf_setBit {m : Memory} (h : m.wf) (a : Long) (v : Bool) : (m.setBit a v).wf :=
  wf_setByte h (by have := a.isLt; unfold byteCount; omega) _

/-- `MemWrite` keeps the canonical form. -/
theorem wf_write {m : Memory} (h : m.wf) (a : Long) {w : Nat} (v : BitVec w) : (m.write a v).wf := by
  suffices ∀ n, (m.writeLow a v n).wf from this w
  intro n
  induction n with
  | zero => exact h
  | succ n ih => exact wf_setBit ih _ _

theorem wf_writeSpan {m : Memory} (h : m.wf) (a : Long) {w : Nat} (v : BitVec w) (lo len : Nat) :
    (m.writeSpan a v lo len).wf := by
  induction len with
  | zero => exact h
  | succ len ih => exact wf_setBit ih _ _

theorem wf_filter {m : Memory} (h : m.wf) (p : Host.Cell → Bool) : Memory.wf (m.filter p) := by
  simp only [Memory.wf, Bool.and_eq_true, List.all_eq_true] at h ⊢
  exact ⟨rising_filter p m none h.1, fun c hc => h.2 c (List.mem_filter.mp hc).1⟩

/-- Memory after a reset is canonical, whatever the drawn contents (20_memory.md R50). -/
theorem wf_afterReset {old : Memory} (h : old.wf) (ranges : List (Nat × Nat)) (draw : Memory) :
    (Memory.afterReset ranges old draw).wf := by
  unfold Memory.afterReset
  generalize draw.reverse = cells
  have start := wf_filter h (fun c => inRanges ranges c.1)
  generalize old.filter (fun c => inRanges ranges c.1) = m at start
  induction cells generalizing m with
  | nil => exact start
  | cons c cells ih =>
    simp only [List.foldl_cons]
    refine ih _ ?_
    split
    · exact start
    · rename_i hc
      simp only [Bool.or_eq_true, decide_eq_true_eq, not_or, Nat.not_le] at hc
      exact wf_setByte start hc.2 _

theorem byte_filter_keys (p : Nat → Bool) (m : Memory) (k : Nat) :
    Memory.byte (m.filter (fun c => p c.1)) k = if p k then m.byte k else unlistedByte := by
  induction m with
  | nil => simp [Memory.byte]
  | cons c m ih =>
    by_cases hk : c.1 = k
    · subst hk
      by_cases hp : p c.1 <;> simp [hp, Memory.byte] at *
      exact ih
    · by_cases hp : p c.1 <;> simp [hp, hk, Memory.byte, ih]

/-- What a byte holds after a reset (20_memory.md R50): a non-volatile byte what it held, another what was drawn. -/
theorem byte_afterReset (ranges : List (Nat × Nat)) (old draw : Memory) {k : Nat} (hk : k < byteCount) :
    (Memory.afterReset ranges old draw).byte k = if inRanges ranges k then old.byte k else draw.byte k := by
  unfold Memory.afterReset
  rw [List.foldl_reverse]
  induction draw with
  | nil => simpa [Memory.byte, unlistedByte] using byte_filter_keys (inRanges ranges) old k
  | cons c draw ih =>
    simp only [List.foldr_cons]
    split
    · rename_i hc
      rw [ih]
      by_cases hr : inRanges ranges k
      · simp [hr]
      · have : c.1 ≠ k := by
          rintro rfl
          simp only [hr, Bool.false_or, decide_eq_true_eq] at hc
          omega
        simp [hr, Memory.byte, this]
    · rename_i hc
      rw [byte_setByte, ih]
      by_cases hck : k = c.1
      · subst hck
        simp only [Bool.or_eq_true, decide_eq_true_eq, not_or] at hc
        simp [hc.1, Memory.byte]
      · simp [hck, Memory.byte, Ne.symm hck]

end Sys2Proof.Machine
end

