-- ==== Sys2Proof/Laws/State.lean ====
section
/-! SUPPORT. What each named update of the state leaves in each field. -/

namespace Sys2Proof.Machine

/-! ### `setPC` -/

@[simp] theorem setPC_st (s : State) (v : Long) : (s.setPC v).st = s.st := rfl
@[simp] theorem setPC_sp (s : State) (v : Long) : (s.setPC v).sp = s.sp := rfl
@[simp] theorem setPC_fileA (s : State) (v : Long) : (s.setPC v).fileA = s.fileA := rfl
@[simp] theorem setPC_fileB (s : State) (v : Long) : (s.setPC v).fileB = s.fileB := rfl
@[simp] theorem setPC_intenb (s : State) (v : Long) : (s.setPC v).intenb = s.intenb := rfl
@[simp] theorem setPC_intpendHeld (s : State) (v : Long) : (s.setPC v).intpendHeld = s.intpendHeld := rfl
@[simp] theorem setPC_hstctl (s : State) (v : Long) : (s.setPC v).hstctl = s.hstctl := rfl
@[simp] theorem setPC_dpyint (s : State) (v : Long) : (s.setPC v).dpyint = s.dpyint := rfl
@[simp] theorem setPC_vcount (s : State) (v : Long) : (s.setPC v).vcount = s.vcount := rfl
@[simp] theorem setPC_otherIo (s : State) (v : Long) : (s.setPC v).otherIo = s.otherIo := rfl
@[simp] theorem setPC_lint1Low (s : State) (v : Long) : (s.setPC v).lint1Low = s.lint1Low := rfl
@[simp] theorem setPC_lint2Low (s : State) (v : Long) : (s.setPC v).lint2Low = s.lint2Low := rfl
@[simp] theorem setPC_cache (s : State) (v : Long) : (s.setPC v).cache = s.cache := rfl
@[simp] theorem setPC_run (s : State) (v : Long) : (s.setPC v).run = s.run := rfl
@[simp] theorem setPC_refreshInterval (s : State) (v : Long) : (s.setPC v).refreshInterval = s.refreshInterval := rfl
@[simp] theorem setPC_mem (s : State) (v : Long) : (s.setPC v).mem = s.mem := rfl
@[simp] theorem setPC_nonvolatile (s : State) (v : Long) : (s.setPC v).nonvolatile = s.nonvolatile := rfl
@[simp] theorem setPC_params (s : State) (v : Long) : (s.setPC v).params = s.params := rfl
@[simp] theorem setPC_fetchedSegs (s : State) (v : Long) : (s.setPC v).fetchedSegs = s.fetchedSegs := rfl
@[simp] theorem setPC_stale (s : State) (v : Long) : (s.setPC v).stale = s.stale := rfl
@[simp] theorem setPC_inputs (s : State) (v : Long) : (s.setPC v).inputs = s.inputs := rfl
@[simp] theorem setPC_bus (s : State) (v : Long) : (s.setPC v).bus = s.bus := rfl
@[simp] theorem setPC_pc (s : State) (v : Long) : (s.setPC v).pc = v := rfl

/-! ### `setSP` -/

@[simp] theorem setSP_pc (s : State) (v : Long) : (s.setSP v).pc = s.pc := rfl
@[simp] theorem setSP_st (s : State) (v : Long) : (s.setSP v).st = s.st := rfl
@[simp] theorem setSP_fileA (s : State) (v : Long) : (s.setSP v).fileA = s.fileA := rfl
@[simp] theorem setSP_fileB (s : State) (v : Long) : (s.setSP v).fileB = s.fileB := rfl
@[simp] theorem setSP_intenb (s : State) (v : Long) : (s.setSP v).intenb = s.intenb := rfl
@[simp] theorem setSP_intpendHeld (s : State) (v : Long) : (s.setSP v).intpendHeld = s.intpendHeld := rfl
@[simp] theorem setSP_hstctl (s : State) (v : Long) : (s.setSP v).hstctl = s.hstctl := rfl
@[simp] theorem setSP_dpyint (s : State) (v : Long) : (s.setSP v).dpyint = s.dpyint := rfl
@[simp] theorem setSP_vcount (s : State) (v : Long) : (s.setSP v).vcount = s.vcount := rfl
@[simp] theorem setSP_otherIo (s : State) (v : Long) : (s.setSP v).otherIo = s.otherIo := rfl
@[simp] theorem setSP_lint1Low (s : State) (v : Long) : (s.setSP v).lint1Low = s.lint1Low := rfl
@[simp] theorem setSP_lint2Low (s : State) (v : Long) : (s.setSP v).lint2Low = s.lint2Low := rfl
@[simp] theorem setSP_cache (s : State) (v : Long) : (s.setSP v).cache = s.cache := rfl
@[simp] theorem setSP_run (s : State) (v : Long) : (s.setSP v).run = s.run := rfl
@[simp] theorem setSP_refreshInterval (s : State) (v : Long) : (s.setSP v).refreshInterval = s.refreshInterval := rfl
@[simp] theorem setSP_mem (s : State) (v : Long) : (s.setSP v).mem = s.mem := rfl
@[simp] theorem setSP_nonvolatile (s : State) (v : Long) : (s.setSP v).nonvolatile = s.nonvolatile := rfl
@[simp] theorem setSP_params (s : State) (v : Long) : (s.setSP v).params = s.params := rfl
@[simp] theorem setSP_fetchedSegs (s : State) (v : Long) : (s.setSP v).fetchedSegs = s.fetchedSegs := rfl
@[simp] theorem setSP_stale (s : State) (v : Long) : (s.setSP v).stale = s.stale := rfl
@[simp] theorem setSP_inputs (s : State) (v : Long) : (s.setSP v).inputs = s.inputs := rfl
@[simp] theorem setSP_bus (s : State) (v : Long) : (s.setSP v).bus = s.bus := rfl
@[simp] theorem setSP_sp (s : State) (v : Long) : (s.setSP v).sp = v := rfl

/-! ### `setRun` -/

@[simp] theorem setRun_pc (s : State) (r : RunState) : (s.setRun r).pc = s.pc := rfl
@[simp] theorem setRun_st (s : State) (r : RunState) : (s.setRun r).st = s.st := rfl
@[simp] theorem setRun_sp (s : State) (r : RunState) : (s.setRun r).sp = s.sp := rfl
@[simp] theorem setRun_fileA (s : State) (r : RunState) : (s.setRun r).fileA = s.fileA := rfl
@[simp] theorem setRun_fileB (s : State) (r : RunState) : (s.setRun r).fileB = s.fileB := rfl
@[simp] theorem setRun_intenb (s : State) (r : RunState) : (s.setRun r).intenb = s.intenb := rfl
@[simp] theorem setRun_intpendHeld (s : State) (r : RunState) : (s.setRun r).intpendHeld = s.intpendHeld := rfl
@[simp] theorem setRun_hstctl (s : State) (r : RunState) : (s.setRun r).hstctl = s.hstctl := rfl
@[simp] theorem setRun_dpyint (s : State) (r : RunState) : (s.setRun r).dpyint = s.dpyint := rfl
@[simp] theorem setRun_vcount (s : State) (r : RunState) : (s.setRun r).vcount = s.vcount := rfl
@[simp] theorem setRun_otherIo (s : State) (r : RunState) : (s.setRun r).otherIo = s.otherIo := rfl
@[simp] theorem setRun_lint1Low (s : State) (r : RunState) : (s.setRun r).lint1Low = s.lint1Low := rfl
@[simp] theorem setRun_lint2Low (s : State) (r : RunState) : (s.setRun r).lint2Low = s.lint2Low := rfl
@[simp] theorem setRun_cache (s : State) (r : RunState) : (s.setRun r).cache = s.cache := rfl
@[simp] theorem setRun_refreshInterval (s : State) (r : RunState) : (s.setRun r).refreshInterval = s.refreshInterval := rfl
@[simp] theorem setRun_mem (s : State) (r : RunState) : (s.setRun r).mem = s.mem := rfl
@[simp] theorem setRun_nonvolatile (s : State) (r : RunState) : (s.setRun r).nonvolatile = s.nonvolatile := rfl
@[simp] theorem setRun_params (s : State) (r : RunState) : (s.setRun r).params = s.params := rfl
@[simp] theorem setRun_fetchedSegs (s : State) (r : RunState) : (s.setRun r).fetchedSegs = s.fetchedSegs := rfl
@[simp] theorem setRun_stale (s : State) (r : RunState) : (s.setRun r).stale = s.stale := rfl
@[simp] theorem setRun_inputs (s : State) (r : RunState) : (s.setRun r).inputs = s.inputs := rfl
@[simp] theorem setRun_bus (s : State) (r : RunState) : (s.setRun r).bus = s.bus := rfl
@[simp] theorem setRun_run (s : State) (r : RunState) : (s.setRun r).run = r := rfl

/-! ### `setMem` -/

@[simp] theorem setMem_pc (s : State) (m : Memory) : (s.setMem m).pc = s.pc := rfl
@[simp] theorem setMem_st (s : State) (m : Memory) : (s.setMem m).st = s.st := rfl
@[simp] theorem setMem_sp (s : State) (m : Memory) : (s.setMem m).sp = s.sp := rfl
@[simp] theorem setMem_fileA (s : State) (m : Memory) : (s.setMem m).fileA = s.fileA := rfl
@[simp] theorem setMem_fileB (s : State) (m : Memory) : (s.setMem m).fileB = s.fileB := rfl
@[simp] theorem setMem_intenb (s : State) (m : Memory) : (s.setMem m).intenb = s.intenb := rfl
@[simp] theorem setMem_intpendHeld (s : State) (m : Memory) : (s.setMem m).intpendHeld = s.intpendHeld := rfl
@[simp] theorem setMem_hstctl (s : State) (m : Memory) : (s.setMem m).hstctl = s.hstctl := rfl
@[simp] theorem setMem_dpyint (s : State) (m : Memory) : (s.setMem m).dpyint = s.dpyint := rfl
@[simp] theorem setMem_vcount (s : State) (m : Memory) : (s.setMem m).vcount = s.vcount := rfl
@[simp] theorem setMem_otherIo (s : State) (m : Memory) : (s.setMem m).otherIo = s.otherIo := rfl
@[simp] theorem setMem_lint1Low (s : State) (m : Memory) : (s.setMem m).lint1Low = s.lint1Low := rfl
@[simp] theorem setMem_lint2Low (s : State) (m : Memory) : (s.setMem m).lint2Low = s.lint2Low := rfl
@[simp] theorem setMem_cache (s : State) (m : Memory) : (s.setMem m).cache = s.cache := rfl
@[simp] theorem setMem_run (s : State) (m : Memory) : (s.setMem m).run = s.run := rfl
@[simp] theorem setMem_refreshInterval (s : State) (m : Memory) : (s.setMem m).refreshInterval = s.refreshInterval := rfl
@[simp] theorem setMem_nonvolatile (s : State) (m : Memory) : (s.setMem m).nonvolatile = s.nonvolatile := rfl
@[simp] theorem setMem_params (s : State) (m : Memory) : (s.setMem m).params = s.params := rfl
@[simp] theorem setMem_fetchedSegs (s : State) (m : Memory) : (s.setMem m).fetchedSegs = s.fetchedSegs := rfl
@[simp] theorem setMem_stale (s : State) (m : Memory) : (s.setMem m).stale = s.stale := rfl
@[simp] theorem setMem_inputs (s : State) (m : Memory) : (s.setMem m).inputs = s.inputs := rfl
@[simp] theorem setMem_bus (s : State) (m : Memory) : (s.setMem m).bus = s.bus := rfl
@[simp] theorem setMem_mem (s : State) (m : Memory) : (s.setMem m).mem = m := rfl

/-! ### `setInputs` -/

@[simp] theorem setInputs_pc (s : State) (ts : List Turn) : (s.setInputs ts).pc = s.pc := rfl
@[simp] theorem setInputs_st (s : State) (ts : List Turn) : (s.setInputs ts).st = s.st := rfl
@[simp] theorem setInputs_sp (s : State) (ts : List Turn) : (s.setInputs ts).sp = s.sp := rfl
@[simp] theorem setInputs_fileA (s : State) (ts : List Turn) : (s.setInputs ts).fileA = s.fileA := rfl
@[simp] theorem setInputs_fileB (s : State) (ts : List Turn) : (s.setInputs ts).fileB = s.fileB := rfl
@[simp] theorem setInputs_intenb (s : State) (ts : List Turn) : (s.setInputs ts).intenb = s.intenb := rfl
@[simp] theorem setInputs_intpendHeld (s : State) (ts : List Turn) : (s.setInputs ts).intpendHeld = s.intpendHeld := rfl
@[simp] theorem setInputs_hstctl (s : State) (ts : List Turn) : (s.setInputs ts).hstctl = s.hstctl := rfl
@[simp] theorem setInputs_dpyint (s : State) (ts : List Turn) : (s.setInputs ts).dpyint = s.dpyint := rfl
@[simp] theorem setInputs_vcount (s : State) (ts : List Turn) : (s.setInputs ts).vcount = s.vcount := rfl
@[simp] theorem setInputs_otherIo (s : State) (ts : List Turn) : (s.setInputs ts).otherIo = s.otherIo := rfl
@[simp] theorem setInputs_lint1Low (s : State) (ts : List Turn) : (s.setInputs ts).lint1Low = s.lint1Low := rfl
@[simp] theorem setInputs_lint2Low (s : State) (ts : List Turn) : (s.setInputs ts).lint2Low = s.lint2Low := rfl
@[simp] theorem setInputs_cache (s : State) (ts : List Turn) : (s.setInputs ts).cache = s.cache := rfl
@[simp] theorem setInputs_run (s : State) (ts : List Turn) : (s.setInputs ts).run = s.run := rfl
@[simp] theorem setInputs_refreshInterval (s : State) (ts : List Turn) : (s.setInputs ts).refreshInterval = s.refreshInterval := rfl
@[simp] theorem setInputs_mem (s : State) (ts : List Turn) : (s.setInputs ts).mem = s.mem := rfl
@[simp] theorem setInputs_nonvolatile (s : State) (ts : List Turn) : (s.setInputs ts).nonvolatile = s.nonvolatile := rfl
@[simp] theorem setInputs_params (s : State) (ts : List Turn) : (s.setInputs ts).params = s.params := rfl
@[simp] theorem setInputs_fetchedSegs (s : State) (ts : List Turn) : (s.setInputs ts).fetchedSegs = s.fetchedSegs := rfl
@[simp] theorem setInputs_stale (s : State) (ts : List Turn) : (s.setInputs ts).stale = s.stale := rfl
@[simp] theorem setInputs_bus (s : State) (ts : List Turn) : (s.setInputs ts).bus = s.bus := rfl
@[simp] theorem setInputs_inputs (s : State) (ts : List Turn) : (s.setInputs ts).inputs = ts := rfl

/-! ### `setBus` -/

@[simp] theorem setBus_pc (s : State) (es : List BusEvent) : (s.setBus es).pc = s.pc := rfl
@[simp] theorem setBus_st (s : State) (es : List BusEvent) : (s.setBus es).st = s.st := rfl
@[simp] theorem setBus_sp (s : State) (es : List BusEvent) : (s.setBus es).sp = s.sp := rfl
@[simp] theorem setBus_fileA (s : State) (es : List BusEvent) : (s.setBus es).fileA = s.fileA := rfl
@[simp] theorem setBus_fileB (s : State) (es : List BusEvent) : (s.setBus es).fileB = s.fileB := rfl
@[simp] theorem setBus_intenb (s : State) (es : List BusEvent) : (s.setBus es).intenb = s.intenb := rfl
@[simp] theorem setBus_intpendHeld (s : State) (es : List BusEvent) : (s.setBus es).intpendHeld = s.intpendHeld := rfl
@[simp] theorem setBus_hstctl (s : State) (es : List BusEvent) : (s.setBus es).hstctl = s.hstctl := rfl
@[simp] theorem setBus_dpyint (s : State) (es : List BusEvent) : (s.setBus es).dpyint = s.dpyint := rfl
@[simp] theorem setBus_vcount (s : State) (es : List BusEvent) : (s.setBus es).vcount = s.vcount := rfl
@[simp] theorem setBus_otherIo (s : State) (es : List BusEvent) : (s.setBus es).otherIo = s.otherIo := rfl
@[simp] theorem setBus_lint1Low (s : State) (es : List BusEvent) : (s.setBus es).lint1Low = s.lint1Low := rfl
@[simp] theorem setBus_lint2Low (s : State) (es : List BusEvent) : (s.setBus es).lint2Low = s.lint2Low := rfl
@[simp] theorem setBus_cache (s : State) (es : List BusEvent) : (s.setBus es).cache = s.cache := rfl
@[simp] theorem setBus_run (s : State) (es : List BusEvent) : (s.setBus es).run = s.run := rfl
@[simp] theorem setBus_refreshInterval (s : State) (es : List BusEvent) : (s.setBus es).refreshInterval = s.refreshInterval := rfl
@[simp] theorem setBus_mem (s : State) (es : List BusEvent) : (s.setBus es).mem = s.mem := rfl
@[simp] theorem setBus_nonvolatile (s : State) (es : List BusEvent) : (s.setBus es).nonvolatile = s.nonvolatile := rfl
@[simp] theorem setBus_params (s : State) (es : List BusEvent) : (s.setBus es).params = s.params := rfl
@[simp] theorem setBus_fetchedSegs (s : State) (es : List BusEvent) : (s.setBus es).fetchedSegs = s.fetchedSegs := rfl
@[simp] theorem setBus_stale (s : State) (es : List BusEvent) : (s.setBus es).stale = s.stale := rfl
@[simp] theorem setBus_inputs (s : State) (es : List BusEvent) : (s.setBus es).inputs = s.inputs := rfl
@[simp] theorem setBus_bus (s : State) (es : List BusEvent) : (s.setBus es).bus = es := rfl

/-! ### `writeST` -/

@[simp] theorem writeST_pc (s : State) (v : Long) : (s.writeST v).pc = s.pc := rfl
@[simp] theorem writeST_sp (s : State) (v : Long) : (s.writeST v).sp = s.sp := rfl
@[simp] theorem writeST_fileA (s : State) (v : Long) : (s.writeST v).fileA = s.fileA := rfl
@[simp] theorem writeST_fileB (s : State) (v : Long) : (s.writeST v).fileB = s.fileB := rfl
@[simp] theorem writeST_intenb (s : State) (v : Long) : (s.writeST v).intenb = s.intenb := rfl
@[simp] theorem writeST_intpendHeld (s : State) (v : Long) : (s.writeST v).intpendHeld = s.intpendHeld := rfl
@[simp] theorem writeST_hstctl (s : State) (v : Long) : (s.writeST v).hstctl = s.hstctl := rfl
@[simp] theorem writeST_dpyint (s : State) (v : Long) : (s.writeST v).dpyint = s.dpyint := rfl
@[simp] theorem writeST_vcount (s : State) (v : Long) : (s.writeST v).vcount = s.vcount := rfl
@[simp] theorem writeST_otherIo (s : State) (v : Long) : (s.writeST v).otherIo = s.otherIo := rfl
@[simp] theorem writeST_lint1Low (s : State) (v : Long) : (s.writeST v).lint1Low = s.lint1Low := rfl
@[simp] theorem writeST_lint2Low (s : State) (v : Long) : (s.writeST v).lint2Low = s.lint2Low := rfl
@[simp] theorem writeST_cache (s : State) (v : Long) : (s.writeST v).cache = s.cache := rfl
@[simp] theorem writeST_run (s : State) (v : Long) : (s.writeST v).run = s.run := rfl
@[simp] theorem writeST_refreshInterval (s : State) (v : Long) : (s.writeST v).refreshInterval = s.refreshInterval := rfl
@[simp] theorem writeST_mem (s : State) (v : Long) : (s.writeST v).mem = s.mem := rfl
@[simp] theorem writeST_nonvolatile (s : State) (v : Long) : (s.writeST v).nonvolatile = s.nonvolatile := rfl
@[simp] theorem writeST_params (s : State) (v : Long) : (s.writeST v).params = s.params := rfl
@[simp] theorem writeST_fetchedSegs (s : State) (v : Long) : (s.writeST v).fetchedSegs = s.fetchedSegs := rfl
@[simp] theorem writeST_stale (s : State) (v : Long) : (s.writeST v).stale = s.stale := rfl
@[simp] theorem writeST_inputs (s : State) (v : Long) : (s.writeST v).inputs = s.inputs := rfl
@[simp] theorem writeST_bus (s : State) (v : Long) : (s.writeST v).bus = s.bus := rfl
@[simp] theorem writeST_st (s : State) (v : Long) : (s.writeST v).st = v := rfl

/-! ### `markStale` -/

@[simp] theorem markStale_pc (s : State) (ws : List Nat) : (s.markStale ws).pc = s.pc := rfl
@[simp] theorem markStale_st (s : State) (ws : List Nat) : (s.markStale ws).st = s.st := rfl
@[simp] theorem markStale_sp (s : State) (ws : List Nat) : (s.markStale ws).sp = s.sp := rfl
@[simp] theorem markStale_fileA (s : State) (ws : List Nat) : (s.markStale ws).fileA = s.fileA := rfl
@[simp] theorem markStale_fileB (s : State) (ws : List Nat) : (s.markStale ws).fileB = s.fileB := rfl
@[simp] theorem markStale_intenb (s : State) (ws : List Nat) : (s.markStale ws).intenb = s.intenb := rfl
@[simp] theorem markStale_intpendHeld (s : State) (ws : List Nat) : (s.markStale ws).intpendHeld = s.intpendHeld := rfl
@[simp] theorem markStale_hstctl (s : State) (ws : List Nat) : (s.markStale ws).hstctl = s.hstctl := rfl
@[simp] theorem markStale_dpyint (s : State) (ws : List Nat) : (s.markStale ws).dpyint = s.dpyint := rfl
@[simp] theorem markStale_vcount (s : State) (ws : List Nat) : (s.markStale ws).vcount = s.vcount := rfl
@[simp] theorem markStale_otherIo (s : State) (ws : List Nat) : (s.markStale ws).otherIo = s.otherIo := rfl
@[simp] theorem markStale_lint1Low (s : State) (ws : List Nat) : (s.markStale ws).lint1Low = s.lint1Low := rfl
@[simp] theorem markStale_lint2Low (s : State) (ws : List Nat) : (s.markStale ws).lint2Low = s.lint2Low := rfl
@[simp] theorem markStale_cache (s : State) (ws : List Nat) : (s.markStale ws).cache = s.cache := rfl
@[simp] theorem markStale_run (s : State) (ws : List Nat) : (s.markStale ws).run = s.run := rfl
@[simp] theorem markStale_refreshInterval (s : State) (ws : List Nat) : (s.markStale ws).refreshInterval = s.refreshInterval := rfl
@[simp] theorem markStale_mem (s : State) (ws : List Nat) : (s.markStale ws).mem = s.mem := rfl
@[simp] theorem markStale_nonvolatile (s : State) (ws : List Nat) : (s.markStale ws).nonvolatile = s.nonvolatile := rfl
@[simp] theorem markStale_params (s : State) (ws : List Nat) : (s.markStale ws).params = s.params := rfl
@[simp] theorem markStale_fetchedSegs (s : State) (ws : List Nat) : (s.markStale ws).fetchedSegs = s.fetchedSegs := rfl
@[simp] theorem markStale_inputs (s : State) (ws : List Nat) : (s.markStale ws).inputs = s.inputs := rfl
@[simp] theorem markStale_bus (s : State) (ws : List Nat) : (s.markStale ws).bus = s.bus := rfl

/-! ### `noteFetch` -/

@[simp] theorem noteFetch_pc (s : State) (a : Long) : (s.noteFetch a).pc = s.pc := rfl
@[simp] theorem noteFetch_st (s : State) (a : Long) : (s.noteFetch a).st = s.st := rfl
@[simp] theorem noteFetch_sp (s : State) (a : Long) : (s.noteFetch a).sp = s.sp := rfl
@[simp] theorem noteFetch_fileA (s : State) (a : Long) : (s.noteFetch a).fileA = s.fileA := rfl
@[simp] theorem noteFetch_fileB (s : State) (a : Long) : (s.noteFetch a).fileB = s.fileB := rfl
@[simp] theorem noteFetch_intenb (s : State) (a : Long) : (s.noteFetch a).intenb = s.intenb := rfl
@[simp] theorem noteFetch_intpendHeld (s : State) (a : Long) : (s.noteFetch a).intpendHeld = s.intpendHeld := rfl
@[simp] theorem noteFetch_hstctl (s : State) (a : Long) : (s.noteFetch a).hstctl = s.hstctl := rfl
@[simp] theorem noteFetch_dpyint (s : State) (a : Long) : (s.noteFetch a).dpyint = s.dpyint := rfl
@[simp] theorem noteFetch_vcount (s : State) (a : Long) : (s.noteFetch a).vcount = s.vcount := rfl
@[simp] theorem noteFetch_otherIo (s : State) (a : Long) : (s.noteFetch a).otherIo = s.otherIo := rfl
@[simp] theorem noteFetch_lint1Low (s : State) (a : Long) : (s.noteFetch a).lint1Low = s.lint1Low := rfl
@[simp] theorem noteFetch_lint2Low (s : State) (a : Long) : (s.noteFetch a).lint2Low = s.lint2Low := rfl
@[simp] theorem noteFetch_cache (s : State) (a : Long) : (s.noteFetch a).cache = s.cache := rfl
@[simp] theorem noteFetch_run (s : State) (a : Long) : (s.noteFetch a).run = s.run := rfl
@[simp] theorem noteFetch_refreshInterval (s : State) (a : Long) : (s.noteFetch a).refreshInterval = s.refreshInterval := rfl
@[simp] theorem noteFetch_mem (s : State) (a : Long) : (s.noteFetch a).mem = s.mem := rfl
@[simp] theorem noteFetch_nonvolatile (s : State) (a : Long) : (s.noteFetch a).nonvolatile = s.nonvolatile := rfl
@[simp] theorem noteFetch_params (s : State) (a : Long) : (s.noteFetch a).params = s.params := rfl
@[simp] theorem noteFetch_stale (s : State) (a : Long) : (s.noteFetch a).stale = s.stale := rfl
@[simp] theorem noteFetch_inputs (s : State) (a : Long) : (s.noteFetch a).inputs = s.inputs := rfl
@[simp] theorem noteFetch_bus (s : State) (a : Long) : (s.noteFetch a).bus = s.bus := rfl

/-! ### `store` -/

@[simp] theorem store_pc (s : State) (a : Long) {w : Nat} (v : BitVec w) : (s.store a v).pc = s.pc := rfl
@[simp] theorem store_st (s : State) (a : Long) {w : Nat} (v : BitVec w) : (s.store a v).st = s.st := rfl
@[simp] theorem store_sp (s : State) (a : Long) {w : Nat} (v : BitVec w) : (s.store a v).sp = s.sp := rfl
@[simp] theorem store_fileA (s : State) (a : Long) {w : Nat} (v : BitVec w) : (s.store a v).fileA = s.fileA := rfl
@[simp] theorem store_fileB (s : State) (a : Long) {w : Nat} (v : BitVec w) : (s.store a v).fileB = s.fileB := rfl
@[simp] theorem store_intenb (s : State) (a : Long) {w : Nat} (v : BitVec w) : (s.store a v).intenb = s.intenb := rfl
@[simp] theorem store_intpendHeld (s : State) (a : Long) {w : Nat} (v : BitVec w) : (s.store a v).intpendHeld = s.intpendHeld := rfl
@[simp] theorem store_hstctl (s : State) (a : Long) {w : Nat} (v : BitVec w) : (s.store a v).hstctl = s.hstctl := rfl
@[simp] theorem store_dpyint (s : State) (a : Long) {w : Nat} (v : BitVec w) : (s.store a v).dpyint = s.dpyint := rfl
@[simp] theorem store_vcount (s : State) (a : Long) {w : Nat} (v : BitVec w) : (s.store a v).vcount = s.vcount := rfl
@[simp] theorem store_otherIo (s : State) (a : Long) {w : Nat} (v : BitVec w) : (s.store a v).otherIo = s.otherIo := rfl
@[simp] theorem store_lint1Low (s : State) (a : Long) {w : Nat} (v : BitVec w) : (s.store a v).lint1Low = s.lint1Low := rfl
@[simp] theorem store_lint2Low (s : State) (a : Long) {w : Nat} (v : BitVec w) : (s.store a v).lint2Low = s.lint2Low := rfl
@[simp] theorem store_cache (s : State) (a : Long) {w : Nat} (v : BitVec w) : (s.store a v).cache = s.cache := rfl
@[simp] theorem store_run (s : State) (a : Long) {w : Nat} (v : BitVec w) : (s.store a v).run = s.run := rfl
@[simp] theorem store_refreshInterval (s : State) (a : Long) {w : Nat} (v : BitVec w) : (s.store a v).refreshInterval = s.refreshInterval := rfl
@[simp] theorem store_nonvolatile (s : State) (a : Long) {w : Nat} (v : BitVec w) : (s.store a v).nonvolatile = s.nonvolatile := rfl
@[simp] theorem store_params (s : State) (a : Long) {w : Nat} (v : BitVec w) : (s.store a v).params = s.params := rfl
@[simp] theorem store_fetchedSegs (s : State) (a : Long) {w : Nat} (v : BitVec w) : (s.store a v).fetchedSegs = s.fetchedSegs := rfl
@[simp] theorem store_inputs (s : State) (a : Long) {w : Nat} (v : BitVec w) : (s.store a v).inputs = s.inputs := rfl
@[simp] theorem store_bus (s : State) (a : Long) {w : Nat} (v : BitVec w) : (s.store a v).bus = s.bus := rfl
@[simp] theorem store_mem (s : State) (a : Long) {w : Nat} (v : BitVec w) : (s.store a v).mem = s.mem.write a (s.params.bitOrder.arrange v) := rfl

/-! ### `advance` -/

@[simp] theorem advance_st (s : State) (k : Nat) : (s.advance k).st = s.st := rfl
@[simp] theorem advance_sp (s : State) (k : Nat) : (s.advance k).sp = s.sp := rfl
@[simp] theorem advance_fileA (s : State) (k : Nat) : (s.advance k).fileA = s.fileA := rfl
@[simp] theorem advance_fileB (s : State) (k : Nat) : (s.advance k).fileB = s.fileB := rfl
@[simp] theorem advance_intenb (s : State) (k : Nat) : (s.advance k).intenb = s.intenb := rfl
@[simp] theorem advance_intpendHeld (s : State) (k : Nat) : (s.advance k).intpendHeld = s.intpendHeld := rfl
@[simp] theorem advance_hstctl (s : State) (k : Nat) : (s.advance k).hstctl = s.hstctl := rfl
@[simp] theorem advance_dpyint (s : State) (k : Nat) : (s.advance k).dpyint = s.dpyint := rfl
@[simp] theorem advance_vcount (s : State) (k : Nat) : (s.advance k).vcount = s.vcount := rfl
@[simp] theorem advance_otherIo (s : State) (k : Nat) : (s.advance k).otherIo = s.otherIo := rfl
@[simp] theorem advance_lint1Low (s : State) (k : Nat) : (s.advance k).lint1Low = s.lint1Low := rfl
@[simp] theorem advance_lint2Low (s : State) (k : Nat) : (s.advance k).lint2Low = s.lint2Low := rfl
@[simp] theorem advance_cache (s : State) (k : Nat) : (s.advance k).cache = s.cache := rfl
@[simp] theorem advance_run (s : State) (k : Nat) : (s.advance k).run = s.run := rfl
@[simp] theorem advance_refreshInterval (s : State) (k : Nat) : (s.advance k).refreshInterval = s.refreshInterval := rfl
@[simp] theorem advance_mem (s : State) (k : Nat) : (s.advance k).mem = s.mem := rfl
@[simp] theorem advance_nonvolatile (s : State) (k : Nat) : (s.advance k).nonvolatile = s.nonvolatile := rfl
@[simp] theorem advance_params (s : State) (k : Nat) : (s.advance k).params = s.params := rfl
@[simp] theorem advance_fetchedSegs (s : State) (k : Nat) : (s.advance k).fetchedSegs = s.fetchedSegs := rfl
@[simp] theorem advance_stale (s : State) (k : Nat) : (s.advance k).stale = s.stale := rfl
@[simp] theorem advance_inputs (s : State) (k : Nat) : (s.advance k).inputs = s.inputs := rfl
@[simp] theorem advance_bus (s : State) (k : Nat) : (s.advance k).bus = s.bus := rfl
@[simp] theorem advance_pc (s : State) (k : Nat) : (s.advance k).pc = s.pcNext k := rfl

/-! ### `cutShort` -/

@[simp] theorem cutShort_pc (s : State) (t : State) : (s.cutShort t).pc = s.pc := rfl
@[simp] theorem cutShort_st (s : State) (t : State) : (s.cutShort t).st = s.st := rfl
@[simp] theorem cutShort_sp (s : State) (t : State) : (s.cutShort t).sp = s.sp := rfl
@[simp] theorem cutShort_fileA (s : State) (t : State) : (s.cutShort t).fileA = s.fileA := rfl
@[simp] theorem cutShort_fileB (s : State) (t : State) : (s.cutShort t).fileB = s.fileB := rfl
@[simp] theorem cutShort_intenb (s : State) (t : State) : (s.cutShort t).intenb = s.intenb := rfl
@[simp] theorem cutShort_intpendHeld (s : State) (t : State) : (s.cutShort t).intpendHeld = s.intpendHeld := rfl
@[simp] theorem cutShort_hstctl (s : State) (t : State) : (s.cutShort t).hstctl = s.hstctl := rfl
@[simp] theorem cutShort_dpyint (s : State) (t : State) : (s.cutShort t).dpyint = s.dpyint := rfl
@[simp] theorem cutShort_vcount (s : State) (t : State) : (s.cutShort t).vcount = s.vcount := rfl
@[simp] theorem cutShort_otherIo (s : State) (t : State) : (s.cutShort t).otherIo = s.otherIo := rfl
@[simp] theorem cutShort_lint1Low (s : State) (t : State) : (s.cutShort t).lint1Low = s.lint1Low := rfl
@[simp] theorem cutShort_lint2Low (s : State) (t : State) : (s.cutShort t).lint2Low = s.lint2Low := rfl
@[simp] theorem cutShort_cache (s : State) (t : State) : (s.cutShort t).cache = s.cache := rfl
@[simp] theorem cutShort_refreshInterval (s : State) (t : State) : (s.cutShort t).refreshInterval = s.refreshInterval := rfl
@[simp] theorem cutShort_nonvolatile (s : State) (t : State) : (s.cutShort t).nonvolatile = s.nonvolatile := rfl
@[simp] theorem cutShort_params (s : State) (t : State) : (s.cutShort t).params = s.params := rfl
@[simp] theorem cutShort_fetchedSegs (s : State) (t : State) : (s.cutShort t).fetchedSegs = s.fetchedSegs := rfl
@[simp] theorem cutShort_inputs (s : State) (t : State) : (s.cutShort t).inputs = s.inputs := rfl
@[simp] theorem cutShort_run (s : State) (t : State) : (s.cutShort t).run = .resetLow := rfl
@[simp] theorem cutShort_mem (s : State) (t : State) : (s.cutShort t).mem = t.mem := rfl
@[simp] theorem cutShort_stale (s : State) (t : State) : (s.cutShort t).stale = t.stale := rfl
@[simp] theorem cutShort_bus (s : State) (t : State) : (s.cutShort t).bus = t.bus.tail := rfl

/-! ### The bus: only memory, the note of changed words and the list of events change -/

/-- `t` is `s` but for memory, the note of changed words and the list of bus events. -/
structure SameCore (s t : State) : Prop where
  pc : t.pc = s.pc
  st : t.st = s.st
  sp : t.sp = s.sp
  fileA : t.fileA = s.fileA
  fileB : t.fileB = s.fileB
  intenb : t.intenb = s.intenb
  intpendHeld : t.intpendHeld = s.intpendHeld
  hstctl : t.hstctl = s.hstctl
  dpyint : t.dpyint = s.dpyint
  vcount : t.vcount = s.vcount
  otherIo : t.otherIo = s.otherIo
  lint1Low : t.lint1Low = s.lint1Low
  lint2Low : t.lint2Low = s.lint2Low
  cache : t.cache = s.cache
  run : t.run = s.run
  refreshInterval : t.refreshInterval = s.refreshInterval
  nonvolatile : t.nonvolatile = s.nonvolatile
  params : t.params = s.params
  fetchedSegs : t.fetchedSegs = s.fetchedSegs
  inputs : t.inputs = s.inputs

theorem SameCore.refl (s : State) : SameCore s s := by
  constructor <;> rfl

theorem SameCore.trans {s t u : State} (h : SameCore s t) (k : SameCore t u) : SameCore s u where
  pc := k.pc.trans h.pc
  st := k.st.trans h.st
  sp := k.sp.trans h.sp
  fileA := k.fileA.trans h.fileA
  fileB := k.fileB.trans h.fileB
  intenb := k.intenb.trans h.intenb
  intpendHeld := k.intpendHeld.trans h.intpendHeld
  hstctl := k.hstctl.trans h.hstctl
  dpyint := k.dpyint.trans h.dpyint
  vcount := k.vcount.trans h.vcount
  otherIo := k.otherIo.trans h.otherIo
  lint1Low := k.lint1Low.trans h.lint1Low
  lint2Low := k.lint2Low.trans h.lint2Low
  cache := k.cache.trans h.cache
  run := k.run.trans h.run
  refreshInterval := k.refreshInterval.trans h.refreshInterval
  nonvolatile := k.nonvolatile.trans h.nonvolatile
  params := k.params.trans h.params
  fetchedSegs := k.fetchedSegs.trans h.fetchedSegs
  inputs := k.inputs.trans h.inputs

theorem SameCore.eq {s t : State} (h : SameCore s t) : t = { s with mem := t.mem, stale := t.stale, bus := t.bus } := by
  apply State.ext <;> first | rfl | skip
  · exact h.pc
  · exact h.st
  · exact h.sp
  · exact h.fileA
  · exact h.fileB
  · exact h.intenb
  · exact h.intpendHeld
  · exact h.hstctl
  · exact h.dpyint
  · exact h.vcount
  · exact h.otherIo
  · exact h.lint1Low
  · exact h.lint2Low
  · exact h.cache
  · exact h.run
  · exact h.refreshInterval
  · exact h.nonvolatile
  · exact h.params
  · exact h.fetchedSegs
  · exact h.inputs

theorem sameCore_setBus (s : State) (es : List BusEvent) : SameCore s (s.setBus es) := by
  constructor <;> rfl

theorem sameCore_setMem (s : State) (m : Memory) : SameCore s (s.setMem m) := by
  constructor <;> rfl

theorem sameCore_markStale (s : State) (ws : List Nat) : SameCore s (s.markStale ws) := by
  constructor <;> rfl

theorem sameCore_store (s : State) (a : Long) {w : Nat} (v : BitVec w) : SameCore s (s.store a v) :=
  (sameCore_setMem s _).trans (sameCore_markStale _ _)

theorem sameCore_runBus (es : List BusEvent) (s : State) : SameCore s (s.runBus es) := by
  induction es generalizing s with
  | nil => exact sameCore_setBus s _
  | cons e es ih =>
    cases e with
    | cycle => exact sameCore_setBus s _
    | resetAsserted => exact sameCore_setBus s _
    | cut => exact sameCore_setBus s _
    | hostWrite a v => exact (sameCore_store s a v).trans (ih _)

theorem sameCore_afterCycles (s : State) (k : Nat) : SameCore s (s.afterCycles k) := by
  induction k with
  | zero => exact .refl s
  | succ k ih => exact ih.trans (sameCore_runBus _ _)

theorem sameCore_writeCycles (s : State) (a : Long) {w : Nat} (v : BitVec w) (k : Nat) :
    SameCore s (s.writeCycles a v k) := by
  induction k with
  | zero => exact .refl s
  | succ k ih =>
    simp only [State.writeCycles]
    split
    · exact ih.trans (sameCore_runBus _ _)
    · exact (ih.trans (sameCore_runBus _ _)).trans (sameCore_setMem _ _)

theorem sameCore_write (s : State) (a : Long) {w : Nat} (v : BitVec w) : SameCore s (s.write a v) :=
  (sameCore_writeCycles s a _ _).trans (sameCore_markStale _ _)

/-! ### `afterCycles` -/

@[simp] theorem afterCycles_pc (s : State) (k : Nat) : (s.afterCycles k).pc = s.pc := (sameCore_afterCycles s k).pc
@[simp] theorem afterCycles_st (s : State) (k : Nat) : (s.afterCycles k).st = s.st := (sameCore_afterCycles s k).st
@[simp] theorem afterCycles_sp (s : State) (k : Nat) : (s.afterCycles k).sp = s.sp := (sameCore_afterCycles s k).sp
@[simp] theorem afterCycles_fileA (s : State) (k : Nat) : (s.afterCycles k).fileA = s.fileA := (sameCore_afterCycles s k).fileA
@[simp] theorem afterCycles_fileB (s : State) (k : Nat) : (s.afterCycles k).fileB = s.fileB := (sameCore_afterCycles s k).fileB
@[simp] theorem afterCycles_intenb (s : State) (k : Nat) : (s.afterCycles k).intenb = s.intenb := (sameCore_afterCycles s k).intenb
@[simp] theorem afterCycles_intpendHeld (s : State) (k : Nat) : (s.afterCycles k).intpendHeld = s.intpendHeld := (sameCore_afterCycles s k).intpendHeld
@[simp] theorem afterCycles_hstctl (s : State) (k : Nat) : (s.afterCycles k).hstctl = s.hstctl := (sameCore_afterCycles s k).hstctl
@[simp] theorem afterCycles_dpyint (s : State) (k : Nat) : (s.afterCycles k).dpyint = s.dpyint := (sameCore_afterCycles s k).dpyint
@[simp] theorem afterCycles_vcount (s : State) (k : Nat) : (s.afterCycles k).vcount = s.vcount := (sameCore_afterCycles s k).vcount
@[simp] theorem afterCycles_otherIo (s : State) (k : Nat) : (s.afterCycles k).otherIo = s.otherIo := (sameCore_afterCycles s k).otherIo
@[simp] theorem afterCycles_lint1Low (s : State) (k : Nat) : (s.afterCycles k).lint1Low = s.lint1Low := (sameCore_afterCycles s k).lint1Low
@[simp] theorem afterCycles_lint2Low (s : State) (k : Nat) : (s.afterCycles k).lint2Low = s.lint2Low := (sameCore_afterCycles s k).lint2Low
@[simp] theorem afterCycles_cache (s : State) (k : Nat) : (s.afterCycles k).cache = s.cache := (sameCore_afterCycles s k).cache
@[simp] theorem afterCycles_run (s : State) (k : Nat) : (s.afterCycles k).run = s.run := (sameCore_afterCycles s k).run
@[simp] theorem afterCycles_refreshInterval (s : State) (k : Nat) : (s.afterCycles k).refreshInterval = s.refreshInterval := (sameCore_afterCycles s k).refreshInterval
@[simp] theorem afterCycles_nonvolatile (s : State) (k : Nat) : (s.afterCycles k).nonvolatile = s.nonvolatile := (sameCore_afterCycles s k).nonvolatile
@[simp] theorem afterCycles_params (s : State) (k : Nat) : (s.afterCycles k).params = s.params := (sameCore_afterCycles s k).params
@[simp] theorem afterCycles_fetchedSegs (s : State) (k : Nat) : (s.afterCycles k).fetchedSegs = s.fetchedSegs := (sameCore_afterCycles s k).fetchedSegs
@[simp] theorem afterCycles_inputs (s : State) (k : Nat) : (s.afterCycles k).inputs = s.inputs := (sameCore_afterCycles s k).inputs

/-! ### `afterRead` -/

@[simp] theorem afterRead_pc (s : State) (a : Long) (n : Nat) : (s.afterRead a n).pc = s.pc := (sameCore_afterCycles s _).pc
@[simp] theorem afterRead_st (s : State) (a : Long) (n : Nat) : (s.afterRead a n).st = s.st := (sameCore_afterCycles s _).st
@[simp] theorem afterRead_sp (s : State) (a : Long) (n : Nat) : (s.afterRead a n).sp = s.sp := (sameCore_afterCycles s _).sp
@[simp] theorem afterRead_fileA (s : State) (a : Long) (n : Nat) : (s.afterRead a n).fileA = s.fileA := (sameCore_afterCycles s _).fileA
@[simp] theorem afterRead_fileB (s : State) (a : Long) (n : Nat) : (s.afterRead a n).fileB = s.fileB := (sameCore_afterCycles s _).fileB
@[simp] theorem afterRead_intenb (s : State) (a : Long) (n : Nat) : (s.afterRead a n).intenb = s.intenb := (sameCore_afterCycles s _).intenb
@[simp] theorem afterRead_intpendHeld (s : State) (a : Long) (n : Nat) : (s.afterRead a n).intpendHeld = s.intpendHeld := (sameCore_afterCycles s _).intpendHeld
@[simp] theorem afterRead_hstctl (s : State) (a : Long) (n : Nat) : (s.afterRead a n).hstctl = s.hstctl := (sameCore_afterCycles s _).hstctl
@[simp] theorem afterRead_dpyint (s : State) (a : Long) (n : Nat) : (s.afterRead a n).dpyint = s.dpyint := (sameCore_afterCycles s _).dpyint
@[simp] theorem afterRead_vcount (s : State) (a : Long) (n : Nat) : (s.afterRead a n).vcount = s.vcount := (sameCore_afterCycles s _).vcount
@[simp] theorem afterRead_otherIo (s : State) (a : Long) (n : Nat) : (s.afterRead a n).otherIo = s.otherIo := (sameCore_afterCycles s _).otherIo
@[simp] theorem afterRead_lint1Low (s : State) (a : Long) (n : Nat) : (s.afterRead a n).lint1Low = s.lint1Low := (sameCore_afterCycles s _).lint1Low
@[simp] theorem afterRead_lint2Low (s : State) (a : Long) (n : Nat) : (s.afterRead a n).lint2Low = s.lint2Low := (sameCore_afterCycles s _).lint2Low
@[simp] theorem afterRead_cache (s : State) (a : Long) (n : Nat) : (s.afterRead a n).cache = s.cache := (sameCore_afterCycles s _).cache
@[simp] theorem afterRead_run (s : State) (a : Long) (n : Nat) : (s.afterRead a n).run = s.run := (sameCore_afterCycles s _).run
@[simp] theorem afterRead_refreshInterval (s : State) (a : Long) (n : Nat) : (s.afterRead a n).refreshInterval = s.refreshInterval := (sameCore_afterCycles s _).refreshInterval
@[simp] theorem afterRead_nonvolatile (s : State) (a : Long) (n : Nat) : (s.afterRead a n).nonvolatile = s.nonvolatile := (sameCore_afterCycles s _).nonvolatile
@[simp] theorem afterRead_params (s : State) (a : Long) (n : Nat) : (s.afterRead a n).params = s.params := (sameCore_afterCycles s _).params
@[simp] theorem afterRead_fetchedSegs (s : State) (a : Long) (n : Nat) : (s.afterRead a n).fetchedSegs = s.fetchedSegs := (sameCore_afterCycles s _).fetchedSegs
@[simp] theorem afterRead_inputs (s : State) (a : Long) (n : Nat) : (s.afterRead a n).inputs = s.inputs := (sameCore_afterCycles s _).inputs

/-! ### `write` -/

@[simp] theorem write_pc (s : State) (a : Long) {w : Nat} (v : BitVec w) : (s.write a v).pc = s.pc := (sameCore_write s a v).pc
@[simp] theorem write_st (s : State) (a : Long) {w : Nat} (v : BitVec w) : (s.write a v).st = s.st := (sameCore_write s a v).st
@[simp] theorem write_sp (s : State) (a : Long) {w : Nat} (v : BitVec w) : (s.write a v).sp = s.sp := (sameCore_write s a v).sp
@[simp] theorem write_fileA (s : State) (a : Long) {w : Nat} (v : BitVec w) : (s.write a v).fileA = s.fileA := (sameCore_write s a v).fileA
@[simp] theorem write_fileB (s : State) (a : Long) {w : Nat} (v : BitVec w) : (s.write a v).fileB = s.fileB := (sameCore_write s a v).fileB
@[simp] theorem write_intenb (s : State) (a : Long) {w : Nat} (v : BitVec w) : (s.write a v).intenb = s.intenb := (sameCore_write s a v).intenb
@[simp] theorem write_intpendHeld (s : State) (a : Long) {w : Nat} (v : BitVec w) : (s.write a v).intpendHeld = s.intpendHeld := (sameCore_write s a v).intpendHeld
@[simp] theorem write_hstctl (s : State) (a : Long) {w : Nat} (v : BitVec w) : (s.write a v).hstctl = s.hstctl := (sameCore_write s a v).hstctl
@[simp] theorem write_dpyint (s : State) (a : Long) {w : Nat} (v : BitVec w) : (s.write a v).dpyint = s.dpyint := (sameCore_write s a v).dpyint
@[simp] theorem write_vcount (s : State) (a : Long) {w : Nat} (v : BitVec w) : (s.write a v).vcount = s.vcount := (sameCore_write s a v).vcount
@[simp] theorem write_otherIo (s : State) (a : Long) {w : Nat} (v : BitVec w) : (s.write a v).otherIo = s.otherIo := (sameCore_write s a v).otherIo
@[simp] theorem write_lint1Low (s : State) (a : Long) {w : Nat} (v : BitVec w) : (s.write a v).lint1Low = s.lint1Low := (sameCore_write s a v).lint1Low
@[simp] theorem write_lint2Low (s : State) (a : Long) {w : Nat} (v : BitVec w) : (s.write a v).lint2Low = s.lint2Low := (sameCore_write s a v).lint2Low
@[simp] theorem write_cache (s : State) (a : Long) {w : Nat} (v : BitVec w) : (s.write a v).cache = s.cache := (sameCore_write s a v).cache
@[simp] theorem write_run (s : State) (a : Long) {w : Nat} (v : BitVec w) : (s.write a v).run = s.run := (sameCore_write s a v).run
@[simp] theorem write_refreshInterval (s : State) (a : Long) {w : Nat} (v : BitVec w) : (s.write a v).refreshInterval = s.refreshInterval := (sameCore_write s a v).refreshInterval
@[simp] theorem write_nonvolatile (s : State) (a : Long) {w : Nat} (v : BitVec w) : (s.write a v).nonvolatile = s.nonvolatile := (sameCore_write s a v).nonvolatile
@[simp] theorem write_params (s : State) (a : Long) {w : Nat} (v : BitVec w) : (s.write a v).params = s.params := (sameCore_write s a v).params
@[simp] theorem write_fetchedSegs (s : State) (a : Long) {w : Nat} (v : BitVec w) : (s.write a v).fetchedSegs = s.fetchedSegs := (sameCore_write s a v).fetchedSegs
@[simp] theorem write_inputs (s : State) (a : Long) {w : Nat} (v : BitVec w) : (s.write a v).inputs = s.inputs := (sameCore_write s a v).inputs

/-! ### `push32` -/

@[simp] theorem push32_pc (s : State) (v : Long) : (s.push32 v).pc = s.pc := write_pc _ _ _
@[simp] theorem push32_st (s : State) (v : Long) : (s.push32 v).st = s.st := write_st _ _ _
@[simp] theorem push32_fileA (s : State) (v : Long) : (s.push32 v).fileA = s.fileA := write_fileA _ _ _
@[simp] theorem push32_fileB (s : State) (v : Long) : (s.push32 v).fileB = s.fileB := write_fileB _ _ _
@[simp] theorem push32_intenb (s : State) (v : Long) : (s.push32 v).intenb = s.intenb := write_intenb _ _ _
@[simp] theorem push32_intpendHeld (s : State) (v : Long) : (s.push32 v).intpendHeld = s.intpendHeld := write_intpendHeld _ _ _
@[simp] theorem push32_hstctl (s : State) (v : Long) : (s.push32 v).hstctl = s.hstctl := write_hstctl _ _ _
@[simp] theorem push32_dpyint (s : State) (v : Long) : (s.push32 v).dpyint = s.dpyint := write_dpyint _ _ _
@[simp] theorem push32_vcount (s : State) (v : Long) : (s.push32 v).vcount = s.vcount := write_vcount _ _ _
@[simp] theorem push32_otherIo (s : State) (v : Long) : (s.push32 v).otherIo = s.otherIo := write_otherIo _ _ _
@[simp] theorem push32_lint1Low (s : State) (v : Long) : (s.push32 v).lint1Low = s.lint1Low := write_lint1Low _ _ _
@[simp] theorem push32_lint2Low (s : State) (v : Long) : (s.push32 v).lint2Low = s.lint2Low := write_lint2Low _ _ _
@[simp] theorem push32_cache (s : State) (v : Long) : (s.push32 v).cache = s.cache := write_cache _ _ _
@[simp] theorem push32_run (s : State) (v : Long) : (s.push32 v).run = s.run := write_run _ _ _
@[simp] theorem push32_refreshInterval (s : State) (v : Long) : (s.push32 v).refreshInterval = s.refreshInterval := write_refreshInterval _ _ _
@[simp] theorem push32_nonvolatile (s : State) (v : Long) : (s.push32 v).nonvolatile = s.nonvolatile := write_nonvolatile _ _ _
@[simp] theorem push32_params (s : State) (v : Long) : (s.push32 v).params = s.params := write_params _ _ _
@[simp] theorem push32_fetchedSegs (s : State) (v : Long) : (s.push32 v).fetchedSegs = s.fetchedSegs := write_fetchedSegs _ _ _
@[simp] theorem push32_inputs (s : State) (v : Long) : (s.push32 v).inputs = s.inputs := write_inputs _ _ _
@[simp] theorem push32_sp (s : State) (v : Long) : (s.push32 v).sp = s.params.stackDir.pushed s.sp 1 := write_sp _ _ _

/-! ### `drop32` -/

@[simp] theorem drop32_pc (s : State) : (s.drop32).pc = s.pc := afterRead_pc _ _ _
@[simp] theorem drop32_st (s : State) : (s.drop32).st = s.st := afterRead_st _ _ _
@[simp] theorem drop32_fileA (s : State) : (s.drop32).fileA = s.fileA := afterRead_fileA _ _ _
@[simp] theorem drop32_fileB (s : State) : (s.drop32).fileB = s.fileB := afterRead_fileB _ _ _
@[simp] theorem drop32_intenb (s : State) : (s.drop32).intenb = s.intenb := afterRead_intenb _ _ _
@[simp] theorem drop32_intpendHeld (s : State) : (s.drop32).intpendHeld = s.intpendHeld := afterRead_intpendHeld _ _ _
@[simp] theorem drop32_hstctl (s : State) : (s.drop32).hstctl = s.hstctl := afterRead_hstctl _ _ _
@[simp] theorem drop32_dpyint (s : State) : (s.drop32).dpyint = s.dpyint := afterRead_dpyint _ _ _
@[simp] theorem drop32_vcount (s : State) : (s.drop32).vcount = s.vcount := afterRead_vcount _ _ _
@[simp] theorem drop32_otherIo (s : State) : (s.drop32).otherIo = s.otherIo := afterRead_otherIo _ _ _
@[simp] theorem drop32_lint1Low (s : State) : (s.drop32).lint1Low = s.lint1Low := afterRead_lint1Low _ _ _
@[simp] theorem drop32_lint2Low (s : State) : (s.drop32).lint2Low = s.lint2Low := afterRead_lint2Low _ _ _
@[simp] theorem drop32_cache (s : State) : (s.drop32).cache = s.cache := afterRead_cache _ _ _
@[simp] theorem drop32_run (s : State) : (s.drop32).run = s.run := afterRead_run _ _ _
@[simp] theorem drop32_refreshInterval (s : State) : (s.drop32).refreshInterval = s.refreshInterval := afterRead_refreshInterval _ _ _
@[simp] theorem drop32_nonvolatile (s : State) : (s.drop32).nonvolatile = s.nonvolatile := afterRead_nonvolatile _ _ _
@[simp] theorem drop32_params (s : State) : (s.drop32).params = s.params := afterRead_params _ _ _
@[simp] theorem drop32_fetchedSegs (s : State) : (s.drop32).fetchedSegs = s.fetchedSegs := afterRead_fetchedSegs _ _ _
@[simp] theorem drop32_inputs (s : State) : (s.drop32).inputs = s.inputs := afterRead_inputs _ _ _
@[simp] theorem drop32_sp (s : State) : s.drop32.sp = s.params.stackDir.popped s.sp 1 := rfl

/-! ### `saveContext` -/

@[simp] theorem saveContext_pc (s : State) (b : Bool) (p q : Long) : (s.saveContext b p q).pc = s.pc := by
  unfold State.saveContext; split <;> simp
@[simp] theorem saveContext_st (s : State) (b : Bool) (p q : Long) : (s.saveContext b p q).st = s.st := by
  unfold State.saveContext; split <;> simp
@[simp] theorem saveContext_fileA (s : State) (b : Bool) (p q : Long) : (s.saveContext b p q).fileA = s.fileA := by
  unfold State.saveContext; split <;> simp
@[simp] theorem saveContext_fileB (s : State) (b : Bool) (p q : Long) : (s.saveContext b p q).fileB = s.fileB := by
  unfold State.saveContext; split <;> simp
@[simp] theorem saveContext_intenb (s : State) (b : Bool) (p q : Long) : (s.saveContext b p q).intenb = s.intenb := by
  unfold State.saveContext; split <;> simp
@[simp] theorem saveContext_intpendHeld (s : State) (b : Bool) (p q : Long) : (s.saveContext b p q).intpendHeld = s.intpendHeld := by
  unfold State.saveContext; split <;> simp
@[simp] theorem saveContext_hstctl (s : State) (b : Bool) (p q : Long) : (s.saveContext b p q).hstctl = s.hstctl := by
  unfold State.saveContext; split <;> simp
@[simp] theorem saveContext_dpyint (s : State) (b : Bool) (p q : Long) : (s.saveContext b p q).dpyint = s.dpyint := by
  unfold State.saveContext; split <;> simp
@[simp] theorem saveContext_vcount (s : State) (b : Bool) (p q : Long) : (s.saveContext b p q).vcount = s.vcount := by
  unfold State.saveContext; split <;> simp
@[simp] theorem saveContext_otherIo (s : State) (b : Bool) (p q : Long) : (s.saveContext b p q).otherIo = s.otherIo := by
  unfold State.saveContext; split <;> simp
@[simp] theorem saveContext_lint1Low (s : State) (b : Bool) (p q : Long) : (s.saveContext b p q).lint1Low = s.lint1Low := by
  unfold State.saveContext; split <;> simp
@[simp] theorem saveContext_lint2Low (s : State) (b : Bool) (p q : Long) : (s.saveContext b p q).lint2Low = s.lint2Low := by
  unfold State.saveContext; split <;> simp
@[simp] theorem saveContext_cache (s : State) (b : Bool) (p q : Long) : (s.saveContext b p q).cache = s.cache := by
  unfold State.saveContext; split <;> simp
@[simp] theorem saveContext_run (s : State) (b : Bool) (p q : Long) : (s.saveContext b p q).run = s.run := by
  unfold State.saveContext; split <;> simp
@[simp] theorem saveContext_refreshInterval (s : State) (b : Bool) (p q : Long) : (s.saveContext b p q).refreshInterval = s.refreshInterval := by
  unfold State.saveContext; split <;> simp
@[simp] theorem saveContext_nonvolatile (s : State) (b : Bool) (p q : Long) : (s.saveContext b p q).nonvolatile = s.nonvolatile := by
  unfold State.saveContext; split <;> simp
@[simp] theorem saveContext_params (s : State) (b : Bool) (p q : Long) : (s.saveContext b p q).params = s.params := by
  unfold State.saveContext; split <;> simp
@[simp] theorem saveContext_fetchedSegs (s : State) (b : Bool) (p q : Long) : (s.saveContext b p q).fetchedSegs = s.fetchedSegs := by
  unfold State.saveContext; split <;> simp
@[simp] theorem saveContext_inputs (s : State) (b : Bool) (p q : Long) : (s.saveContext b p q).inputs = s.inputs := by
  unfold State.saveContext; split <;> simp

/-! ### `clearOnTake` -/

@[simp] theorem clearOnTake_pc (s : State) (i : Interrupt) : (s.clearOnTake i).pc = s.pc := by
  unfold State.clearOnTake; cases i <;> simp only [] <;> (try split) <;> rfl
@[simp] theorem clearOnTake_st (s : State) (i : Interrupt) : (s.clearOnTake i).st = s.st := by
  unfold State.clearOnTake; cases i <;> simp only [] <;> (try split) <;> rfl
@[simp] theorem clearOnTake_sp (s : State) (i : Interrupt) : (s.clearOnTake i).sp = s.sp := by
  unfold State.clearOnTake; cases i <;> simp only [] <;> (try split) <;> rfl
@[simp] theorem clearOnTake_fileA (s : State) (i : Interrupt) : (s.clearOnTake i).fileA = s.fileA := by
  unfold State.clearOnTake; cases i <;> simp only [] <;> (try split) <;> rfl
@[simp] theorem clearOnTake_fileB (s : State) (i : Interrupt) : (s.clearOnTake i).fileB = s.fileB := by
  unfold State.clearOnTake; cases i <;> simp only [] <;> (try split) <;> rfl
@[simp] theorem clearOnTake_intenb (s : State) (i : Interrupt) : (s.clearOnTake i).intenb = s.intenb := by
  unfold State.clearOnTake; cases i <;> simp only [] <;> (try split) <;> rfl
@[simp] theorem clearOnTake_dpyint (s : State) (i : Interrupt) : (s.clearOnTake i).dpyint = s.dpyint := by
  unfold State.clearOnTake; cases i <;> simp only [] <;> (try split) <;> rfl
@[simp] theorem clearOnTake_vcount (s : State) (i : Interrupt) : (s.clearOnTake i).vcount = s.vcount := by
  unfold State.clearOnTake; cases i <;> simp only [] <;> (try split) <;> rfl
@[simp] theorem clearOnTake_otherIo (s : State) (i : Interrupt) : (s.clearOnTake i).otherIo = s.otherIo := by
  unfold State.clearOnTake; cases i <;> simp only [] <;> (try split) <;> rfl
@[simp] theorem clearOnTake_lint1Low (s : State) (i : Interrupt) : (s.clearOnTake i).lint1Low = s.lint1Low := by
  unfold State.clearOnTake; cases i <;> simp only [] <;> (try split) <;> rfl
@[simp] theorem clearOnTake_lint2Low (s : State) (i : Interrupt) : (s.clearOnTake i).lint2Low = s.lint2Low := by
  unfold State.clearOnTake; cases i <;> simp only [] <;> (try split) <;> rfl
@[simp] theorem clearOnTake_cache (s : State) (i : Interrupt) : (s.clearOnTake i).cache = s.cache := by
  unfold State.clearOnTake; cases i <;> simp only [] <;> (try split) <;> rfl
@[simp] theorem clearOnTake_run (s : State) (i : Interrupt) : (s.clearOnTake i).run = s.run := by
  unfold State.clearOnTake; cases i <;> simp only [] <;> (try split) <;> rfl
@[simp] theorem clearOnTake_refreshInterval (s : State) (i : Interrupt) : (s.clearOnTake i).refreshInterval = s.refreshInterval := by
  unfold State.clearOnTake; cases i <;> simp only [] <;> (try split) <;> rfl
@[simp] theorem clearOnTake_mem (s : State) (i : Interrupt) : (s.clearOnTake i).mem = s.mem := by
  unfold State.clearOnTake; cases i <;> simp only [] <;> (try split) <;> rfl
@[simp] theorem clearOnTake_nonvolatile (s : State) (i : Interrupt) : (s.clearOnTake i).nonvolatile = s.nonvolatile := by
  unfold State.clearOnTake; cases i <;> simp only [] <;> (try split) <;> rfl
@[simp] theorem clearOnTake_params (s : State) (i : Interrupt) : (s.clearOnTake i).params = s.params := by
  unfold State.clearOnTake; cases i <;> simp only [] <;> (try split) <;> rfl
@[simp] theorem clearOnTake_fetchedSegs (s : State) (i : Interrupt) : (s.clearOnTake i).fetchedSegs = s.fetchedSegs := by
  unfold State.clearOnTake; cases i <;> simp only [] <;> (try split) <;> rfl
@[simp] theorem clearOnTake_stale (s : State) (i : Interrupt) : (s.clearOnTake i).stale = s.stale := by
  unfold State.clearOnTake; cases i <;> simp only [] <;> (try split) <;> rfl
@[simp] theorem clearOnTake_inputs (s : State) (i : Interrupt) : (s.clearOnTake i).inputs = s.inputs := by
  unfold State.clearOnTake; cases i <;> simp only [] <;> (try split) <;> rfl
@[simp] theorem clearOnTake_bus (s : State) (i : Interrupt) : (s.clearOnTake i).bus = s.bus := by
  unfold State.clearOnTake; cases i <;> simp only [] <;> (try split) <;> rfl

/-! ### `setReg` -/

@[simp] theorem setReg_pc (s : State) (f : RegFile) (n : RegNum) (v : Long) : (s.setReg f n v).pc = s.pc := by
  unfold State.setReg; split <;> (try cases f) <;> rfl
@[simp] theorem setReg_st (s : State) (f : RegFile) (n : RegNum) (v : Long) : (s.setReg f n v).st = s.st := by
  unfold State.setReg; split <;> (try cases f) <;> rfl
@[simp] theorem setReg_intenb (s : State) (f : RegFile) (n : RegNum) (v : Long) : (s.setReg f n v).intenb = s.intenb := by
  unfold State.setReg; split <;> (try cases f) <;> rfl
@[simp] theorem setReg_intpendHeld (s : State) (f : RegFile) (n : RegNum) (v : Long) : (s.setReg f n v).intpendHeld = s.intpendHeld := by
  unfold State.setReg; split <;> (try cases f) <;> rfl
@[simp] theorem setReg_hstctl (s : State) (f : RegFile) (n : RegNum) (v : Long) : (s.setReg f n v).hstctl = s.hstctl := by
  unfold State.setReg; split <;> (try cases f) <;> rfl
@[simp] theorem setReg_dpyint (s : State) (f : RegFile) (n : RegNum) (v : Long) : (s.setReg f n v).dpyint = s.dpyint := by
  unfold State.setReg; split <;> (try cases f) <;> rfl
@[simp] theorem setReg_vcount (s : State) (f : RegFile) (n : RegNum) (v : Long) : (s.setReg f n v).vcount = s.vcount := by
  unfold State.setReg; split <;> (try cases f) <;> rfl
@[simp] theorem setReg_otherIo (s : State) (f : RegFile) (n : RegNum) (v : Long) : (s.setReg f n v).otherIo = s.otherIo := by
  unfold State.setReg; split <;> (try cases f) <;> rfl
@[simp] theorem setReg_lint1Low (s : State) (f : RegFile) (n : RegNum) (v : Long) : (s.setReg f n v).lint1Low = s.lint1Low := by
  unfold State.setReg; split <;> (try cases f) <;> rfl
@[simp] theorem setReg_lint2Low (s : State) (f : RegFile) (n : RegNum) (v : Long) : (s.setReg f n v).lint2Low = s.lint2Low := by
  unfold State.setReg; split <;> (try cases f) <;> rfl
@[simp] theorem setReg_cache (s : State) (f : RegFile) (n : RegNum) (v : Long) : (s.setReg f n v).cache = s.cache := by
  unfold State.setReg; split <;> (try cases f) <;> rfl
@[simp] theorem setReg_run (s : State) (f : RegFile) (n : RegNum) (v : Long) : (s.setReg f n v).run = s.run := by
  unfold State.setReg; split <;> (try cases f) <;> rfl
@[simp] theorem setReg_refreshInterval (s : State) (f : RegFile) (n : RegNum) (v : Long) : (s.setReg f n v).refreshInterval = s.refreshInterval := by
  unfold State.setReg; split <;> (try cases f) <;> rfl
@[simp] theorem setReg_mem (s : State) (f : RegFile) (n : RegNum) (v : Long) : (s.setReg f n v).mem = s.mem := by
  unfold State.setReg; split <;> (try cases f) <;> rfl
@[simp] theorem setReg_nonvolatile (s : State) (f : RegFile) (n : RegNum) (v : Long) : (s.setReg f n v).nonvolatile = s.nonvolatile := by
  unfold State.setReg; split <;> (try cases f) <;> rfl
@[simp] theorem setReg_params (s : State) (f : RegFile) (n : RegNum) (v : Long) : (s.setReg f n v).params = s.params := by
  unfold State.setReg; split <;> (try cases f) <;> rfl
@[simp] theorem setReg_fetchedSegs (s : State) (f : RegFile) (n : RegNum) (v : Long) : (s.setReg f n v).fetchedSegs = s.fetchedSegs := by
  unfold State.setReg; split <;> (try cases f) <;> rfl
@[simp] theorem setReg_stale (s : State) (f : RegFile) (n : RegNum) (v : Long) : (s.setReg f n v).stale = s.stale := by
  unfold State.setReg; split <;> (try cases f) <;> rfl
@[simp] theorem setReg_inputs (s : State) (f : RegFile) (n : RegNum) (v : Long) : (s.setReg f n v).inputs = s.inputs := by
  unfold State.setReg; split <;> (try cases f) <;> rfl
@[simp] theorem setReg_bus (s : State) (f : RegFile) (n : RegNum) (v : Long) : (s.setReg f n v).bus = s.bus := by
  unfold State.setReg; split <;> (try cases f) <;> rfl

/-! ### `writeHstctlBit` -/

@[simp] theorem writeHstctlBit_pc (s : State) (b : HstctlBit) (v : Bool) : (s.writeHstctlBit b v).pc = s.pc := by
  cases b <;> rfl
@[simp] theorem writeHstctlBit_st (s : State) (b : HstctlBit) (v : Bool) : (s.writeHstctlBit b v).st = s.st := by
  cases b <;> rfl
@[simp] theorem writeHstctlBit_sp (s : State) (b : HstctlBit) (v : Bool) : (s.writeHstctlBit b v).sp = s.sp := by
  cases b <;> rfl
@[simp] theorem writeHstctlBit_fileA (s : State) (b : HstctlBit) (v : Bool) : (s.writeHstctlBit b v).fileA = s.fileA := by
  cases b <;> rfl
@[simp] theorem writeHstctlBit_fileB (s : State) (b : HstctlBit) (v : Bool) : (s.writeHstctlBit b v).fileB = s.fileB := by
  cases b <;> rfl
@[simp] theorem writeHstctlBit_intenb (s : State) (b : HstctlBit) (v : Bool) : (s.writeHstctlBit b v).intenb = s.intenb := by
  cases b <;> rfl
@[simp] theorem writeHstctlBit_intpendHeld (s : State) (b : HstctlBit) (v : Bool) : (s.writeHstctlBit b v).intpendHeld = s.intpendHeld := by
  cases b <;> rfl
@[simp] theorem writeHstctlBit_dpyint (s : State) (b : HstctlBit) (v : Bool) : (s.writeHstctlBit b v).dpyint = s.dpyint := by
  cases b <;> rfl
@[simp] theorem writeHstctlBit_vcount (s : State) (b : HstctlBit) (v : Bool) : (s.writeHstctlBit b v).vcount = s.vcount := by
  cases b <;> rfl
@[simp] theorem writeHstctlBit_otherIo (s : State) (b : HstctlBit) (v : Bool) : (s.writeHstctlBit b v).otherIo = s.otherIo := by
  cases b <;> rfl
@[simp] theorem writeHstctlBit_lint1Low (s : State) (b : HstctlBit) (v : Bool) : (s.writeHstctlBit b v).lint1Low = s.lint1Low := by
  cases b <;> rfl
@[simp] theorem writeHstctlBit_lint2Low (s : State) (b : HstctlBit) (v : Bool) : (s.writeHstctlBit b v).lint2Low = s.lint2Low := by
  cases b <;> rfl
@[simp] theorem writeHstctlBit_cache (s : State) (b : HstctlBit) (v : Bool) : (s.writeHstctlBit b v).cache = s.cache := by
  cases b <;> rfl
@[simp] theorem writeHstctlBit_run (s : State) (b : HstctlBit) (v : Bool) : (s.writeHstctlBit b v).run = s.run := by
  cases b <;> rfl
@[simp] theorem writeHstctlBit_refreshInterval (s : State) (b : HstctlBit) (v : Bool) : (s.writeHstctlBit b v).refreshInterval = s.refreshInterval := by
  cases b <;> rfl
@[simp] theorem writeHstctlBit_mem (s : State) (b : HstctlBit) (v : Bool) : (s.writeHstctlBit b v).mem = s.mem := by
  cases b <;> rfl
@[simp] theorem writeHstctlBit_nonvolatile (s : State) (b : HstctlBit) (v : Bool) : (s.writeHstctlBit b v).nonvolatile = s.nonvolatile := by
  cases b <;> rfl
@[simp] theorem writeHstctlBit_params (s : State) (b : HstctlBit) (v : Bool) : (s.writeHstctlBit b v).params = s.params := by
  cases b <;> rfl
@[simp] theorem writeHstctlBit_fetchedSegs (s : State) (b : HstctlBit) (v : Bool) : (s.writeHstctlBit b v).fetchedSegs = s.fetchedSegs := by
  cases b <;> rfl
@[simp] theorem writeHstctlBit_stale (s : State) (b : HstctlBit) (v : Bool) : (s.writeHstctlBit b v).stale = s.stale := by
  cases b <;> rfl
@[simp] theorem writeHstctlBit_inputs (s : State) (b : HstctlBit) (v : Bool) : (s.writeHstctlBit b v).inputs = s.inputs := by
  cases b <;> rfl
@[simp] theorem writeHstctlBit_bus (s : State) (b : HstctlBit) (v : Bool) : (s.writeHstctlBit b v).bus = s.bus := by
  cases b <;> rfl

/-! ### `endWrite` -/

@[simp] theorem endWrite_pc (s : State) (e : EndWrite) : (s.endWrite e).pc = s.pc := by
  cases e <;> first | rfl | (rename_i r _; cases r <;> rfl)
@[simp] theorem endWrite_sp (s : State) (e : EndWrite) : (s.endWrite e).sp = s.sp := by
  cases e <;> first | rfl | (rename_i r _; cases r <;> rfl)
@[simp] theorem endWrite_fileA (s : State) (e : EndWrite) : (s.endWrite e).fileA = s.fileA := by
  cases e <;> first | rfl | (rename_i r _; cases r <;> rfl)
@[simp] theorem endWrite_fileB (s : State) (e : EndWrite) : (s.endWrite e).fileB = s.fileB := by
  cases e <;> first | rfl | (rename_i r _; cases r <;> rfl)
@[simp] theorem endWrite_lint1Low (s : State) (e : EndWrite) : (s.endWrite e).lint1Low = s.lint1Low := by
  cases e <;> first | rfl | (rename_i r _; cases r <;> rfl)
@[simp] theorem endWrite_lint2Low (s : State) (e : EndWrite) : (s.endWrite e).lint2Low = s.lint2Low := by
  cases e <;> first | rfl | (rename_i r _; cases r <;> rfl)
@[simp] theorem endWrite_cache (s : State) (e : EndWrite) : (s.endWrite e).cache = s.cache := by
  cases e <;> first | rfl | (rename_i r _; cases r <;> rfl)
@[simp] theorem endWrite_run (s : State) (e : EndWrite) : (s.endWrite e).run = s.run := by
  cases e <;> first | rfl | (rename_i r _; cases r <;> rfl)
@[simp] theorem endWrite_mem (s : State) (e : EndWrite) : (s.endWrite e).mem = s.mem := by
  cases e <;> first | rfl | (rename_i r _; cases r <;> rfl)
@[simp] theorem endWrite_nonvolatile (s : State) (e : EndWrite) : (s.endWrite e).nonvolatile = s.nonvolatile := by
  cases e <;> first | rfl | (rename_i r _; cases r <;> rfl)
@[simp] theorem endWrite_params (s : State) (e : EndWrite) : (s.endWrite e).params = s.params := by
  cases e <;> first | rfl | (rename_i r _; cases r <;> rfl)
@[simp] theorem endWrite_fetchedSegs (s : State) (e : EndWrite) : (s.endWrite e).fetchedSegs = s.fetchedSegs := by
  cases e <;> first | rfl | (rename_i r _; cases r <;> rfl)
@[simp] theorem endWrite_stale (s : State) (e : EndWrite) : (s.endWrite e).stale = s.stale := by
  cases e <;> first | rfl | (rename_i r _; cases r <;> rfl)
@[simp] theorem endWrite_inputs (s : State) (e : EndWrite) : (s.endWrite e).inputs = s.inputs := by
  cases e <;> first | rfl | (rename_i r _; cases r <;> rfl)
@[simp] theorem endWrite_bus (s : State) (e : EndWrite) : (s.endWrite e).bus = s.bus := by
  cases e <;> first | rfl | (rename_i r _; cases r <;> rfl)

/-! ### Registers -/

theorem regNum_below {n : RegNum} : n.toNat < 15 ↔ n ≠ 15#4 := by
  revert n; decide

/-- SP is register 15 of both files and no other (10_state.md R16, G3). -/
theorem setReg_sp (s : State) (f : RegFile) (n : RegNum) (v : Long) :
    (s.setReg f n v).sp = if n = 15#4 then v else s.sp := by
  unfold State.setReg
  by_cases h : n = 15#4
  · subst h; rfl
  · rw [dif_pos (regNum_below.mpr h), if_neg h]
    cases f <;> rfl

/-- Reading a register after a write of one: the same register of the same file, or SP through either file, reads the new
value; every other register is unchanged. -/
theorem getReg_setReg (s : State) (f g : RegFile) (n k : RegNum) (v : Long) :
    (s.setReg f n v).getReg g k = if k = n ∧ (g = f ∨ n = 15#4) then v else s.getReg g k := by
  unfold State.setReg State.getReg
  by_cases hn : n = 15#4 <;> by_cases hk : k = 15#4
  · subst hn; subst hk; simp
  · have : k ≠ n := fun e => hk (e.trans hn)
    subst hn
    simp [regNum_below.mpr hk, hk]
  · have : k ≠ n := fun e => hn (e.symm.trans hk)
    subst hk
    cases f <;> simp [regNum_below.mpr hn, this]
  · have hinj : n.toNat = k.toNat ↔ k = n := by rw [BitVec.toNat_inj]; exact eq_comm
    cases f <;> cases g <;>
      simp [regNum_below.mpr hn, regNum_below.mpr hk, Vector.getElem_set, hinj] <;> exact fun _ h => absurd h hn

end Sys2Proof.Machine
end

