-- ==== Sys2Proof/Laws/Bus.lean ====
section
/-! SUPPORT. The bus: what the GSP's accesses do when nothing falls between their cycles, and what holds whatever falls there;
the bit order and the direction of the stack. -/

namespace Sys2Proof.Machine

/-! ### Bit order and stack direction -/

@[simp] theorem arrange_arrange (o : BitOrder) {w : Nat} (v : BitVec w) : o.arrange (o.arrange v) = v := by
  cases o
  · rfl
  · exact BitVec.reverse_reverse_eq

@[simp] theorem pushed_zero (d : StackDir) (p : Long) : d.pushed p 0 = p := by
  cases d <;> simp [StackDir.pushed]

theorem pushed_pushed (d : StackDir) (p : Long) (j k : Nat) : d.pushed (d.pushed p j) k = d.pushed p (j + k) := by
  cases d <;> simp only [StackDir.pushed, BitVec.ofNat_add, BitVec.mul_add]
  · exact sub_sub _ _ _
  · exact add_assoc _ _ _

theorem popped_popped (d : StackDir) (p : Long) (j k : Nat) : d.popped (d.popped p j) k = d.popped p (j + k) := by
  cases d <;> simp only [StackDir.popped, BitVec.ofNat_add, BitVec.mul_add]
  · exact add_assoc _ _ _
  · exact sub_sub _ _ _

@[simp] theorem popped_pushed (d : StackDir) (p : Long) (k : Nat) : d.popped (d.pushed p k) k = p := by
  cases d
  · exact sub_add_cancel _ _
  · exact add_sub_cancel_right _ _

/-! ### A quiet bus -/

theorem beginCycle_quiet {s : State} (h : s.quiet) : s.beginCycle = s := by
  have h' : s.bus = [] := h
  unfold State.beginCycle
  rw [h']
  show s.setBus [] = s
  rw [← h']
  rfl

theorem afterCycles_quiet {s : State} (h : s.quiet) (k : Nat) : s.afterCycles k = s := by
  induction k with
  | zero => rfl
  | succ k ih =>
    show (s.afterCycles k).beginCycle = s
    rw [ih, beginCycle_quiet h]

theorem afterRead_quiet {s : State} (h : s.quiet) (a : Long) (n : Nat) : s.afterRead a n = s := afterCycles_quiet h _

theorem fetched_quiet {s : State} (h : s.quiet) (a : Long) (n : Nat) : s.fetched a n = s.peek a n := by
  have e : (fun k => (s.afterCycles (k + 1)).mem) = fun _ => s.mem := funext fun k => by rw [afterCycles_quiet h]
  unfold State.fetched State.peek
  rw [e, readAcross_const]

theorem isCut_quiet {s : State} (h : s.quiet) : s.isCut = false := by
  have h' : s.bus = [] := h
  unfold State.isCut
  rw [h']
  rfl

@[simp] theorem unlessCut_quiet {s t : State} (h : t.quiet) (go : Host.Outcome State Fault Refusal) :
    s.unlessCut t go = go := by
  unfold State.unlessCut
  rw [isCut_quiet h]
  rfl

theorem writeCycles_quiet {s : State} (h : s.quiet) (a : Long) {w : Nat} (v : BitVec w) (k : Nat) :
    s.writeCycles a v k = s.setMem (s.mem.writeLow a v (bitsReached a w k)) := by
  induction k with
  | zero => simp [State.writeCycles, bitsReached, Memory.writeLow, State.setMem]
  | succ k ih =>
    have q : (s.setMem (s.mem.writeLow a v (bitsReached a w k))).quiet := h
    rw [State.writeCycles, ih, beginCycle_quiet q]
    have hc := isCut_quiet q
    generalize hm : s.mem.writeLow a v (bitsReached a w k) = m at *
    simp only [hc, setMem_mem]
    rw [← hm, writeSpan_writeLow, Nat.add_sub_cancel' (bitsReached_mono a w k)]
    rfl

/-- With nothing between its cycles, the GSP's write is the write in one piece. -/
theorem write_quiet {s : State} (h : s.quiet) (a : Long) {w : Nat} (v : BitVec w) : s.write a v = s.store a v := by
  unfold State.write State.store
  rw [writeCycles_quiet h, bitsReached_all]
  rfl

theorem quiet_store {s : State} (h : s.quiet) (a : Long) {w : Nat} (v : BitVec w) : (s.store a v).quiet := h

theorem quiet_write {s : State} (h : s.quiet) (a : Long) {w : Nat} (v : BitVec w) : (s.write a v).quiet := by
  rw [write_quiet h]; exact h

theorem push32_quiet {s : State} (h : s.quiet) (v : Long) :
    s.push32 v = (s.setSP (s.params.stackDir.pushed s.sp 1)).store (s.params.stackDir.pushed s.sp 1) v :=
  write_quiet (s := s.setSP (s.params.stackDir.pushed s.sp 1)) h _ _

theorem quiet_push32 {s : State} (h : s.quiet) (v : Long) : (s.push32 v).quiet := by
  rw [push32_quiet h]; exact h

theorem top32_quiet {s : State} (h : s.quiet) : s.top32 = s.peek s.sp 32 := fetched_quiet h _ _

theorem drop32_quiet {s : State} (h : s.quiet) : s.drop32 = s.setSP (s.params.stackDir.popped s.sp 1) := by
  unfold State.drop32
  rw [afterRead_quiet h]

/-! ### Fields under both bit orders -/

/-- A field reads as it was stored. -/
theorem peek_store_same (s : State) (a : Long) {w : Nat} (v : BitVec w) (hw : w ≤ 2 ^ 32) : (s.store a v).peek a w = v := by
  unfold State.peek
  rw [store_mem, store_params, read_write_same _ _ _ hw, arrange_arrange]

/-- Reading is decided by memory and the bit order alone. -/
theorem peek_congr {s t : State} (hp : t.params = s.params) {a : Long} {n : Nat} (hm : t.mem.read a n = s.mem.read a n) :
    t.peek a n = s.peek a n := by
  unfold State.peek
  rw [hp, hm]

/-! ### The canonical form, whatever falls on the bus -/

theorem wf_runBus (es : List BusEvent) {s : State} (h : s.mem.wf) : (s.runBus es).mem.wf := by
  induction es generalizing s with
  | nil => exact h
  | cons e es ih =>
    cases e with
    | cycle => exact h
    | resetAsserted => exact h
    | cut => exact h
    | hostWrite a v => exact ih (wf_write h _ _)

theorem wf_afterCycles {s : State} (h : s.mem.wf) (k : Nat) : (s.afterCycles k).mem.wf := by
  induction k with
  | zero => exact h
  | succ k ih => exact wf_runBus _ ih

theorem wf_writeCycles {s : State} (h : s.mem.wf) (a : Long) {w : Nat} (v : BitVec w) (k : Nat) :
    (s.writeCycles a v k).mem.wf := by
  induction k with
  | zero => exact h
  | succ k ih =>
    rw [State.writeCycles]
    split
    · exact wf_runBus _ ih
    · exact wf_writeSpan (wf_runBus _ ih) _ _ _ _

theorem wf_store {s : State} (h : s.mem.wf) (a : Long) {w : Nat} (v : BitVec w) : (s.store a v).mem.wf := wf_write h _ _

theorem wf_stateWrite {s : State} (h : s.mem.wf) (a : Long) {w : Nat} (v : BitVec w) : (s.write a v).mem.wf :=
  wf_writeCycles h _ _ _

theorem wf_push32 {s : State} (h : s.mem.wf) (v : Long) : (s.push32 v).mem.wf :=
  wf_stateWrite (s := s.setSP (s.params.stackDir.pushed s.sp 1)) h _ _

theorem wf_saveContext {s : State} (h : s.mem.wf) (b : Bool) (p q : Long) : (s.saveContext b p q).mem.wf := by
  cases b
  · exact h
  · exact wf_push32 (wf_push32 h p) q

/-! ### RESET inside the GSP's work -/

/-- What a piece of the GSP's work can end in: RESET cut it short, or it goes on. -/
theorem unlessCut_cases (s t : State) (go : Host.Outcome State Fault Refusal) :
    (t.isCut = true ∧ s.unlessCut t go = .next (s.cutShort t)) ∨ (t.isCut = false ∧ s.unlessCut t go = go) := by
  unfold State.unlessCut
  cases t.isCut
  · exact .inr ⟨rfl, rfl⟩
  · exact .inl ⟨rfl, rfl⟩

/-- Once RESET is low no cycle changes anything. -/
theorem beginCycle_cut {s : State} (h : s.isCut = true) : s.beginCycle = s := by
  simp only [State.isCut, decide_eq_true_eq] at h
  obtain ⟨es, he⟩ := List.head?_eq_some_iff.mp h
  unfold State.beginCycle
  rw [he]
  show s.setBus (.cut :: es) = s
  rw [← he]
  rfl

end Sys2Proof.Machine
end

