-- ==== Sys2Proof/Laws/Decode.lean ====
section
/-! SUPPORT. The rows of the opcode table are disjoint (30_encoding.md R66), so an opcode that hits a row is decoded by it. -/

namespace Sys2Proof

theorem opcodeRows_apart : (opcodeRows Enc.standard).Pairwise (fun r q => r.apart q = true) := by
  decide +kernel

/-- No opcode hits both of two rows that are apart. -/
theorem not_hit_of_apart {r q : OpcodeRow} {op : Word} (h : r.apart q = true) (hr : r.hit op = true) :
    q.hit op = false := by
  by_contra hq
  simp only [OpcodeRow.apart, OpcodeRow.hit, ne_eq, decide_eq_true_eq, Bool.not_eq_false] at h hr hq
  rw [← hr, ← hq] at h
  apply h
  apply BitVec.eq_of_getLsbD_eq
  intro i _
  simp only [BitVec.getLsbD_and, BitVec.getLsbD_xor]
  cases op.getLsbD i <;> cases r.mask.getLsbD i <;> cases q.mask.getLsbD i <;> simp

theorem find_row {rows : List OpcodeRow} (hp : rows.Pairwise (fun r q => r.apart q = true)) {r : OpcodeRow} {op : Word}
    (hm : r ∈ rows) (hr : r.hit op = true) : rows.find? (fun q => q.hit op) = some r := by
  induction rows with
  | nil => cases hm
  | cons q rows ih =>
    rw [List.pairwise_cons] at hp
    rcases List.mem_cons.mp hm with rfl | hm
    · simp [hr]
    · have hq : q.hit op = false := by
        by_contra h
        have h' : q.hit op = true := by simpa using h
        rw [not_hit_of_apart (hp.1 r hm) h'] at hr
        exact absurd hr (by decide)
      simpa [hq] using ih hp.2 hm

/-- An opcode that hits a row is decoded by that row. -/
theorem decode_of_hit {r : OpcodeRow} {op : Word} (ext : Word) (hm : r ∈ opcodeRows Enc.standard) (hr : r.hit op = true)
    (hw : (r.form op ext).wellFormed = true) : decode op ext = .ok (r.form op ext) := by
  unfold decode decodeWith
  rw [find_row opcodeRows_apart hm hr]
  simp [hw]

/-- What decoding can answer: the instruction of a row the opcode hits, or a rejection by name. -/
theorem decode_cases (op ext : Word) :
    (∃ r ∈ opcodeRows Enc.standard, r.hit op = true ∧ (r.form op ext).wellFormed = true ∧ decode op ext = .ok (r.form op ext)) ∨
    (∃ r ∈ opcodeRows Enc.standard, r.hit op = true ∧ (r.form op ext).wellFormed = false ∧ decode op ext = .error (.excludedField op)) ∨
    ((∀ r ∈ opcodeRows Enc.standard, r.hit op = false) ∧ decode op ext = .error (.noRow op)) := by
  cases hf : (opcodeRows Enc.standard).find? (fun r => r.hit op) with
  | none =>
    refine .inr (.inr ⟨fun r hr => by simpa using List.find?_eq_none.mp hf r hr, ?_⟩)
    unfold decode decodeWith
    rw [hf]
  | some r =>
    have hm := List.mem_of_find?_eq_some hf
    have hr : r.hit op = true := by simpa using List.find?_some hf
    by_cases hw : (r.form op ext).wellFormed = true
    · exact .inl ⟨r, hm, hr, hw, decode_of_hit ext hm hr hw⟩
    · refine .inr (.inl ⟨r, hm, hr, by simpa using hw, ?_⟩)
      unfold decode decodeWith
      rw [hf]
      simp [hw]

end Sys2Proof
end

