-- ==== Sys2Proof/Laws/Ops.lean ====
section
/-! SUPPORT. What each shared operation can do, once: the stack, entry and return, the register lists, the interrupts. -/

namespace Sys2Proof.Machine

/-! ### Fields of ST -/

/-- A field size is 1 to 32. -/
theorem fieldSize_bounds (code : BitVec 5) : 1 ≤ fieldSize code ∧ fieldSize code ≤ 32 := by
  revert code
  decide

/-- The bits of an extended field: those of the value below its size, and above it zeros or copies of its highest bit. -/
theorem getLsbD_extendField (ext : Bool) {n : Nat} (v : Long) {i : Nat} (h1 : 1 ≤ n) (hn : n ≤ 32) (hi : i < 32) :
    (extendField ext n v).getLsbD i = if i < n then v.getLsbD i else ext && v.getLsbD (n - 1) := by
  cases ext
  · by_cases h : i < n <;> simp [extendField, h, hi]
  · rw [extendField, if_pos rfl, sextLow, BitVec.getLsbD_sshiftRight, BitVec.msb_shiftLeft, BitVec.getLsbD_shiftLeft,
      BitVec.getMsbD_eq_getLsbD]
    by_cases h : i < n
    · simp [h, hi, show 32 - n + i < 32 by omega]
    · simp [h, hi, show ¬ 32 - n + i < 32 by omega, show 32 - n < 32 by omega, show 32 - 1 - (32 - n) = n - 1 by omega]

/-- Field 0 and field 1 under the ST of an entry and of reset (10_state.md R14). -/
@[simp] theorem asField0_stEntry (v : Long) : asField0 stEntry v = (v.setWidth 16).setWidth 32 := rfl
@[simp] theorem asField1_stEntry (v : Long) : asField1 stEntry v = v := (BitVec.setWidth_eq _).trans (BitVec.setWidth_eq _)

/-! ### Fields of memory -/

/-- A write changes nothing outside its field. -/
theorem sameOutside_write (m : Memory) (a : Long) {w : Nat} (v : BitVec w) (hw : w ≤ 2 ^ 32) :
    sameOutside m (m.write a v) a w :=
  fun b hb => by rw [bit_write _ _ _ _ hw, if_neg (by omega)]

/-- A field of 32 bits survives a write of the 32 bits just below it or just above it. -/
theorem read_write_beside (m : Memory) (a b v : Long) (h : b = a - 32#32 ∨ b = a + 32#32) :
    (m.write b v).read a 32 = m.read a 32 := by
  refine read_write_apart _ _ _ _ _ (by omega) (fun i hi => ?_)
  rcases h with rfl | rfl
  · have e : a + BitVec.ofNat 32 i - (a - 32#32) = BitVec.ofNat 32 (i + 32) := by
      apply BitVec.eq_of_toNat_eq; simp
    rw [e, BitVec.toNat_ofNat, Nat.mod_eq_of_lt (by omega)]
    omega
  · have e : a + BitVec.ofNat 32 i - (a + 32#32) = BitVec.ofNat 32 i - 32#32 := by
      rw [add_sub_add_left_eq_sub]
    rw [e, BitVec.toNat_sub]
    simp only [BitVec.toNat_ofNat]
    omega

theorem pushed_beside (d : StackDir) (p : Long) : d.pushed p 2 = d.pushed p 1 - 32#32 ∨ d.pushed p 2 = d.pushed p 1 + 32#32 := by
  rw [← pushed_pushed d p 1 1]
  cases d
  · exact .inl rfl
  · exact .inr rfl

/-- The bits that the two pushes of an entry occupy lie in the 64 bits from `low` upward. -/
theorem low_covers (d : StackDir) (p b : Long) (h : 64 ≤ (b - d.low p 2).toNat) :
    32 ≤ (b - d.pushed p 1).toNat ∧ 32 ≤ (b - d.pushed p 2).toNat := by
  have hb : (b - d.low p 2).toNat < 2 ^ 32 := BitVec.isLt _
  cases d with
  | down =>
    have e1 : b - (p - 32#32 * BitVec.ofNat 32 1) = b - (p - 32#32 * BitVec.ofNat 32 2) - 32#32 := by
      simp only [show 32#32 * BitVec.ofNat 32 1 = 32#32 from rfl, show 32#32 * BitVec.ofNat 32 2 = 32#32 + 32#32 from rfl]
      abel
    simp only [StackDir.low, StackDir.pushed] at h hb ⊢
    rw [e1, BitVec.toNat_sub]
    simp only [BitVec.toNat_ofNat]
    omega
  | up =>
    have e2 : b - (p + 32#32 * BitVec.ofNat 32 2) = b - (p + 32#32) - 32#32 := by
      simp only [show 32#32 * BitVec.ofNat 32 2 = 32#32 + 32#32 from rfl]
      abel
    have e1 : 32#32 * BitVec.ofNat 32 1 = 32#32 := rfl
    simp only [StackDir.low, StackDir.pushed] at h hb ⊢
    rw [e2, e1, BitVec.toNat_sub (b - (p + 32#32)) 32#32, show (32#32 : Long).toNat = 32 from rfl]
    omega

/-! ### Entry (60_exceptions.md R106) -/

@[simp] theorem saveContext_false (s : State) (p q : Long) : s.saveContext false p q = s := rfl

@[simp] theorem saveContext_true_sp (s : State) (p q : Long) :
    (s.saveContext true p q).sp = s.params.stackDir.pushed s.sp 2 := by
  show ((s.push32 p).push32 q).sp = _
  rw [push32_sp, push32_sp, push32_params, pushed_pushed]

theorem quiet_saveContext {s : State} (h : s.quiet) (b : Bool) (p q : Long) : (s.saveContext b p q).quiet := by
  cases b
  · exact h
  · exact quiet_push32 (quiet_push32 h p) q

theorem saveContext_true_mem {s : State} (h : s.quiet) (p q : Long) :
    (s.saveContext true p q).mem =
      (s.mem.write (s.params.stackDir.pushed s.sp 1) (s.params.bitOrder.arrange p)).write
        (s.params.stackDir.pushed s.sp 2) (s.params.bitOrder.arrange q) := by
  show ((s.push32 p).push32 q).mem = _
  rw [push32_quiet (quiet_push32 h p), store_mem, setSP_mem, setSP_params, push32_params, push32_sp, pushed_pushed,
    push32_quiet h, store_mem, setSP_mem, setSP_params]

/-- After the pushes of an entry, ST is on top of the stack and PC behind it (20_memory.md R45). -/
theorem saveContext_peeks {s : State} (h : s.quiet) (p q : Long) :
    (s.saveContext true p q).peek (s.params.stackDir.pushed s.sp 1) 32 = p ∧
    (s.saveContext true p q).peek (s.params.stackDir.pushed s.sp 2) 32 = q := by
  unfold State.peek
  rw [saveContext_true_mem h, saveContext_params]
  constructor
  · rw [read_write_beside _ _ _ _ (pushed_beside _ _), read_write_same _ _ _ (by omega), arrange_arrange]
  · rw [read_write_same _ _ _ (by omega), arrange_arrange]

/-- The pushes of an entry change nothing outside their 64 bits. -/
theorem saveContext_sameOutside {s : State} (h : s.quiet) (p q : Long) :
    sameOutside s.mem (s.saveContext true p q).mem (s.params.stackDir.low s.sp 2) 64 := by
  intro b hb
  have := low_covers _ _ _ hb
  rw [saveContext_true_mem h, bit_write _ _ _ _ (by omega), bit_write _ _ _ _ (by omega), if_neg (by omega),
    if_neg (by omega)]

/-- `LoadPC` answers the next state or the refusal of a value that is not at a word boundary (20_memory.md R47, D4). -/
theorem loadPC_cases (s : State) (v : Long) :
    (s.params.pcLow4 = .forceZero ∧ s.loadPC v = .next (s.setPC (pcAligned v))) ∨
    (s.params.pcLow4 = .refuse ∧ v &&& 0xF#32 = 0#32 ∧ s.loadPC v = .next (s.setPC v)) ∨
    (s.params.pcLow4 = .refuse ∧ v &&& 0xF#32 ≠ 0#32 ∧ s.loadPC v = .refused (.pcNotAtWord v)) := by
  unfold State.loadPC
  cases s.params.pcLow4 with
  | forceZero => exact .inl ⟨rfl, rfl⟩
  | refuse =>
    by_cases h : v &&& 0xF#32 = 0#32
    · exact .inr (.inl ⟨rfl, h, by simp [h]⟩)
    · exact .inr (.inr ⟨rfl, h, by simp [h]⟩)

theorem loadPC_forceZero {s : State} (h : s.params.pcLow4 = .forceZero) (v : Long) :
    s.loadPC v = .next (s.setPC (pcAligned v)) := by
  unfold State.loadPC
  rw [h]

/-- An entry on a quiet bus, under any policy for the PC: everything after the pushes. -/
theorem takeTrap_quiet {s : State} (h : s.quiet) (n : BitVec 5) (b : Bool) (p q : Long) :
    s.takeTrap n b p q = ((s.saveContext b p q).writeST stEntry).loadPC ((s.saveContext b p q).peek (vectorAddr n) 32) := by
  have k : ((s.saveContext b p q).writeST stEntry).quiet := quiet_saveContext h b p q
  unfold State.takeTrap State.enterVector
  simp only [afterRead_quiet k, fetched_quiet k, unlessCut_quiet k]
  rfl

/-- What an entry that saves does: everything (60_exceptions.md R106). -/
theorem takeTrap_entersSaving {s : State} (h : s.quiet) (hp : s.params.pcLow4 = .forceZero) (n : BitVec 5) (p q : Long) :
    ∃ t, s.takeTrap n true p q = .next t ∧ EntersSaving s t n p q := by
  have hp' : ((s.saveContext true p q).writeST stEntry).params.pcLow4 = .forceZero := by simp [hp]
  refine ⟨_, by rw [takeTrap_quiet h, loadPC_forceZero hp'], ?_, ?_, ?_, ?_⟩
  · exact (peek_congr (by simp) (by simp)).trans (saveContext_peeks h p q).1
  · exact (peek_congr (by simp) (by simp)).trans (saveContext_peeks h p q).2
  · simpa using saveContext_sameOutside h p q
  · apply State.ext <;> first | rfl | simp
    · exact (quiet_saveContext h true p q).trans h.symm

/-- What an entry that saves nothing does: everything (R98, R106; 40_trap_reti.md R71). -/
theorem takeTrap_false {s : State} (h : s.quiet) (hp : s.params.pcLow4 = .forceZero) (n : BitVec 5) (p q : Long) :
    s.takeTrap n false p q = .next ((s.writeST stEntry).setPC (s.vectorPC n)) := by
  rw [takeTrap_quiet h, saveContext_false, loadPC_forceZero (s := s.writeST stEntry) hp]
  rfl

theorem takeIllop_eq (s : State) : s.takeIllop = s.takeTrap 30#5 true (s.pcNext 1) s.st := rfl

/-- What an entry can answer, whatever falls on the bus: RESET cut it short, or the PC is loaded. -/
theorem takeTrap_cases (s : State) (n : BitVec 5) (b : Bool) (p q : Long) :
    (∃ t, t.isCut = true ∧ s.takeTrap n b p q = .next (s.cutShort t)) ∨
    s.takeTrap n b p q = (s.saveContext b p q).enterVector n := by
  rcases unlessCut_cases s (((s.saveContext b p q).writeST stEntry).afterRead (vectorAddr n) 32)
    ((s.saveContext b p q).enterVector n) with h | h
  · exact .inl ⟨_, h⟩
  · exact .inr h.2

/-- What a return from interrupt can answer (40_trap_reti.md R74): what RESET leaves, the refusal of PBX, or ST and PC
popped. -/
theorem returnFromInterrupt_cases (s : State) :
    (s.drop32.drop32.isCut = true ∧ s.returnFromInterrupt = .next (s.cutShort s.drop32.drop32)) ∨
    (stPBX s.top32 = true ∧ s.returnFromInterrupt = .refused .resumePixelOperation) ∨
    (stPBX s.top32 = false ∧
      s.returnFromInterrupt = (s.drop32.drop32.writeST s.top32).loadPC s.drop32.top32) := by
  unfold State.returnFromInterrupt
  rcases unlessCut_cases s s.drop32.drop32 (if stPBX s.top32 then .refused .resumePixelOperation
    else (s.drop32.drop32.writeST s.top32).loadPC s.drop32.top32) with ⟨hc, h⟩ | ⟨_, h⟩
  · exact .inl ⟨hc, h⟩
  · rw [h]
    cases stPBX s.top32
    · exact .inr (.inr ⟨rfl, rfl⟩)
    · exact .inr (.inl ⟨rfl, rfl⟩)

/-! ### The PC at a word boundary (20_memory.md R47) -/

theorem pcAligned_word (v : Long) : pcAligned v &&& 0xF#32 = 0#32 := by
  unfold pcAligned
  rw [BitVec.and_assoc]
  simp

/-! ### Numbers in rising lists -/

theorem mem_insertNat {k x : Nat} {xs : List Nat} : x ∈ insertNat k xs ↔ x = k ∨ x ∈ xs := by
  induction xs with
  | nil => simp [insertNat]
  | cons y ys ih =>
    unfold insertNat
    split
    · simp
    · split
      · rename_i h; subst h; simp
      · simp only [List.mem_cons, ih]; tauto

theorem risingNats_insertNat {k : Nat} {xs : List Nat} (h : risingNats xs) : risingNats (insertNat k xs) := by
  induction xs with
  | nil => rfl
  | cons y ys ih =>
    simp only [risingNats, Bool.and_eq_true, List.all_eq_true, decide_eq_true_eq] at h
    unfold insertNat
    split
    · rename_i hk
      simp only [risingNats, Bool.and_eq_true, List.all_eq_true, decide_eq_true_eq, List.mem_cons]
      refine ⟨?_, h⟩
      rintro x (rfl | hx)
      · exact hk
      · exact Nat.lt_trans hk (h.1 x hx)
    · split
      · simpa [risingNats] using h
      · simp only [risingNats, Bool.and_eq_true, List.all_eq_true, decide_eq_true_eq]
        refine ⟨?_, ih h.2⟩
        intro x hx
        rcases mem_insertNat.mp hx with rfl | hx
        · omega
        · exact h.1 x hx

theorem risingNats_foldr {ks xs : List Nat} (h : risingNats xs) : risingNats (ks.foldr insertNat xs) := by
  induction ks with
  | nil => exact h
  | cons k ks ih => exact risingNats_insertNat ih

/-! ### Divisions and register lists -/

@[simp] theorem writeDivision_pc (s : State) (f : RegFile) (rd : RegNum) (q r : Long) :
    (s.writeDivision f rd q r).pc = s.pc := by
  unfold State.writeDivision; split <;> simp

@[simp] theorem writeDivision_mem (s : State) (f : RegFile) (rd : RegNum) (q r : Long) :
    (s.writeDivision f rd q r).mem = s.mem := by
  unfold State.writeDivision; split <;> simp

/-- A property that the register writes and memory writes of `MMTM` keep, one by one, is kept by the whole list. -/
theorem pushRegs_induct {P : State → Prop} (f : RegFile) (rp : RegNum)
    (hreg : ∀ t v, P t → P (t.setReg f rp v)) (hwrite : ∀ (t : State) (a v : Long), P t → P (t.write a v))
    (ns : List RegNum) (s regs : State) (p : Long) (h : P s) : P (s.pushRegs regs f rp p ns) := by
  induction ns generalizing s p with
  | nil => exact hreg _ _ h
  | cons n ns ih => exact ih _ _ (hwrite _ _ _ h)

/-- A property that reads and register writes keep is kept by the pops of `MMFM`. -/
theorem popRegs_induct {P : State → Prop} (f : RegFile) (hread : ∀ (t : State) a, P t → P (t.afterRead a 32))
    (hreg : ∀ (t : State) n v, P t → P (t.setReg f n v))
    (ns : List RegNum) (s : State) (p : Long) (h : P s) : P (s.popRegs f p ns) := by
  induction ns generalizing s p with
  | nil => exact h
  | cons n ns ih => exact ih _ _ (hreg _ _ _ (hread _ _ h))

/-! ### The turn (log 19, 47) -/

/-- What a turn can be: the machine's, with its marker consumed or none there, or a move of the environment. -/
theorem turn_cases (s : State) :
    (s.nextTurn false s.inputs = none ∧ s.turn = s.machineTurn) ∨
    (∃ rest, s.nextTurn false s.inputs = some (.machine, rest) ∧ s.turn = (s.setInputs rest).machineTurn) ∨
    (∃ m rest, s.nextTurn false s.inputs = some (.env m, rest) ∧ s.turn = envMove m (s.setInputs rest)) := by
  unfold State.turn
  cases h : s.nextTurn false s.inputs with
  | none => exact .inl ⟨rfl, rfl⟩
  | some p =>
    obtain ⟨t, rest⟩ := p
    cases t with
    | machine => exact .inr (.inl ⟨rest, rfl, rfl⟩)
    | env m => exact .inr (.inr ⟨m, rest, rfl, rfl⟩)

/-- The turn that comes is one of the list. -/
theorem nextTurn_mem {s : State} {held : Bool} {ts : List Turn} {t : Turn} {rest : List Turn}
    (h : s.nextTurn held ts = some (t, rest)) : t ∈ ts := by
  induction ts generalizing held rest with
  | nil => cases h
  | cons x xs ih =>
    unfold State.nextTurn at h
    split at h
    · simp only [Option.some.injEq, Prod.mk.injEq] at h
      exact List.mem_cons.mpr (.inl h.1.symm)
    · obtain ⟨⟨y, ys⟩, hy, he⟩ := Option.map_eq_some_iff.mp h
      simp only [Prod.mk.injEq] at he
      obtain ⟨rfl, rfl⟩ := he
      exact List.mem_cons.mpr (.inr (ih hy))

/-- A turn that can come and stands first comes first. -/
theorem nextTurn_head {s : State} {held : Bool} {t : Turn} {rest : List Turn} (h : t.canCome s held = true) :
    s.nextTurn held (t :: rest) = some (t, rest) := by
  unfold State.nextTurn
  rw [if_pos h]

/-- Where the next turn is the machine's, the step is the machine's turn. -/
theorem step_machineIsNext {s : State} {rest : List Turn} (h : s.machineIsNext rest) :
    step s = (s.setInputs rest).machineTurn := by
  show s.turn = _
  unfold State.turn
  rcases h with ⟨h, rfl⟩ | h
  · rw [h]
    show s.machineTurn = (s.setInputs []).machineTurn
    rw [← h]
    rfl
  · rw [h, nextTurn_head rfl]

/-- What the machine's own turn can be, by run state. -/
theorem machineTurn_cases (s : State) :
    ((s.run = .resetLow ∨ s.run = .halted) ∧ s.machineTurn = .next s) ∨
    (s.run = .initialising ∧ s.machineTurn = s.rasOnlyDone) ∨
    (∃ i, s.run = .running ∧ s.select = some i ∧ s.machineTurn = s.takeInterrupt i) ∨
    (s.run = .running ∧ s.select = none ∧ s.machineTurn = s.runInstruction) := by
  unfold State.machineTurn
  cases s.run with
  | resetLow => exact .inl ⟨.inl rfl, rfl⟩
  | halted => exact .inl ⟨.inr rfl, rfl⟩
  | initialising => exact .inr (.inl ⟨rfl, rfl⟩)
  | running =>
    cases h : s.select with
    | some i => exact .inr (.inr (.inl ⟨i, rfl, rfl, rfl⟩))
    | none => exact .inr (.inr (.inr ⟨rfl, rfl, rfl⟩))

/-- What a fetch can be: what RESET leaves, the stop on a stale word, or the word with the fetch noted. -/
theorem fetchWord_cases (s : State) (a : Long) :
    ((s.afterRead a 16).isCut = true ∧ s.fetchWord a = .error (.next (s.cutShort (s.afterRead a 16)))) ∨
    ((s.afterRead a 16).isCut = false ∧ (s.afterRead a 16).fetchIsStale a = true ∧
      s.fetchWord a = .error (.refused (.staleFetch a))) ∨
    ((s.afterRead a 16).isCut = false ∧ (s.afterRead a 16).fetchIsStale a = false ∧
      s.fetchWord a = .ok (s.fetched a 16, (s.afterRead a 16).noteFetch a)) := by
  simp only [State.fetchWord]
  cases (s.afterRead a 16).isCut
  · cases (s.afterRead a 16).fetchIsStale a
    · exact .inr (.inr ⟨rfl, rfl, rfl⟩)
    · exact .inr (.inl ⟨rfl, rfl, rfl⟩)
  · exact .inl ⟨rfl, rfl⟩

/-- A fetch on a quiet bus. -/
theorem fetchWord_quiet {s : State} (h : s.quiet) (a : Long) :
    s.fetchWord a = if s.fetchIsStale a then .error (.refused (.staleFetch a)) else .ok (s.peek a 16, s.noteFetch a) := by
  simp only [State.fetchWord, afterRead_quiet h, fetched_quiet h, isCut_quiet h]
  rfl

end Sys2Proof.Machine
end

