-- ==== Sys2Proof/Laws/Other.lean ====
section
/-! SUPPORT. What an instruction that `ExecOther` gives can do, once: its effects change the state only by the named operations,
and what it puts off comes at its end. -/

namespace Sys2Proof.Machine

/-- What each round of a repetition keeps, the repetition keeps. -/
theorem iterate_induct {P : Work → Prop} {f : Work → Work} (hf : ∀ w, P w → P (f w)) (n : Nat) {w : Work} (h : P w) :
    P (Work.iterate f n w) := by
  induction n generalizing w with
  | zero => exact h
  | succ n ih =>
    unfold Work.iterate
    split
    · exact h
    · exact ih (hf _ h)

/-- What register writes, reads, writes and moves of SP keep, every effect keeps. -/
theorem run_induct {P : State → Prop} (hreg : ∀ (s : State) f n v, P s → P (s.setReg f n v))
    (hsp : ∀ (s : State) v, P s → P (s.setSP v)) (hread : ∀ (s : State) a n, P s → P (s.afterRead a n))
    (hwrite : ∀ (s : State) a (k : Nat) (v : BitVec k), P s → P (s.write a v)) (e : Effect) {w : Work} (h : P w.state) :
    P (e.run w).state := by
  induction e generalizing w with
  | seq a b iha ihb =>
    unfold Effect.run
    split
    · exact iha h
    · exact ihb (iha h)
  | ite c a b iha ihb =>
    unfold Effect.run
    split
    · exact iha h
    · exact ihb h
  | times n a ih =>
    unfold Effect.run
    exact iterate_induct (P := fun w => P w.state) (fun _ hw => ih hw) _ h
  | setReg f n v => exact hreg _ _ _ _ h
  | load k addr width => exact hread _ _ _ h
  | store addr width v => exact hwrite _ _ _ _ h
  | push v => exact hwrite _ _ _ _ (hsp _ _ h)
  | pop k => exact hsp _ _ (hread _ _ _ h)
  | skip | setTmp _ _ | writeST _ | writeIoReg _ _ | writeHstctlBit _ _ | writeHstctlOther _ | requestWv | setRefresh _ =>
    exact h

/-- What each of the writes put off keeps, all of them together keep. -/
theorem finished_induct {P : State → Prop} {w : Work} (hend : ∀ s, ∀ e ∈ w.atEnd, P s → P (s.endWrite e)) (h : P w.state) :
    P w.finished := by
  unfold Work.finished
  generalize w.state = s at h
  generalize w.atEnd = es at hend
  induction es generalizing s with
  | nil => exact h
  | cons e es ih =>
    exact ih _ (hend s e List.mem_cons_self h) (fun s x hx => hend s x (List.mem_cons_of_mem _ hx))

/-- What running a meaning can answer: what RESET leaves, the refusal of HLT, the jump, or the advance past the words. -/
theorem runOther_cases (s : State) (m : OtherMeaning) (op : Word) (exts : List Word) :
    let w := m.effects.run (Work.start s op exts)
    (w.state.isCut = true ∧ s.runOther m op exts = .next (s.cutShort w.state)) ∨
    (w.state.isCut = false ∧ EndWrite.hstctlBit .hlt true ∈ w.atEnd ∧ s.runOther m op exts = .refused .haltWhileRunning) ∨
    (w.state.isCut = false ∧ EndWrite.hstctlBit .hlt true ∉ w.atEnd ∧
      ((∃ v, m.target = some v ∧ s.runOther m op exts = w.finished.loadPC (v.value w)) ∨
        (m.target = none ∧ s.runOther m op exts = .next (w.finished.advance (1 + m.extWords))))) := by
  intro w
  have hw : s.runOther m op exts = s.unlessCut w.state
      (if w.atEnd.contains (.hstctlBit .hlt true) then .refused .haltWhileRunning
      else
        match m.target with
        | some v => w.finished.loadPC (v.value w)
        | none => .next (w.finished.advance (1 + m.extWords))) := rfl
  rw [hw]
  rcases unlessCut_cases s w.state _ with ⟨hc, h⟩ | ⟨hc, h⟩
  · exact .inl ⟨hc, h⟩
  · rw [h]
    by_cases hh : EndWrite.hstctlBit .hlt true ∈ w.atEnd
    · exact .inr (.inl ⟨hc, hh, by rw [if_pos (List.contains_iff_mem.mpr hh)]⟩)
    · refine .inr (.inr ⟨hc, hh, ?_⟩)
      rw [if_neg (fun k => hh (List.contains_iff_mem.mp k))]
      cases m.target with
      | some v => exact .inl ⟨v, rfl, rfl⟩
      | none => exact .inr ⟨rfl, rfl⟩

/-- What an opcode word that is passed to `ExecOther` can answer: the refusal of a word without a meaning, what the fetch of an
extension word ends in, or its meaning. -/
theorem givenOpcode_cases (s : State) (op : Word) :
    (s.params.otherMeaning op = none ∧ s.givenOpcode op = .refused (.noMeaningGiven op)) ∨
    (∃ m o, s.params.otherMeaning op = some m ∧ s.fetchWords (s.pcNext 1) m.extWords = .error o ∧ s.givenOpcode op = o) ∨
    (∃ m exts t, s.params.otherMeaning op = some m ∧ s.fetchWords (s.pcNext 1) m.extWords = .ok (exts, t) ∧
      s.givenOpcode op = t.runOther m op exts) := by
  unfold State.givenOpcode
  cases s.params.otherMeaning op with
  | none => exact .inl ⟨rfl, rfl⟩
  | some m =>
    cases h : s.fetchWords (s.pcNext 1) m.extWords with
    | error o => exact .inr (.inl ⟨m, o, rfl, h, by simp only [h]⟩)
    | ok p => exact .inr (.inr ⟨m, p.1, p.2, rfl, h, by simp only [h]⟩)

end Sys2Proof.Machine
end

