-- ==== Sys2Proof/Laws/PerInstr.lean ====
section
/-! SUPPORT. The statements made for every instruction as syntax, one lemma per constructor. -/

namespace Sys2Proof.Laws

/-- The encoder gives as many words as the instruction is said to take (30_encoding.md R60, R64). -/
def EncodedLength.Statement (i : Instr) : Prop := (encode i).length = i.words

theorem EncodedLength.trap (n : BitVec 5) : EncodedLength.Statement (.trap n) := rfl
theorem EncodedLength.reti : EncodedLength.Statement .reti := rfl
theorem EncodedLength.rets (n : BitVec 5) : EncodedLength.Statement (.rets n) := rfl
theorem EncodedLength.jruc (d : BitVec 8) : EncodedLength.Statement (.jruc d) := rfl
theorem EncodedLength.divs (rs : RegNum) (f : RegFile) (rd : RegNum) : EncodedLength.Statement (.divs rs f rd) := rfl
theorem EncodedLength.mmtm (f : RegFile) (rp : RegNum) (list : Word) : EncodedLength.Statement (.mmtm f rp list) := rfl
theorem EncodedLength.mmfm (f : RegFile) (rp : RegNum) (list : Word) : EncodedLength.Statement (.mmfm f rp list) := rfl
theorem EncodedLength.pixbltBL : EncodedLength.Statement .pixbltBL := rfl
theorem EncodedLength.pixbltBXY : EncodedLength.Statement .pixbltBXY := rfl
theorem EncodedLength.pixbltLL : EncodedLength.Statement .pixbltLL := rfl
theorem EncodedLength.pixbltLXY : EncodedLength.Statement .pixbltLXY := rfl
theorem EncodedLength.pixbltXYL : EncodedLength.Statement .pixbltXYL := rfl
theorem EncodedLength.pixbltXYXY : EncodedLength.Statement .pixbltXYXY := rfl
theorem EncodedLength.fillL : EncodedLength.Statement .fillL := rfl
theorem EncodedLength.fillXY : EncodedLength.Statement .fillXY := rfl
theorem EncodedLength.line (z : BitVec 1) : EncodedLength.Statement (.line z) := rfl
theorem EncodedLength.illop0000 (low : BitVec 8) : EncodedLength.Statement (.illop0000 low) := rfl
theorem EncodedLength.illop0200 (low : BitVec 8) : EncodedLength.Statement (.illop0200 low) := rfl
theorem EncodedLength.illop0400 (low : BitVec 8) : EncodedLength.Statement (.illop0400 low) := rfl
theorem EncodedLength.illop0800 (low : BitVec 8) : EncodedLength.Statement (.illop0800 low) := rfl
theorem EncodedLength.illop0A00 (low : BitVec 8) : EncodedLength.Statement (.illop0A00 low) := rfl
theorem EncodedLength.illop0C00 (low : BitVec 8) : EncodedLength.Statement (.illop0C00 low) := rfl
theorem EncodedLength.illop0E00 (low : BitVec 8) : EncodedLength.Statement (.illop0E00 low) := rfl
theorem EncodedLength.illop3400 (low : BitVec 10) : EncodedLength.Statement (.illop3400 low) := rfl
theorem EncodedLength.illopBE00 (low : BitVec 9) : EncodedLength.Statement (.illopBE00 low) := rfl
theorem EncodedLength.maybe7E00 (low : BitVec 9) : EncodedLength.Statement (.maybe7E00 low) := rfl
theorem EncodedLength.maybe9E00 (low : BitVec 9) : EncodedLength.Statement (.maybe9E00 low) := rfl
theorem EncodedLength.maybeD800 (low : BitVec 10) : EncodedLength.Statement (.maybeD800 low) := rfl
theorem EncodedLength.maybeDC00 (low : BitVec 9) : EncodedLength.Statement (.maybeDC00 low) := rfl
theorem EncodedLength.maybeDE00 (low : BitVec 8) : EncodedLength.Statement (.maybeDE00 low) := rfl
theorem EncodedLength.maybeFE00 (low : BitVec 9) : EncodedLength.Statement (.maybeFE00 low) := rfl

end Sys2Proof.Laws
end

