-- ==== Sys2Proof/Machine/IoMap.lean ====
section
/-! DEFINITION. The parameters `IoAddr` and `HstctlBit` at their general-knowledge values (93_implementation_defined.md G4,
G5; D9, D10). No step uses them: the model reaches these registers by name. PRESUMED (log 9, 10). -/

namespace Sys2Proof.Machine

/-- The index of a register in the map of G4: its address is `>C0000000 + >10` times the index. -/
def IoReg.mapIndex : IoReg → Nat
  | .other .hesync => 0
  | .other .heblnk => 1
  | .other .hsblnk => 2
  | .other .htotal => 3
  | .other .vesync => 4
  | .other .veblnk => 5
  | .other .vsblnk => 6
  | .other .vtotal => 7
  | .other .dpyctl => 8
  | .other .dpystrt => 9
  | .dpyint => 10
  | .other .control => 11
  | .other .hstdata => 12
  | .other .hstadrl => 13
  | .other .hstadrh => 14
  | .intenb => 17
  | .intpend => 18
  | .other .convsp => 19
  | .other .convdp => 20
  | .other .psize => 21
  | .other .pmask => 22
  | .other .hcount => 27
  | .vcount => 28
  | .other .dpyadr => 29
  | .other .refcnt => 30
  | .other .dpytap => 31

/-- `IoAddr(reg)` (G4). -/
def IoReg.address (r : IoReg) : Long := 0xC0000000#32 + 16#32 * BitVec.ofNat 32 r.mapIndex

/-- `IoAddr(HSTCTL)` (G4), its low half HSTCTLL and its high half HSTCTLH (90_conflicts.md C3). -/
def hstctlAddresses : Long × Long := (0xC00000F0#32, 0xC0000100#32)

/-- `HstctlBit(name)` (G5). -/
def HstctlBit.position : HstctlBit → Nat
  | .nmi => 8
  | .nmim => 9
  | .intin => 3
  | .hlt => 15

/-- HSTCTL as one word by G5: HLT 15, NMIM 9, NMI 8, INTIN 3, and the unnamed bits 14:10, 7:4 and 2:0 from the highest. -/
def Hstctl.toWord (h : Hstctl) : Word :=
  BitVec.ofBool h.hlt ++ h.other.extractLsb' 7 5 ++ BitVec.ofBool h.nmim ++ BitVec.ofBool h.nmi ++ h.other.extractLsb' 3 4
    ++ BitVec.ofBool h.intin ++ h.other.extractLsb' 0 3

end Sys2Proof.Machine
end

