-- ==== Sys2Proof/Machine/Pins.lean ====
section
/-! DEFINITION. Table 8-7: the level of each output and bidirectional pin while RESET is low (10_state.md R25). Pin levels
are outside the executable model; no step uses them. -/

namespace Sys2Proof.Machine

/-- The pins Table 8-7 lists. `lostName` is the pin whose name reads "Y" in the source (N4). -/
inductive OutputPin where
  | ddout
  | lostName
  | trOe
  | ras
  | cas
  | w
  | hint
  | blank
  | hsync
  | vsync
  | hd (n : Fin 16)
  | lad (n : Fin 16)
  deriving DecidableEq, Repr

inductive PinLevel where
  | high
  | low
  | highImpedance
  deriving DecidableEq, Repr

/-- The level a pin is forced to while RESET is low (R25, R142). -/
def OutputPin.resetLevel : OutputPin → PinLevel
  | .ddout | .lostName | .trOe | .ras | .cas | .w | .hint => .high
  | .blank => .low
  | .hsync | .vsync => .highImpedance
  | .hd _ => .highImpedance
  | .lad _ => .highImpedance

/-- The level the spec gives a pin in a state: Table 8-7's while RESET is low, otherwise none. -/
def State.pinLevel (s : State) (p : OutputPin) : Option PinLevel :=
  if s.run = .resetLow then some p.resetLevel else none

end Sys2Proof.Machine
end

