-- ==== Sys2Proof/Machine/Timing.lean ====
section
/-! DEFINITION. The numbers of Tables 8-4 and 8-5 (70_reset_and_hazards.md R171, R173, R174), in machine states. "No rule of the
model depends on any number in this section": no step uses them (R176). -/

namespace Sys2Proof.Machine

/-- The context switch of Table 8-4: 16 states with SP at a word boundary, 28 otherwise (R171, note 3). -/
def contextSwitchStates (sp : Long) : Nat := if sp &&& 0xF#32 = 0#32 then 16 else 28

/-- The least and the greatest delay of a source of Table 8-4 that the table gives a number for (R171). -/
def recognitionStates : Nat × Nat := (1, 2)
def dramRefreshStates : Nat × Nat := (0, 2)
def screenRefreshStates : Nat × Nat := (0, 2)

/-- One host-indirect cycle, without wait states (R171, note 1). -/
def hostIndirectStates : Nat := 2

/-- The least interrupt latency (R173). -/
def leastLatency (sp : Long) : Nat := recognitionStates.1 + contextSwitchStates sp

/-- The greatest latency but for host-indirect cycles and instruction completion (R173). -/
def greatestLatency (sp : Long) : Nat :=
  recognitionStates.2 + dramRefreshStates.2 + screenRefreshStates.2 + contextSwitchStates sp

/-- The worst-case instruction interrupt time of the four rows of Table 8-5 (R174): `DIVS A0,A2`, `MMFM SP,ALL`,
`MMTM SP,ALL` and the `JRUC` to itself, for SP aligned or not. -/
def interruptTimeStates (spAligned : Bool) : Instr → Option Nat
  | .divs rs f rd => if rs = 0 ∧ f = .a ∧ rd = 2 then some 43 else none
  | .mmfm _ rp list => if rp = 15 ∧ list = 0xFFFF then some (if spAligned then 72 else 144) else none
  | .mmtm _ rp list => if rp = 15 ∧ list = 0xFFFF then some (if spAligned then 73 else 169) else none
  | .jruc d => if d = 0xFF then some 1 else none
  | .trap _ | .reti | .rets _ => none
  | .pixbltBL | .pixbltBXY | .pixbltLL | .pixbltLXY | .pixbltXYL | .pixbltXYXY => none
  | .fillL | .fillXY | .line _ => none
  | .illop0000 _ | .illop0200 _ | .illop0400 _ | .illop0800 _ | .illop0A00 _ | .illop0C00 _ | .illop0E00 _ => none
  | .illop3400 _ | .illopBE00 _ => none
  | .maybe7E00 _ | .maybe9E00 _ | .maybeD800 _ | .maybeDC00 _ | .maybeDE00 _ | .maybeFE00 _ => none

/-- Local clock periods RESET must stay low (R141) and RAS-only cycles after it (R149). -/
def resetMinPeriods : Nat := 40
def rasOnlyCycles : Nat := 8

end Sys2Proof.Machine
end

