-- ==== Sys2Proof/Tests/Slice0.lean ====
section
/-! SUPPORT. Tests: the well-formedness check, words written out from the patterns of 30_encoding.md, the vectors of
95_test_vectors.md, and for each statement with hypotheses a state and operands that meet them. -/

namespace Sys2Proof.Tests

set_option Elab.async false

open Sys2Proof.Machine

/-- The next state of an outcome, if it is one. -/
def nextOf (o : Host.Outcome State Fault Refusal) : Option State :=
  match o with
  | .next t => some t
  | .fault _ => none
  | .refused _ => none

theorem next_of_nextOf {o : Host.Outcome State Fault Refusal} {t : State} (h : nextOf o = some t) : o = .next t := by
  cases o <;> simp_all [nextOf]

/-- A running machine: the start state of V4 (95_test_vectors.md). -/
def base : State := { State.reset with run := .running, pc := 0x00010000, sp := 0x00080000, st := 0x00200010 }

/-- `base` with 32 bits of memory. -/
def baseWith (a v : Long) : State := { base with mem := Memory.write [] a v }

/-- The refusal of an outcome, if it is one. -/
def refusalOf (o : Host.Outcome State Fault Refusal) : Option Refusal :=
  match o with
  | .next _ => none
  | .fault _ => none
  | .refused r => some r

/-! ### Well-formedness and decoding -/

theorem test_wellFormed_refuses_jruc_00 : Instr.wellFormed (.jruc 0x00) = false := by decide
theorem test_wellFormed_refuses_jruc_80 : Instr.wellFormed (.jruc 0x80) = false := by decide
theorem test_wellFormed_accepts_jruc : Instr.wellFormed (.jruc 0x7F) = true := by decide

/-- `0000 1001 000N NNNN`, N = 5 and 31 (R64). -/
theorem test_decode_trap : decode 0b0000100100000101 0 = .ok (.trap 5) ∧ decode 0b0000100100011111 0 = .ok (.trap 31) := by
  decide +kernel
/-- `0000 1001 0100 0000`. -/
theorem test_decode_reti : decode 0b0000100101000000 0 = .ok .reti := by decide +kernel
/-- `0000 1001 011N NNNN`, N = 18. -/
theorem test_decode_rets : decode 0b0000100101110010 0 = .ok (.rets 18) := by decide +kernel
/-- `1100 0000 dddd dddd`. -/
theorem test_decode_jruc : decode 0b1100000010000001 0 = .ok (.jruc 0x81) := by decide +kernel
/-- `0101 100s sssF dddd`: source 9, file B, destination 6. -/
theorem test_decode_divs : decode 0b0101100100110110 0 = .ok (.divs 9 .b 6) := by decide +kernel
/-- `0000 1001 100F pppp` and a mask: file B, pointer 13. -/
theorem test_decode_mmtm : decode 0b0000100110011101 0x00F1 = .ok (.mmtm .b 13 0x00F1) := by decide +kernel
/-- `0000 1001 101F pppp` and a mask: file A, pointer 15. -/
theorem test_decode_mmfm : decode 0b0000100110101111 0xFFFF = .ok (.mmfm .a 15 0xFFFF) := by decide +kernel
theorem test_decode_pixblt :
    decode 0b0000111100000000 0 = .ok .pixbltBL ∧ decode 0b0000111100100000 0 = .ok .pixbltBXY ∧
    decode 0b0000111101000000 0 = .ok .pixbltLL ∧ decode 0b0000111101100000 0 = .ok .pixbltLXY ∧
    decode 0b0000111110000000 0 = .ok .pixbltXYL ∧ decode 0b0000111110100000 0 = .ok .pixbltXYXY := by decide +kernel
theorem test_decode_fill :
    decode 0b0000111111000000 0 = .ok .fillL ∧ decode 0b0000111111100000 0 = .ok .fillXY := by decide +kernel
/-- `1101 1111 Z001 1010`. -/
theorem test_decode_line :
    decode 0b1101111100011010 0 = .ok (.line 0) ∧ decode 0b1101111110011010 0 = .ok (.line 1) := by decide +kernel
/-- The bounds of the nine ranges of R61. -/
theorem test_decode_illop :
    decode 0x00FF 0 = .ok (.illop0000 0xFF) ∧ decode 0x02FF 0 = .ok (.illop0200 0xFF) ∧
    decode 0x0400 0 = .ok (.illop0400 0) ∧ decode 0x08FF 0 = .ok (.illop0800 0xFF) ∧
    decode 0x0A00 0 = .ok (.illop0A00 0) ∧ decode 0x0C00 0 = .ok (.illop0C00 0) ∧ decode 0x0EFF 0 = .ok (.illop0E00 0xFF) ∧
    decode 0x3400 0 = .ok (.illop3400 0) ∧ decode 0x37FF 0 = .ok (.illop3400 0x3FF) ∧
    decode 0xBFFF 0 = .ok (.illopBE00 0x1FF) := by decide +kernel
/-- The bounds of the four ranges of R62. -/
theorem test_decode_reconstructed :
    decode 0x7FFF 0 = .ok (.maybe7E00 0x1FF) ∧ decode 0x9E00 0 = .ok (.maybe9E00 0) ∧
    decode 0xD800 0 = .ok (.maybeD800 0) ∧ decode 0xDDFF 0 = .ok (.maybeDC00 0x1FF) ∧
    decode 0xDEFF 0 = .ok (.maybeDE00 0xFF) ∧ decode 0xFFFF 0 = .ok (.maybeFE00 0x1FF) := by decide +kernel
/-- V7: words in no range and of no named instruction. -/
theorem test_decode_other :
    decode 0x0100 0 = .error (.noRow 0x0100) ∧ decode 0x0941 0 = .error (.noRow 0x0941) ∧
    decode 0x3800 0 = .error (.noRow 0x3800) ∧ decode 0xBDFF 0 = .error (.noRow 0xBDFF) ∧
    decode 0xC000 0 = .error (.excludedField 0xC000) ∧ decode 0xD7FF 0 = .error (.noRow 0xD7FF) ∧
    decode 0xFDFF 0 = .error (.noRow 0xFDFF) := by decide +kernel
theorem test_decodeTableWord :
    decodeTableWord 16 0x0905 = some (.trap 5) ∧ decodeTableWord 32 0x8001098F = some (.mmtm .a 15 0x8001) ∧
    decodeTableWord 16 0x098F = some (.mmtm .a 15 0) ∧ decodeTableWord 16 0x0920 = none := by decide +kernel

/-! ### Memory (V8) and vectors (V1, S1) -/

theorem test_memory_words :
    (Memory.write [] 0x00001000#32 0x12345678#32).read 0x00001000 16 = 0x5678 ∧
    (Memory.write [] 0x00001000#32 0x12345678#32).read 0x00001010 16 = 0x1234 ∧
    (Memory.write [] 0x00001000#32 0x12345678#32).bit 0x00001003 = true ∧
    (Memory.write [] 0x00001000#32 0x12345678#32).bit 0x0000101C = true := by decide +kernel
theorem test_memory_unaligned :
    (Memory.write [] 0x00001004#32 0xABCD#16).read 0x00001000 16 = 0xBCD0 ∧
    (Memory.write [] 0x00001004#32 0xABCD#16).read 0x00001010 16 = 0x000A := by decide +kernel
theorem test_memory_zero_unlisted : Memory.write [(0x200, 0x78)] 0x00001000#32 0x00#8 = [] := by decide +kernel
theorem test_vectors :
    vectorAddr 0 = 0xFFFFFFE0 ∧ vectorAddr 1 = 0xFFFFFFC0 ∧ vectorAddr 8 = 0xFFFFFEE0 ∧ vectorAddr 11 = 0xFFFFFE80 ∧
    vectorAddr 30 = 0xFFFFFC20 ∧ vectorAddr 31 = 0xFFFFFC00 := by decide

/-! ### TRAP, RETI, RETS, JRUC (V4, V5) -/

def afterTrap5 : Option State := nextOf (exec (.trap 5) (baseWith 0xFFFFFF40 0x00020000))
/-- V4 case 1. -/
theorem test_trap_5 :
    afterTrap5.map (fun t => (t.sp, t.st, t.pc)) = some (0x0007FFC0, 0x00000010, 0x00020000) ∧
    afterTrap5.map (fun t => (t.mem.read 0x0007FFE0 32, t.mem.read 0x0007FFC0 32)) = some (0x00010010, 0x00200010) := by
  decide +kernel
/-- V4 case 2. -/
theorem test_trap_0 :
    (nextOf (exec (.trap 0) (baseWith 0xFFFFFFE0 0xFFFF0000))).map (fun t => (t.sp, t.st, t.pc)) =
      some (0x00080000, 0x00000010, 0xFFFF0000) := by decide +kernel
/-- V5 case 1, and case 4: popped PC `>00010018` loads `>00010010`. -/
theorem test_reti :
    (nextOf (exec .reti { base with
      sp := 0x0007FFC0, st := 0x10, mem := (Memory.write [] 0x0007FFC0#32 0x00200010#32).write 0x0007FFE0#32 0x00010018#32 })).map
        (fun t => (t.sp, t.st, t.pc)) = some (0x00080000, 0x00200010, 0x00010010) := by decide +kernel
/-- V5 case 3. -/
theorem test_reti_pbx : refusalOf (exec .reti (baseWith 0x00080000 0x02000010)) = some .resumePixelOperation := by
  decide +kernel
/-- R76: the PC is popped and SP goes past it, then past N words. -/
theorem test_rets :
    (nextOf (exec (.rets 2) (baseWith 0x00080000 0x00004560))).map (fun t => (t.pc, t.sp, t.st)) =
      some (0x00004560, 0x00080040, 0x00200010) := by decide +kernel
/-- R83: `>C0FF` jumps to itself; displacement `>7F` goes 127 words past the next word. -/
theorem test_jruc :
    (nextOf (exec (.jruc 0xFF) base)).map (·.pc) = some 0x00010000 ∧
    (nextOf (exec (.jruc 0x7F) base)).map (·.pc) = some 0x00010800 := by decide +kernel

/-! ### DIVS, MMTM, MMFM -/

/-- -7 divided by 2, truncated: quotient -3 in the odd destination. -/
theorem test_divs_odd :
    (nextOf (exec (.divs 0 .a 3) ((base.setReg .a 3 0xFFFFFFF9).setReg .a 0 2))).map (fun t => t.getReg .a 3) =
      some 0xFFFFFFFD := by decide +kernel
/-- The pair B4, B5 holding 2^32 + 5, divided by 2: quotient `>80000002` does not fit, by 4 it is `>40000001`, remainder 1. -/
theorem test_divs_even :
    (nextOf (exec (.divs 0 .b 4) (((base.setReg .b 4 1).setReg .b 5 5).setReg .b 0 4))).map
      (fun t => (t.getReg .b 4, t.getReg .b 5, t.pc)) = some (0x40000001, 1, 0x00010010) := by decide +kernel
/-- A0 and A2 pushed through SP: mask bits 15 and 13; A0 goes first, to the higher address. -/
theorem test_mmtm :
    (nextOf (exec (.mmtm .a 15 0xA000) ((base.setReg .a 0 0x11111111).setReg .a 2 0x22222222))).map
      (fun t => (t.sp, t.mem.read 0x0007FFE0 32, t.mem.read 0x0007FFC0 32, t.pc)) =
        some (0x0007FFC0, 0x11111111, 0x22222222, 0x00010020) := by decide +kernel
/-- A2 and A0 popped through SP: mask bits 2 and 0; A2 comes first, from the lower address. -/
theorem test_mmfm :
    (nextOf (exec (.mmfm .a 15 0x0005) { base with
      sp := 0x0007FFC0, mem := (Memory.write [] 0x0007FFE0#32 0x11111111#32).write 0x0007FFC0#32 0x22222222#32 })).map
        (fun t => (t.sp, t.getReg .a 0, t.getReg .a 2, t.pc)) =
          some (0x00080000, 0x11111111, 0x22222222, 0x00010020) := by decide +kernel

/-! ### Illegal opcodes (V6) -/

def afterIllop : Option State := nextOf (exec (.illop0000 0) (baseWith 0xFFFFFC20 0x00030000))
/-- V6 case 1, with the ST of `base`. -/
theorem test_illop :
    afterIllop.map (fun t => (t.sp, t.pc, t.mem.read 0x0007FFE0 32)) = some (0x0007FFC0, 0x00030000, 0x00010010) := by
  decide +kernel
theorem test_illop_3400 :
    (nextOf (exec (.illop3400 0x3FF) (baseWith 0xFFFFFC20 0x00030000))).map (·.pc) = some 0x00030000 := by decide +kernel

/-! ### Selection and entry (V2, V3) -/

/-- The state of a row of V2: `ST.IE`, `INTENB`, the five requests, `HSTCTL.NMI`. -/
def selecting (ie : Bool) (enables pend : Word) (nmi : Bool) : State :=
  { base with
    st := if ie then 0x00200010 else 0x00000010
    intenb := enables
    intpendHeld := pend &&& 0xFDF9
    lint1Low := pend.getLsbD 1
    lint2Low := pend.getLsbD 2
    hstctl := { nmi := nmi, nmim := false, intin := pend.getLsbD 9, hlt := false, other := 0 } }
theorem test_select_1_to_7 :
    (selecting true 0x0E06 0x0E06 true).select = some .nmi ∧ (selecting true 0x0E06 0x0E06 false).select = some .hi ∧
    (selecting true 0x0C06 0x0E06 false).select = some .di ∧ (selecting true 0x0006 0x0806 false).select = some .int1 ∧
    (selecting true 0x0004 0x0006 false).select = some .int2 ∧ (selecting false 0x0E06 0x0E06 false).select = none ∧
    (selecting false 0x0000 0x0000 true).select = some .nmi := by decide +kernel
theorem test_select_8_to_13 :
    (selecting true 0x0000 0x0E06 false).select = none ∧ (selecting true 0xFFFF 0x0000 false).select = none ∧
    (selecting true 0x0E06 0x0002 false).select = some .int1 ∧ (selecting true 0x0002 0x0004 false).select = none ∧
    (selecting true 0xF1F9 0xF1F9 false).select = none ∧ (selecting true 0x0800 0x0C00 false).select = some .wv := by
  decide +kernel

/-- The common start of V3. -/
def v3 : State :=
  { base with
    pc := 0x00001230
    st := 0x20200010
    sp := 0x00100000
    intenb := 0x0002
    mem := (Memory.write [] 0xFFFFFFC0#32 0x00002000#32).write 0xFFFFFEE0#32 0x00003000#32 }
def entered (s : State) : Option (Long × Long × Long) := (nextOf (step s)).map (fun t => (t.sp, t.st, t.pc))
/-- V3 case 1. -/
theorem test_entry_int1 : entered { v3 with lint1Low := true } = some (0x000FFFC0, 0x00000010, 0x00002000) := by
  decide +kernel
/-- V3 case 3. -/
theorem test_entry_nmi_nmim :
    entered { v3 with hstctl := { v3.hstctl with nmi := true, nmim := true } } = some (0x00100000, 0x00000010, 0x00003000) := by
  decide +kernel
/-- V3 case 6, its words. -/
theorem test_entry_unaligned :
    (nextOf (step { v3 with sp := 0x00100008, lint1Low := true })).map
      (fun t => (t.mem.read 0x000FFFD0 16, t.mem.read 0x000FFFE0 16, t.mem.read 0x000FFFF0 16)) =
        some (0x2000, 0x3020, 0x0012) := by decide +kernel
/-- V3 case 8: the push of ST overwrites vector 1 before it is read. -/
theorem test_entry_wraps : entered { v3 with sp := 0, lint1Low := true } = some (0xFFFFFFC0, 0x00000010, 0x20200010) := by
  decide +kernel
/-- V6 case 4: NMI first, with the illegal word's own address saved. -/
theorem test_nmi_before_illop :
    (nextOf (step { baseWith 0xFFFFFEE0 0x00003000 with hstctl := { base.hstctl with nmi := true } })).map
      (fun t => (t.pc, t.mem.read 0x0007FFE0 32)) = some (0x00003000, 0x00010000) := by decide +kernel

/-! ### Reset, host and fetch (V9, P1, R55) -/

/-- A draw of register and memory values for a reset. -/
def someDraw : PowerOn :=
  { fileA := Vector.replicate 15 7, fileB := Vector.replicate 15 8, sp := 9, ssa := Vector.replicate 4 1,
    mem := Memory.write [] 0x00005000#32 0xDEADBEEF#32 }
/-- V9 case 1: ROM with a reset vector, RESET low, RESET released with HCS low, RAS-only cycles. -/
def bootsFromRom : State :=
  { baseWith 0xFFFFFFE0 0xFFFF0000 with
    nonvolatile := [(0x1FFFFFFC, 0x20000000)], inputs := [.env .resetAsserted, .env (.resetReleased false someDraw)] }
theorem test_boot_from_rom :
    (match Host.Core.run core 3 bootsFromRom with | .next t => some (t.run, t.pc, t.st, t.sp) | _ => none) =
      some (RunState.running, 0xFFFF0000#32, 0x00000010#32, 9#32) := by decide +kernel
/-- V9 case 2: with HCS high the GSP halts. -/
theorem test_host_present_halts :
    (match Host.Core.run core 3 { base with inputs := [.env .resetAsserted, .env (.resetReleased true someDraw)] } with
      | .next t => some (t.run, t.hstctl.hlt) | _ => none) = some (RunState.halted, true) := by decide +kernel
/-- P1, first step: the fetched word `>0905` runs as `TRAP 5`. -/
theorem test_step_runs_trap :
    (nextOf (step { base with mem := (Memory.write [] 0xFFFFFF40#32 0x00020000#32).write 0x00010000#32 0x0905#16 })).map
      (·.pc) = some 0x00020000 := by decide +kernel
theorem test_withFetchWord_runs :
    (nextOf (step (State.reset.withFetchWord 16 0xC0FF))).map (fun t => (t.pc, t.run)) = some (0, .running) ∧
    (nextOf (step (State.reset.withFetchWord 16 0x5802))).map (·.pc) = some 0x10 := by decide +kernel
theorem test_reset_first_step : (nextOf (step State.reset)).map (fun t => (t.run, t.pc)) = some (.running, 0) := by
  decide +kernel

/-! ### Tables -/

/-- G4 and G5. -/
theorem test_io_map :
    IoReg.intenb.address = 0xC0000110 ∧ IoReg.intpend.address = 0xC0000120 ∧ IoReg.dpyint.address = 0xC00000A0 ∧
    IoReg.vcount.address = 0xC00001C0 ∧ (IoReg.other .dpytap).address = 0xC00001F0 ∧
    hstctlAddresses = (0xC00000F0, 0xC0000100) ∧
    Hstctl.toWord { nmi := true, nmim := false, intin := true, hlt := true, other := 0 } = 0x8108 := by decide
/-- S3: 17 and 22 states, 28 for the context switch with SP not aligned. -/
theorem test_latency :
    leastLatency 0x00080000 = 17 ∧ greatestLatency 0x00080000 = 22 ∧ contextSwitchStates 0x00080008 = 28 := by decide
/-- Table 8-7. -/
theorem test_pins : OutputPin.blank.resetLevel = .low ∧ OutputPin.ras.resetLevel = .high ∧
    (OutputPin.lad 3).resetLevel = .highImpedance := by decide

/-! ### The bus (R46, R53, R106, R154) -/

/-- The reset vector holds `>FFFF0000`; the host writes `>1234` over its upper half between the two cycles of the fetch. -/
theorem test_torn_vector :
    (nextOf (exec (.trap 0) { baseWith 0xFFFFFFE0 0xFFFF0000 with bus := [.cycle, .hostWrite 0xFFFFFFF0 0x1234] })).map (·.pc) =
      some 0x12340000 := by decide +kernel
/-- The same, but the host writes the lower half: the fetch has already read it. -/
theorem test_late_vector_write :
    (nextOf (exec (.trap 0) { baseWith 0xFFFFFFE0 0xFFFF0000 with bus := [.cycle, .hostWrite 0xFFFFFFE0 0x1230] })).map
      (fun t => (t.pc, t.peek 0xFFFFFFE0 16)) = some (0xFFFF0000, 0x1230) := by decide +kernel
/-- Between the two halves of the push of the PC `>00010010`, the host writes the low word, already stored. -/
theorem test_host_write_inside_push :
    (nextOf (exec (.trap 5) { base with bus := [.cycle, .hostWrite 0x0007FFE0 0xABCD] })).map
      (fun t => (t.peek 0x0007FFE0 32, t.peek 0x0007FFC0 32)) = some (0x0001ABCD, 0x00200010) := by decide +kernel
/-- RESET goes low after the first 16-bit cycle of that push: the low word is in memory, nothing else has happened. -/
theorem test_reset_inside_push :
    (nextOf (exec (.trap 5) { base with bus := [.cycle, .resetAsserted] })).map
      (fun t => (t.run, t.peek 0x0007FFE0 32, t.sp, t.pc, t.bus)) =
        some (RunState.resetLow, 0x00000010, 0x00080000, 0x00010000, []) := by decide +kernel
/-- RESET goes low inside `MMTM` after the first register: A0 is stored, the pointer is as it was. -/
theorem test_reset_inside_mmtm :
    (nextOf (exec (.mmtm .a 15 0xA000) { (base.setReg .a 0 0x11111111).setReg .a 2 0x22222222 with
      bus := [.cycle, .cycle, .resetAsserted] })).map
        (fun t => (t.run, t.peek 0x0007FFE0 32, t.peek 0x0007FFC0 32, t.sp)) =
          some (RunState.resetLow, 0x11111111, 0, 0x00080000) := by decide +kernel

/-! ### Parameters (R3) -/

/-- `base` with other parameters. -/
def baseUnder (p : Params) : State := { base with params := p }
/-- D2: the stack grows upward. -/
theorem test_stack_up :
    (nextOf (exec (.trap 5) (baseUnder { Params.standard with stackDir := .up }))).map
      (fun t => (t.sp, t.peek 0x00080020 32, t.peek 0x00080040 32)) = some (0x00080040, 0x00010010, 0x00200010) := by
  decide +kernel
/-- D1: with the other bit order the high word of a value lies at its address, and its highest bit there. -/
theorem test_high_first :
    ((baseUnder { Params.standard with bitOrder := .highFirst }).store 0x00001000 0x80005678#32).peek 0x00001000 16 = 0x8000 ∧
    ((baseUnder { Params.standard with bitOrder := .highFirst }).store 0x00001000 0x80005678#32).mem.bit 0x00001000 = true := by
  decide +kernel
/-- D4: the policy `refuse`, on a popped PC `>00010018`. -/
theorem test_pcLow4_refuse :
    refusalOf (exec (.rets 0) { baseWith 0x00080000 0x00010018 with params := { Params.supplying with pcLow4 := .refuse } }) =
      some (.pcNotAtWord 0x00010018) := by decide +kernel
/-- D6: a chip that clears DIP when it takes DI. -/
theorem test_clearOnTake_di :
    ({ baseUnder { Params.standard with clearOnTake := ⟨true, false, true, false⟩ } with
      intpendHeld := 0x0C00 }.clearOnTake .di).intpend = 0x0800 := by decide +kernel
/-- D11: the reconstruction of `>7E00` to `>7FFF` has been validated. -/
theorem test_declared_illegal :
    (nextOf (exec (.maybe7E00 0x1FF) { baseWith 0xFFFFFC20 0x00030000 with
      params := { Params.standard with moreIllegal := [(0x7E00, 0x7FFF)] } })).map (fun t => (t.pc, t.peek 0x0007FFE0 32)) =
        some (0x00030000, 0x00010010) ∧
    refusalOf (exec (.maybe7E00 0x1FF) base) = some .reconstructedRange := by decide +kernel
/-- D12: an encoding in which `RETI` is `>0941`. -/
theorem test_enc :
    decodeWith { Enc.standard with reti := 0x0941 } 0x0941 0 = .ok .reti ∧
    decodeWith { Enc.standard with reti := 0x0941 } 0x0940 0 = .error (.noRow 0x0940) := by decide +kernel
/-- Parameters under which the word `>0321` is a two-word instruction that loads INTENB with its extension word, sets IE and
pushes ST. -/
def withOther : Params :=
  { Params.standard with
    execOther := [⟨0xFFFF, 0x0321, 1,
      .seq (.writeIoReg .intenb (.ext 0)) (.seq (.writeST (.bin .or .status (.const 0x00200000))) (.push .status)), none⟩] }
/-- D19, R84: both writes come at the end, so the push stores the old ST. -/
theorem test_execOther :
    (nextOf (step { baseWith 0x00010000 0x0C060321 with params := withOther, st := 0x10 })).map
      (fun t => (t.intenb, t.st, t.pc, t.peek t.sp 32)) = some (0x0C06, 0x00200010, 0x00010020, 0x10) := by decide +kernel
/-- D21: INT1, pending, is enabled by that instruction and taken at the boundary after it. -/
theorem test_execOther_enables :
    (nextOf (step { baseWith 0x00010000 0x00020321 with params := withOther, st := 0x10, lint1Low := true })).map
      (·.select) = some (some Interrupt.int1) := by decide +kernel
/-- Parameters under which `0000 0011 010F dddd` sets its register to the sum of as many 8-bit fields from A1 upward as A0 says,
and jumps 32 bits back where the sum is not 0. -/
def withLoop : Params :=
  { Params.standard with
    execOther := [⟨0xFFE0, 0x0340, 0,
      .seq (.setTmp 0 (.reg (.const 0) (.const 1)))
        (.seq (.times (.reg (.const 0) (.const 0))
            (.seq (.load 1 (.tmp 0) (.const 8))
              (.seq (.setTmp 2 (.bin .add (.tmp 2) (.tmp 1))) (.setTmp 0 (.bin .add (.tmp 0) (.const 8))))))
          (.setReg (.bin .shiftRight .opcode (.const 4)) .opcode (.tmp 2))),
      some (.ite (.tmp 2) (.bin .sub .pc (.const 32)) (.bin .add .pc (.const 16)))⟩] }
/-- `>0355` with three fields 1, 2 and 3: B5 is 6. -/
theorem test_execOther_loop :
    (nextOf (step (({ base with
      params := withLoop
      mem := (Memory.write [] 0x00010000#32 0x0355#16).write 0x00002000#32 0x04030201#32 }.setReg .a 0 3).setReg .a 1 0x2000))).map
        (fun t => (t.getReg .b 5, t.pc)) = some (6, 0x0000FFE0) := by decide +kernel
/-- R76: `RETS` is passed to `ExecOther`, which here gives `>0960` another meaning: it only pops the PC, and SP stays past it. -/
theorem test_execOther_rets :
    (nextOf (step { base with
      sp := 0x00010010
      mem := (Memory.write [] 0x00010000#32 0x0961#16).write 0x00010010#32 0x00004560#32
      params := { Params.standard with execOther := [⟨0xFFE0, 0x0960, 0, .pop 0, some (.tmp 0)⟩] } })).map
        (fun t => (t.pc, t.sp)) = some (0x00004560, 0x00010030) := by decide +kernel
/-- R76: where `ExecOther` does not supply `RETS`, its word is refused. -/
theorem test_rets_not_supplied :
    refusalOf (step { baseWith 0x00010000 0x00000961 with
      params := { Params.supplying with supplied := ⟨false, true, true, true, true⟩ } }) = some (.noMeaningGiven 0x0961) := by
  decide +kernel
/-- `baseWith` at the PC, under R3's defaults. -/
def byDefault (v : Long) : State := { baseWith 0x00010000 v with params := Params.standard }
/-- R3, R76: the default of every parameter; `ExecOther` gives nothing, so none of the five named instructions runs. -/
theorem test_defaults :
    Params.standard = ⟨.lowFirst, .down, .forceZero, ⟨true, false, false, false⟩, [], Enc.standard, [],
      ⟨false, false, false, false, false⟩⟩ ∧
    refusalOf (step (byDefault 0x00000961)) = some (.noMeaningGiven 0x0961) ∧
    refusalOf (step (byDefault 0x0000C0FF)) = some (.noMeaningGiven 0xC0FF) ∧
    refusalOf (step (byDefault 0x00005802)) = some (.noMeaningGiven 0x5802) ∧
    refusalOf (step (byDefault 0x8001099D)) = some (.noMeaningGiven 0x099D) ∧
    refusalOf (step (byDefault 0x800109BE)) = some (.noMeaningGiven 0x09BE) := by decide +kernel
/-- The parameters of `State.reset` are those defaults but for what `ExecOther` supplies. -/
theorem test_reset_params :
    { State.reset.params with supplied := Params.standard.supplied } = Params.standard ∧
    State.resetUnder State.reset.params = State.reset ∧ (State.resetUnder Params.standard).params = Params.standard := by
  decide +kernel
/-- R14: fields of 16, 32, 5 and 31 bits under both extension bits; ST of reset, and one with FS0 = 5, FE0 = 1, FS1 = 16, FE1 = 1. -/
theorem test_fields :
    asField0 stEntry 0xFFFF8000 = 0x00008000 ∧ asField1 stEntry 0xFFFF8000 = 0xFFFF8000 ∧
    asField0 0x00000C25 0x12345670 = 0xFFFFFFF0 ∧ asField0 0x00000C25 0xFFFFFFEF = 0x0000000F ∧
    asField1 0x00000C25 0x00018000 = 0xFFFF8000 ∧ asField1 0x00000820 0x80000001 = 0x80000001 ∧
    asField0 0x0000003F 0x40000000 = 0xC0000000 := by decide +kernel
/-- R14: `>0321` here stores A1 as field 0 in A2; FS0 = 8, FE0 = 1. -/
theorem test_execOther_field :
    (nextOf (step ({ baseWith 0x00010000 0x00000321 with
      st := 0x28
      params := { Params.standard with
        execOther := [⟨0xFFFF, 0x0321, 0, .setReg (.const 0) (.const 2) (.field0 (.reg (.const 0) (.const 1))), none⟩] } }.setReg
          .a 1 0x1280))).map (·.getReg .a 2) = some 0xFFFFFF80 := by decide +kernel
/-- The operations of a source at their corners. -/
theorem test_source_ops :
    BinOp.sext.value 0x80 8 = 0xFFFFFF80 ∧ BinOp.sext.value 0x7F 8 = 0x7F ∧ BinOp.sext.value 0xFF 0 = 0 ∧
    BinOp.zext.value 0xFFFFFFFF 5 = 0x1F ∧ BinOp.shiftLeft.value 1 0xFFFFFFFF = 0 ∧ BinOp.shiftRightSigned.value 0x80000000 40 =
      0xFFFFFFFF ∧ BinOp.mulHighSigned.value 0xFFFFFFFF 2 = 0xFFFFFFFF ∧ BinOp.mulHigh.value 0xFFFFFFFF 2 = 1 ∧
    BinOp.divSigned.value 0xFFFFFFF9 2 = 0xFFFFFFFD ∧ BinOp.lessSigned.value 0xFFFFFFFF 0 = 1 ∧
    UnOp.leadingZeros.value 1 = 31 ∧ UnOp.leadingZeros.value 0 = 32 := by decide +kernel
/-- R122, D17: an instruction that writes 1 to HLT of the running GSP. -/
theorem test_execOther_hlt :
    refusalOf (step { baseWith 0x00010000 0x00000321 with
      params := { Params.standard with execOther := [⟨0xFFFF, 0x0321, 0, .writeHstctlBit .hlt (.const 1), none⟩] } }) =
        some .haltWhileRunning := by decide +kernel
/-- `>0321` at the PC writes `v` to INTIN, which holds `old`. -/
def writesIntin (old : Bool) (v : Long) : State :=
  { baseWith 0x00010000 0x00000321 with
    st := 0x10
    hstctl := { base.hstctl with intin := old }
    params := { Params.standard with execOther := [⟨0xFFFF, 0x0321, 0, .writeHstctlBit .intin (.const v), none⟩] } }
/-- R99: an instruction that clears INTIN withdraws HI; log 51: one that sets INTIN requests it. -/
theorem test_execOther_intin :
    (nextOf (step (writesIntin true 0))).map (·.intpend) = some 0 ∧
    (nextOf (step (writesIntin false 1))).map (·.intpend) = some 0x0200 := by decide +kernel
/-- R102: an instruction that requests the window violation interrupt. -/
theorem test_execOther_wv :
    (nextOf (step { baseWith 0x00010000 0x00000321 with
      params := { Params.standard with execOther := [⟨0xFFFF, 0x0321, 0, .requestWv, none⟩] } })).map (·.intpend) =
        some 0x0800 := by decide +kernel

/-! ### Writes of INTPEND (R101, D21) -/

/-- DIP and WVP set, LINT1 low, unnamed bits 0 and 15 as given. -/
def pendingAll : State := { base with intpendHeld := 0x0C00, lint1Low := true, hstctl := { base.hstctl with intin := true } }
/-- Bits 1, 2 and 9 cannot be written. -/
theorem test_intpend_pins :
    (pendingAll.writeIoReg .intpend 0x0000).intpend &&& 0x0206 = 0x0202 ∧
    (base.writeIoReg .intpend 0x0206).intpend &&& 0x0206 = 0x0000 := by decide +kernel
/-- Bits 10 and 11: a 0 clears, a 1 keeps what is set and sets nothing. -/
theorem test_intpend_dip_wvp :
    (pendingAll.writeIoReg .intpend 0x0800).intpend &&& 0x0C00 = 0x0800 ∧
    (pendingAll.writeIoReg .intpend 0x0400).intpend &&& 0x0C00 = 0x0400 ∧
    (base.writeIoReg .intpend 0x0C00).intpend &&& 0x0C00 = 0x0000 := by decide +kernel
/-- Unnamed bits 0 and 15 are kept as written. -/
theorem test_intpend_unnamed :
    (base.writeIoReg .intpend 0x8001).intpend = 0x8001 ∧
    ((base.writeIoReg .intpend 0x8001).writeIoReg .intpend 0x0000).intpend = 0x0000 := by decide +kernel

/-! ### Moves of the environment (R94, R126, R155) -/

/-- A machine with these turns to come. -/
def coming (s : State) (ts : List Turn) : State := { s with inputs := ts }
/-- LINT1 low, the word at the PC unread: the next step takes INT1. -/
theorem test_lint1_move :
    (nextOf (step (coming v3 [.env (.lint1 true)]))).map (fun t => (t.select, t.pc)) = some (some Interrupt.int1, 0x1230) := by
  decide +kernel
/-- R126 f: the host loads INTENB of a halted GSP. -/
theorem test_host_loads_intenb :
    (nextOf (step (coming { base with run := .halted } [.env (.hostIo .intenb 0x0E06)]))).map (·.intenb) = some 0x0E06 := by
  decide +kernel
/-- R155: the host clears HLT while the RAS-only cycles run; their end then starts the GSP. -/
theorem test_hlt_cleared_while_initialising :
    (match Host.Core.run core 2 (coming (State.reset.writeHstctlBit .hlt true) [.env (.hostHstctl .hlt false)]) with
      | .next t => some (t.run, t.hstctl.hlt) | _ => none) = some (RunState.running, false) := by decide +kernel
/-- R51: a host write waits for the end of the RAS-only cycles, and so does the NMI behind it (R54); then both come. -/
theorem test_held_access :
    (match Host.Core.run core 3 (coming (State.reset.writeHstctlBit .hlt true)
        [.env (.hostWrite 0x1000 0xABCD), .env (.hostHstctl .nmi true)]) with
      | .next t => some (t.run, t.peek 0x1000 16, t.hstctl.nmi) | _ => none) =
        some (RunState.halted, 0xABCD#16, true) := by decide +kernel
/-- A host write tried while RESET is low lets the rise of RESET past it (log 47). -/
theorem test_held_access_in_reset :
    (nextOf (step (coming { base with run := .resetLow } [.env (.hostWrite 0x1000 1), .env (.resetReleased false someDraw)]))).map
      (fun t => (t.run, t.inputs)) = some (RunState.initialising, [.env (.hostWrite 0x1000 1)]) := by decide +kernel

/-! ### States and operands that meet the hypotheses of the statements -/

theorem witness_DecodeOfEncode : Instr.wellFormed (.mmtm .a 15 0xFFFF) = true ∧ Instr.wellFormed (.jruc 0x01) = true := by decide
theorem witness_EncodeOfDecode : decode 0x098F 0x8000 = .ok (.mmtm .a 15 0x8000) := by decide +kernel
theorem witness_IllegalOpcodes : Instr.isIllop (.illop3400 0x3FF) = true := by decide
theorem witness_Reconstructed : Instr.isReconstructed (.maybeD800 0) = true := by decide
/-- The declared clause, at both ends of a range, and the other clause one opcode below it. -/
theorem witness_Reconstructed_declared :
    (∃ r ∈ [(0xD801#16, 0xDBFF#16)], r.1.toNat ≤ (Instr.maybeD800 1).opcode.toNat ∧ (Instr.maybeD800 1).opcode.toNat ≤ r.2.toNat) ∧
    (∃ r ∈ [(0xD801#16, 0xDBFF#16)], r.1.toNat ≤ (Instr.maybeD800 0x3FF).opcode.toNat ∧
      (Instr.maybeD800 0x3FF).opcode.toNat ≤ r.2.toNat) ∧
    (∀ r ∈ [(0xD801#16, 0xDBFF#16)], ¬ (r.1.toNat ≤ (Instr.maybeD800 0).opcode.toNat ∧
      (Instr.maybeD800 0).opcode.toNat ≤ r.2.toNat)) :=
  ⟨⟨_, List.mem_singleton.mpr rfl, by decide⟩, ⟨_, List.mem_singleton.mpr rfl, by decide⟩,
    fun r hr => by rw [List.mem_singleton.mp hr]; decide⟩
/-- The two recurring premises. -/
theorem witness_quiet : base.quiet ∧ base.params.pcLow4 = .forceZero ∧ base.params.clearOnTake.nmi = true ∧
    base.params.enc = Enc.standard ∧ base.params.execOther = [] ∧ base.params.supplied.jruc = true ∧
    base.params.moreIllegal = [] := by
  unfold State.quiet; decide
theorem witness_machineIsNext : base.machineIsNext [] ∧ (coming base [.machine, .env .hblankStart]).machineIsNext [.env .hblankStart] := by
  unfold State.machineIsNext; decide
theorem witness_BitOrder : base.params.bitOrder = .lowFirst ∧
    (baseUnder { Params.standard with bitOrder := .highFirst }).params.bitOrder = .highFirst := by decide
theorem witness_VectorAddress : (baseWith 0xFFFFFF40 0x00020000).peek (vectorAddr 5) 32 &&& 0xF#32 = 0#32 ∧
    (baseWith 0xFFFFFF40 0x00020000).peek (vectorAddr 5) 32 = 0x00020000#32 := by decide +kernel
theorem witness_HostWrite : ∃ s : State, s.inputs = [.env (.hostWrite 0x1000 0xABCD)] ∧ s.run = .running :=
  ⟨coming base [.env (.hostWrite 0x1000 0xABCD)], by decide⟩
theorem witness_HostWrite_halted : ∃ s : State, s.inputs = [.env (.hostWrite 0 1)] ∧ s.run = .halted :=
  ⟨coming { base with run := .halted } [.env (.hostWrite 0 1)], by decide⟩
/-- The three bus lists of HostWriteInsideAnEntry. -/
theorem witness_HostWriteInside :
    (∃ s : State, s.params.bitOrder = .lowFirst ∧ s.params.pcLow4 = .forceZero ∧
      s.bus = [.cycle, .hostWrite (vectorAddr 8 + 16#32) 0x1234]) ∧
    (∃ s : State, s.params.bitOrder = .lowFirst ∧ s.bus = [.cycle, .hostWrite (vectorAddr 8) 0x1234]) ∧
    (∃ s : State, s.params.bitOrder = .lowFirst ∧ s.sp &&& 0xF#32 = 0#32 ∧
      s.bus = [.cycle, .cycle, .hostWrite (s.params.stackDir.pushed s.sp 1) 0x1234]) :=
  ⟨⟨{ base with bus := [.cycle, .hostWrite (vectorAddr 8 + 16#32) 0x1234] }, by decide⟩,
    ⟨{ base with bus := [.cycle, .hostWrite (vectorAddr 8) 0x1234] }, by decide⟩,
    ⟨{ base with bus := [.cycle, .cycle, .hostWrite 0x0007FFE0 0x1234] }, by decide⟩⟩
theorem witness_TrapSaves : (1 : BitVec 5) ≠ 0#5 ∧ (31 : BitVec 5) ≠ 0#5 := by decide
theorem witness_RetiPops : ((baseWith 0x00080000 0xFDFFFFFF).peek 0x00080000 32).getLsbD 25 = false := by decide +kernel
theorem witness_RetiRefuses : ((baseWith 0x00080000 0x02000000).peek 0x00080000 32).getLsbD 25 = true := by decide +kernel
theorem witness_RetiUndoesTrap : base.st.getLsbD 25 = false ∧ base.pc &&& 0xF#32 = 0#32 := by decide
theorem witness_SelfJumpWaits : ∃ s : State, s.run = .running ∧ s.machineIsNext [.env .hblankStart] ∧ s.quiet ∧
    s.params.enc = Enc.standard ∧ s.select = none ∧ s.fetchIsStale s.pc = false ∧ s.peek s.pc 16 = 0xC0FF#16 :=
  ⟨coming { base with mem := Memory.write [] 0x00010000#32 0xC0FF#16 } [.machine, .env .hblankStart], by
    unfold State.machineIsNext State.quiet; decide +kernel⟩
/-- The even and the odd clause, each at the greatest quotient that fits. -/
theorem witness_DivsIsSigned :
    (BitVec.ofNat 4 2).getLsbD 0 = false ∧ (0x00000000#32 ++ 0x7FFFFFFF#32 : BitVec 64).toInt.tdiv (1#32).toInt < 2 ^ 31 ∧
    -(2 ^ 31) ≤ (0xFFFFFFFF#32 ++ 0x80000000#32 : BitVec 64).toInt.tdiv (1#32).toInt ∧
    (BitVec.ofNat 4 3).getLsbD 0 = true ∧ (0x80000000#32).toInt.tdiv (1#32).toInt < 2 ^ 31 := by decide +kernel
theorem witness_Mmtm : (mmtmList 0x8001)[0]? = some 0 ∧ (mmtmList 0x8001)[1]? = some 15 ∧ (0 : RegNum) ≠ 3 ∧
    (15 : RegNum) ∉ mmtmList 0xA000 := by decide +kernel
theorem witness_Mmfm : (mmfmList 0x8001)[0]? = some 15 ∧ (mmfmList 0x8001)[1]? = some 0 ∧ (15 : RegNum) ∉ mmfmList 0x0005 := by
  decide +kernel
theorem witness_Untouched : untouched .a [15] .b 14 ∧ untouched .a [3] .b 3 ∧ ¬ untouched .a [15] .b 15 := by
  unfold untouched; decide
/-- The meaning of OtherOpcodeTakesItsMeaning for one opcode word. -/
def otherWord (op : Word) : OtherMeaning :=
  ⟨0xFFFF, op, 0,
    .seq (.writeIoReg .intenb (.const 0x0E06)) (.seq (.writeST (.const 0x00200010)) (.push .status)), none⟩
theorem witness_OtherOpcode : ∃ s : State, s.run = .running ∧ s.machineIsNext [] ∧ s.quiet ∧ s.select = none ∧
    s.fetchIsStale s.pc = false ∧ s.peek s.pc 16 = 0x0321#16 ∧
    decodeWith s.params.enc 0x0321 0 = .error (.noRow 0x0321) ∧ s.params.moreIllegal = [] ∧
    s.params.execOther = [otherWord 0x0321] :=
  ⟨{ baseWith 0x00010000 0x00000321 with params := { Params.standard with execOther := [otherWord 0x0321] } }, by
    unfold State.machineIsNext State.quiet; decide +kernel⟩
/-- The other clause: the word of an instruction that is passed on. -/
theorem witness_OtherOpcode_named : ∃ s : State, s.run = .running ∧ s.machineIsNext [] ∧ s.quiet ∧ s.select = none ∧
    s.fetchIsStale s.pc = false ∧ s.peek s.pc 16 = 0x5802#16 ∧ decodeWith s.params.enc 0x5802 0 = .ok (.divs 0 .a 2) ∧
    passedOn (.divs 0 .a 2) = true ∧ s.params.execOther = [otherWord 0x5802] :=
  ⟨{ baseWith 0x00010000 0x00005802 with params := { Params.supplying with execOther := [otherWord 0x5802] } }, by
    unfold State.machineIsNext State.quiet; decide +kernel⟩
theorem witness_ExternalOneFirst : ∃ s : State, s.lint1Low = true ∧ s.lint2Low = true ∧ Interrupt.int1.enabled s = true ∧
    Interrupt.int2.enabled s = true ∧
    ∀ i ∈ [Interrupt.nmi, .hi, .di, .wv], ¬ (i.pending s = true ∧ i.enabled s = true) :=
  ⟨selecting true 0x0006 0x0006 false, by decide +kernel⟩
theorem witness_UnnamedMaskBits : (0xF1F9#16 &&& 0x0E06#16 = base.intenb &&& 0x0E06#16) ∧
    (0xF3FF#16 &&& 0x0C00#16 = base.intpendHeld &&& 0x0C00#16) := by decide
theorem witness_SelectedTaken : (selecting true 0x0004 0x0004 false).select = some .int2 ∧
    (selecting true 0x0800 0x0800 false).select = some .wv ∧ (selecting false 0 0 true).select = some .nmi ∧
    (selecting false 0 0 true).hstctl.nmim = false ∧ (selecting true 0 0 true).run = .running ∧
    (selecting true 0 0 true).inputs = [] ∧ (selecting true 0 0 true).bus = [] := by decide +kernel
/-- Every request pending, and every `ClearOnTake` set: each clause has its premise. -/
theorem witness_ClearOnTake : ∃ s : State, s.params.clearOnTake = ⟨true, true, true, true⟩ ∧
    ∀ i ∈ [Interrupt.nmi, .hi, .di, .wv, .int1, .int2], i.pending s = true :=
  ⟨{ selecting true 0x0E06 0x0E06 true with params := { Params.standard with clearOnTake := ⟨true, true, true, true⟩ } }, by
    decide +kernel⟩
theorem witness_NmiWithNmim : ∃ s : State, s.run = .running ∧ s.machineIsNext [] ∧ s.hstctl.nmi = true ∧
    s.hstctl.nmim = true ∧ s.params.clearOnTake.nmi = true :=
  ⟨{ base with hstctl := { base.hstctl with nmi := true, nmim := true } }, by unfold State.machineIsNext; decide⟩
/-- An entry whose first clause is not empty although the host writes inside it. -/
theorem witness_EntryWritesStatus : ∃ s t : State, s.takeTrap 5 true 0x10 0x20 = .next t ∧ t.run ≠ .resetLow ∧ ¬ s.quiet := by
  have h : (nextOf (State.takeTrap { base with bus := [.hostWrite 0x1000 1, .cycle] } 5 true 0x10 0x20)).map (·.run) =
      some .running := by decide +kernel
  obtain ⟨t, ht, hr⟩ := Option.map_eq_some_iff.mp h
  exact ⟨_, t, next_of_nextOf ht, by rw [hr]; decide, by unfold State.quiet; decide⟩
theorem witness_BoundaryEntry : Interrupt.nmi ∈ [Interrupt.nmi, .hi, .di, .wv, .int1, .int2] ∧ base.hstctl.nmim = false ∧
    stPBX ({ base with st := 0x02200010 } : State).st = true := by decide
theorem witness_Display : ∃ s : State, s.inputs = [.env .hblankStart] ∧ s.vcount = s.dpyint :=
  ⟨coming base [.env .hblankStart], by decide⟩
theorem witness_Display_other : ∃ s : State, s.inputs = [.env .hblankStart] ∧ s.vcount ≠ s.dpyint :=
  ⟨coming { base with vcount := 1 } [.env .hblankStart], by decide⟩
theorem witness_IoRegister : IoReg.intenb ≠ .intpend ∧ IoReg.intpend ≠ .intenb := by decide
theorem witness_PinMoves : (∃ s : State, s.inputs = [.env (.lint1 true)]) ∧ (∃ s : State, s.inputs = [.env (.lint2 false)]) ∧
    ∃ s : State, s.inputs = [.env (.vcount 0xFFFF)] :=
  ⟨⟨coming base [.env (.lint1 true)], by decide⟩, ⟨coming base [.env (.lint2 false)], by decide⟩,
    ⟨coming base [.env (.vcount 0xFFFF)], by decide⟩⟩
theorem witness_ResetRelease : ∃ s : State, s.run = .resetLow ∧ s.inputs = [.env (.resetReleased true someDraw)] :=
  ⟨coming { base with run := .resetLow } [.env (.resetReleased true someDraw)], by decide +kernel⟩
theorem witness_ResetAsserted : ∃ s : State, s.inputs = [.env .resetAsserted] := ⟨coming base [.env .resetAsserted], by decide⟩
theorem witness_ResetInside : ∃ s : State, s.sp &&& 0xF#32 = 0#32 ∧ s.bus = [.cycle, .cycle, .resetAsserted, .cycle] :=
  ⟨{ base with bus := [.cycle, .cycle, .resetAsserted, .cycle] }, by decide⟩
theorem witness_ResetInside_instr : ∃ s t : State, exec (.trap 5) s = .next t ∧ t.run ≠ s.run :=
  ⟨{ base with bus := [.resetAsserted] }, { base with run := .resetLow }, next_of_nextOf (by decide +kernel), by decide⟩
theorem witness_EndOfRas : State.reset.run = .initialising ∧ State.reset.machineIsNext [] ∧ State.reset.hstctl.hlt = false ∧
    State.reset.quiet := by unfold State.machineIsNext State.quiet; decide
theorem witness_EndOfRas_host : ∃ s : State, s.run = .initialising ∧ s.machineIsNext [] ∧ s.hstctl.hlt = true :=
  ⟨State.reset.writeHstctlBit .hlt true, by unfold State.machineIsNext; decide⟩
theorem witness_Halted : ∃ s u : State, s.run = .halted ∧ s.machineIsNext [] ∧ u.run = .resetLow ∧ u.machineIsNext [] :=
  ⟨{ base with run := .halted }, { base with run := .resetLow }, by unfold State.machineIsNext; decide⟩
theorem witness_HostClearsHlt : ∃ s : State, s.run = .halted ∧ s.inputs = [.env (.hostHstctl .hlt false)] ∧ s.quiet :=
  ⟨coming { base with run := .halted } [.env (.hostHstctl .hlt false)], by unfold State.quiet; decide⟩
/-- A host write of HLT in each run state that its statement names. -/
theorem witness_HostHlt :
    ∀ p ∈ [(RunState.resetLow, true), (.initialising, false), (.halted, true), (.running, false)], ∃ s : State,
      s.run = p.1 ∧ s.inputs = [.env (.hostHstctl .hlt p.2)] := by
  intro p _
  exact ⟨coming { base with run := p.1 } [.env (.hostHstctl .hlt p.2)], rfl, rfl⟩
theorem witness_HostMoves :
    ∀ m ∈ [EnvMove.hostHstctl .nmi true, .hostHstctl .nmim false, .hostHstctl .intin true, .hostHstctlOther 0xFFF,
      .hostIo .dpyint 0xFFFF, .hostRead 0xFFFFFFFF, .hostRefresh 0], ∃ s : State, s.run = .halted ∧ s.inputs = [.env m] := by
  intro m _
  exact ⟨coming { base with run := .halted } [.env m], rfl, rfl⟩
theorem witness_EndsTheHalt :
    (nextOf (step (coming { base with run := .halted } [.env (.hostHstctl .hlt false)]))).map (·.run) = some .running ∧
    (nextOf (step (coming { base with run := .halted } [.env .resetAsserted]))).map (·.run) = some .resetLow := by
  decide +kernel
theorem witness_UndescribedMoves : ∃ s : State, s.run = .running ∧ s.inputs = [.env (.hostHstctl .hlt true)] :=
  ⟨coming base [.env (.hostHstctl .hlt true)], by decide⟩
theorem witness_UndescribedMoves_pulse : ∃ s : State, s.inputs = [.env .shortResetPulse] :=
  ⟨coming base [.env .shortResetPulse], by decide⟩
/-- The three accesses, in both run states; the rise of RESET behind one is `test_held_access_in_reset`. -/
theorem witness_HostAccessHeld :
    ∀ m ∈ [EnvMove.hostWrite 0x1000 1, .hostRead 0x1000, .hostIo .intenb 1], ∃ s u : State,
      s.run = .initialising ∧ s.inputs = [.env m] ∧ s.quiet ∧ u.run = .resetLow ∧ u.inputs = [.env m] := by
  intro m _
  exact ⟨coming State.reset [.env m], coming { base with run := .resetLow } [.env m], rfl, rfl, rfl, rfl, rfl⟩
theorem witness_StepRuns : ∃ s : State, s.run = .running ∧ s.machineIsNext [] ∧ s.quiet ∧ s.select = none ∧
    decodeWith s.params.enc (s.peek s.pc 16) (s.peek (s.pc + 16#32) 16) = .ok (.mmfm .b 14 0x8001) ∧
    s.freshInstruction (.mmfm .b 14 0x8001) ∧ s.params.supplies (.mmfm .b 14 0x8001) = true ∧ s.params.execOther = [] :=
  ⟨baseWith 0x00010000 0x800109BE, by unfold State.machineIsNext State.quiet State.freshInstruction; decide +kernel⟩
/-- Both clauses: nothing declared, and a range that covers `>0920`. -/
theorem witness_UndefinedOpcode : ∃ s : State, s.run = .running ∧ s.machineIsNext [] ∧ s.quiet ∧ s.select = none ∧
    s.fetchIsStale s.pc = false ∧ decodeWith s.params.enc (s.peek s.pc 16) 0 = .error (.noRow 0x0920) ∧
    s.params.execOther = [] ∧ s.params.moreIllegal = [] :=
  ⟨baseWith 0x00010000 0x00000920, by unfold State.machineIsNext State.quiet; decide +kernel⟩
/-- The clause of an instruction that is not supplied. -/
theorem witness_UndefinedOpcode_named : ∃ s : State, s.run = .running ∧ s.machineIsNext [] ∧ s.quiet ∧ s.select = none ∧
    s.fetchIsStale s.pc = false ∧ decodeWith s.params.enc (s.peek s.pc 16) 0 = .ok (.rets 1) ∧ passedOn (.rets 1) = true ∧
    s.params.supplies (.rets 1) = false ∧ s.params.execOther = [] :=
  ⟨{ baseWith 0x00010000 0x00000961 with params := { Params.supplying with supplied := ⟨false, true, true, true, true⟩ } }, by
    unfold State.machineIsNext State.quiet; decide +kernel⟩
theorem witness_UndefinedOpcode_declared : ∃ s : State, s.run = .running ∧ s.quiet ∧ s.select = none ∧
    decodeWith s.params.enc (s.peek s.pc 16) 0 = .error (.noRow 0x0920) ∧
    ∃ r ∈ s.params.moreIllegal, r.1.toNat ≤ (s.peek s.pc 16).toNat ∧ (s.peek s.pc 16).toNat ≤ r.2.toNat :=
  ⟨{ baseWith 0x00010000 0x00000920 with params := { Params.standard with moreIllegal := [(0x0920, 0x0920)] } }, by
    unfold State.quiet; decide +kernel⟩
/-- The opcode word stale, and only the extension word stale. -/
theorem witness_RewrittenCode : ∃ s : State, s.run = .running ∧ s.machineIsNext [] ∧ s.quiet ∧ s.select = none ∧
    s.fetchIsStale s.pc = true :=
  ⟨{ base with stale := [0x1000] }, by unfold State.machineIsNext State.quiet; decide +kernel⟩
theorem witness_RewrittenCode_extension : ∃ s : State, s.run = .running ∧ s.quiet ∧ s.select = none ∧
    s.fetchIsStale s.pc = false ∧ decodeWith s.params.enc (s.peek s.pc 16) 0 = .ok (.mmfm .b 14 0) ∧
    s.params.supplies (.mmfm .b 14 0) = true ∧ s.params.execOther = [] ∧ s.fetchIsStale (s.pc + 16#32) = true :=
  ⟨{ baseWith 0x00010000 0x800109BE with stale := [0x1001] }, by unfold State.quiet; decide +kernel⟩
theorem witness_PcLow : ∃ s : State, s.params.pcLow4 = .refuse ∧ s.quiet ∧ s.peek 0xFFFFFFE0#32 32 = 0x00000010#32 :=
  ⟨{ baseWith 0xFFFFFFE0 0x00000010 with params := { Params.standard with pcLow4 := .refuse } }, by
    unfold State.quiet; decide +kernel⟩
/-- `LoadPC` under `refuse` at the values where its clauses meet. -/
theorem witness_PcLow_values : 0x00000010#32 &&& 0xF#32 = 0#32 ∧ 0x0000000F#32 &&& 0xF#32 ≠ 0#32 := by decide
/-- A state with the invariant that is not the reset state, and a step from it. -/
def haltedState : State := { base with run := .halted, hstctl := { base.hstctl with hlt := true } }

theorem witness_MachineTurn : haltedState.machineTurn = .next haltedState ∧ haltedState.params.execOther = [] ∧
    haltedState.params.clearOnTake = Params.standard.clearOnTake := ⟨rfl, rfl, rfl⟩
theorem haltedState_inv : haltedState.Inv :=
  { memory := by decide, pcWord := by decide, haltedHlt := fun _ => rfl, runningHlt := fun h => absurd h (by decide),
    heldBits := by decide, lru := rfl, segments := rfl, staleWords := rfl }

theorem witness_Invariant : ∃ s t : State, s.Inv ∧ step s = .next t :=
  ⟨haltedState, haltedState, haltedState_inv, rfl⟩

end Sys2Proof.Tests
end

/-! ## Statements of the scope: no step changes a parameter, and what `ExecOther` gives an opcode (00_scope.md R3) -/

namespace Sys2Proof.Machine

/-! ### Outcomes -/

/-- Every next state that an outcome answers has the property. -/
def OnNext (P : State → Prop) (o : Host.Outcome State Fault Refusal) : Prop := ∀ t, o = .next t → P t

section OnNext
variable {P : State → Prop}

@[simp] theorem onNext_next {t : State} : OnNext P (.next t) ↔ P t :=
  ⟨fun h => h t rfl, fun h _ e => Host.Outcome.next.inj e ▸ h⟩

@[simp] theorem onNext_refused (r : Refusal) : OnNext P (.refused r) := fun _ h => nomatch h

theorem onNext_unlessCut {s t : State} {go : Host.Outcome State Fault Refusal} (hcut : P (s.cutShort t))
    (hgo : OnNext P go) : OnNext P (s.unlessCut t go) := by
  rcases unlessCut_cases s t go with ⟨_, h⟩ | ⟨_, h⟩ <;> rw [h]
  · exact onNext_next.mpr hcut
  · exact hgo

theorem onNext_loadPC {s : State} (h : ∀ v, P (s.setPC v)) (v : Long) : OnNext P (s.loadPC v) := by
  rcases loadPC_cases s v with ⟨_, e⟩ | ⟨_, _, e⟩ | ⟨_, _, e⟩ <;> rw [e]
  · exact onNext_next.mpr (h _)
  · exact onNext_next.mpr (h _)
  · exact onNext_refused _

/-- Every state that a fetch leads to has the property: one that RESET leaves, or the one with the words read. -/
def OnFetch {α : Type} (P : State → Prop) : Except (Host.Outcome State Fault Refusal) (α × State) → Prop
  | .error o => OnNext P o
  | .ok (_, t) => P t

theorem OnFetch.error {α : Type} {r : Except (Host.Outcome State Fault Refusal) (α × State)} (h : OnFetch P r)
    {o : Host.Outcome State Fault Refusal} (e : r = .error o) : OnNext P o := by
  subst e; exact h

theorem OnFetch.ok {α : Type} {r : Except (Host.Outcome State Fault Refusal) (α × State)} (h : OnFetch P r) {x : α}
    {t : State} (e : r = .ok (x, t)) : P t := by
  subst e; exact h

section OnFetch
variable (hcut : ∀ s a, P s → P (s.cutShort (s.afterRead a 16)))
  (hnote : ∀ s a, P s → P ((s.afterRead a 16).noteFetch a))
include hcut hnote

theorem onFetch_fetchWord {s : State} (a : Long) (h : P s) : OnFetch P (s.fetchWord a) := by
  rcases fetchWord_cases s a with ⟨_, e⟩ | ⟨_, _, e⟩ | ⟨_, _, e⟩ <;> rw [e]
  · exact onNext_next.mpr (hcut s a h)
  · exact onNext_refused _
  · exact hnote s a h

theorem onFetch_fetchWords (k : Nat) {s : State} (a : Long) (h : P s) : OnFetch P (s.fetchWords a k) := by
  induction k generalizing s a with
  | zero => exact h
  | succ k ih =>
    have hw := onFetch_fetchWord hcut hnote a h
    unfold State.fetchWords
    cases hf : s.fetchWord a with
    | error o => exact hw.error hf
    | ok p =>
      have hws := ih (a + 16#32) (hw.ok hf)
      dsimp only
      cases hr : p.2.fetchWords (a + 16#32) k with
      | error o => exact hws.error hr
      | ok q => exact hws.ok hr

/-- What the fetches, `ExecOther` and every instruction keep, running the instruction at the PC keeps (30_encoding.md R66). -/
theorem onNext_runInstruction (hother : ∀ s op, P s → OnNext P (s.otherOpcode op))
    (hgiven : ∀ s op, P s → OnNext P (s.givenOpcode op)) (hexec : ∀ i s, P s → OnNext P (exec i s)) {s : State} (h : P s) :
    OnNext P s.runInstruction := by
  have hw := onFetch_fetchWord hcut hnote s.pc h
  unfold State.runInstruction
  cases hf : s.fetchWord s.pc with
  | error o => exact hw.error hf
  | ok p =>
    obtain ⟨op, t⟩ := p
    have ht := hw.ok hf
    dsimp only
    cases decodeWith s.params.enc op 0 with
    | error e => exact hother t op ht
    | ok i =>
      dsimp only
      split
      · have hws := onFetch_fetchWords hcut hnote (i.words - 1) (s.pcNext 1) ht
        cases hx : t.fetchWords (s.pcNext 1) (i.words - 1) with
        | error o => exact hws.error hx
        | ok q =>
          dsimp only
          cases decodeWith s.params.enc op (q.1.getD 0 0) with
          | error e => exact hother _ op (hws.ok hx)
          | ok j => exact hexec j _ (hws.ok hx)
      · exact hgiven t op ht

end OnFetch

end OnNext

/-! ### The configuration: the parameters and the non-volatile ranges -/

/-- What no step changes (00_scope.md R3; 20_memory.md R50). -/
def State.config (s : State) : Params × List (Nat × Nat) := (s.params, s.nonvolatile)

@[simp] theorem config_eq_iff {s t : State} :
    t.config = s.config ↔ t.params = s.params ∧ t.nonvolatile = s.nonvolatile := Prod.mk_inj

/-- The outcome answers no state of another configuration than `s` has. -/
abbrev KeepsConfig (s : State) (o : Host.Outcome State Fault Refusal) : Prop := OnNext (fun t => t.config = s.config) o

theorem KeepsConfig.of_eq {s t : State} {o : Host.Outcome State Fault Refusal} (h : KeepsConfig t o)
    (e : t.config = s.config) : KeepsConfig s o := fun u hu => (h u hu).trans e

/-! ### The shared operations keep the configuration -/

theorem loadPC_keepsConfig (s : State) (v : Long) : KeepsConfig s (s.loadPC v) := onNext_loadPC (fun _ => rfl) v

theorem enterVector_keepsConfig (s : State) (n : BitVec 5) : KeepsConfig s (s.enterVector n) :=
  (loadPC_keepsConfig _ _).of_eq (by simp)

theorem takeTrap_keepsConfig (s : State) (n : BitVec 5) (b : Bool) (p q : Long) : KeepsConfig s (s.takeTrap n b p q) := by
  rcases takeTrap_cases s n b p q with ⟨t, _, h⟩ | h <;> rw [h]
  · exact onNext_next.mpr rfl
  · exact (enterVector_keepsConfig _ n).of_eq (by simp)

theorem takeInterrupt_keepsConfig (s : State) (i : Interrupt) : KeepsConfig s (s.takeInterrupt i) :=
  (takeTrap_keepsConfig (s.clearOnTake i) _ _ _ _).of_eq (by simp)

theorem returnFromInterrupt_keepsConfig (s : State) : KeepsConfig s s.returnFromInterrupt := by
  rcases returnFromInterrupt_cases s with ⟨_, h⟩ | ⟨_, h⟩ | ⟨_, h⟩ <;> rw [h]
  · exact onNext_next.mpr rfl
  · exact onNext_refused _
  · exact (loadPC_keepsConfig _ _).of_eq (by simp)

theorem start_keepsConfig (s : State) : KeepsConfig s s.start :=
  (takeTrap_keepsConfig (s.setRun .running) _ _ _ _).of_eq rfl

theorem rasOnlyDone_keepsConfig (s : State) : KeepsConfig s s.rasOnlyDone := by
  unfold State.rasOnlyDone
  split
  · exact onNext_next.mpr rfl
  · exact start_keepsConfig s

/-! ### Each instruction keeps the configuration -/

theorem execRets_keepsConfig (n : BitVec 5) (s : State) : KeepsConfig s (execRets n s) :=
  onNext_unlessCut rfl ((loadPC_keepsConfig _ _).of_eq (by simp))

theorem writeDivision_config (s : State) (f : RegFile) (rd : RegNum) (q r : Long) :
    (s.writeDivision f rd q r).config = s.config := by
  unfold State.writeDivision
  split <;> simp

theorem execDivs_keepsConfig (rs : RegNum) (f : RegFile) (rd : RegNum) (s : State) :
    KeepsConfig s (execDivs rs f rd s) :=
  onNext_next.mpr (writeDivision_config s f rd _ _)

theorem pushRegs_config (s regs : State) (f : RegFile) (rp : RegNum) (p : Long) (ns : List RegNum) :
    (s.pushRegs regs f rp p ns).config = s.config :=
  pushRegs_induct (P := fun t => t.config = s.config) f rp (fun _ _ h => by simpa using h) (fun _ _ _ h => by simpa using h)
    ns s regs p rfl

theorem popRegs_config (s : State) (f : RegFile) (p : Long) (ns : List RegNum) :
    (s.popRegs f p ns).config = s.config :=
  popRegs_induct (P := fun t => t.config = s.config) f (fun _ _ h => by simpa using h) (fun _ _ _ h => by simpa using h)
    ns s p rfl

theorem execMmtm_keepsConfig (f : RegFile) (rp : RegNum) (list : Word) (s : State) :
    KeepsConfig s (execMmtm f rp list s) :=
  onNext_unlessCut rfl (onNext_next.mpr (pushRegs_config s s f rp _ _))

theorem execMmfm_keepsConfig (f : RegFile) (rp : RegNum) (list : Word) (s : State) :
    KeepsConfig s (execMmfm f rp list s) :=
  onNext_unlessCut rfl (onNext_next.mpr (by simpa using popRegs_config s f _ _))

theorem reconstructedOpcode_keepsConfig (s : State) (op : Word) : KeepsConfig s (s.reconstructedOpcode op) := by
  unfold State.reconstructedOpcode
  split
  · exact takeTrap_keepsConfig s _ _ _ _
  · exact onNext_refused _

theorem exec_keepsConfig (i : Instr) (s : State) : KeepsConfig s (exec i s) := by
  cases i with
  | trap n => exact takeTrap_keepsConfig s _ _ _ _
  | reti => exact returnFromInterrupt_keepsConfig s
  | rets n => exact execRets_keepsConfig n s
  | jruc d => exact onNext_next.mpr rfl
  | divs rs f rd => exact execDivs_keepsConfig rs f rd s
  | mmtm f rp list => exact execMmtm_keepsConfig f rp list s
  | mmfm f rp list => exact execMmfm_keepsConfig f rp list s
  | pixbltBL | pixbltBXY | pixbltLL | pixbltLXY | pixbltXYL | pixbltXYXY | fillL | fillXY | line => exact onNext_refused _
  | illop0000 | illop0200 | illop0400 | illop0800 | illop0A00 | illop0C00 | illop0E00 | illop3400 | illopBE00 =>
    exact takeTrap_keepsConfig s _ _ _ _
  | maybe7E00 | maybe9E00 | maybeD800 | maybeDC00 | maybeDE00 | maybeFE00 => exact reconstructedOpcode_keepsConfig s _

/-! ### `ExecOther` and the fetch keep the configuration -/

theorem effectRun_config (e : Effect) (w : Work) : (e.run w).state.config = w.state.config :=
  run_induct (P := fun t => t.config = w.state.config) (fun _ _ _ _ h => by simpa using h) (fun _ _ h => h)
    (fun _ _ _ h => by simpa using h) (fun _ _ _ _ h => by simpa using h) e rfl

theorem finished_config (w : Work) : w.finished.config = w.state.config :=
  finished_induct (P := fun t => t.config = w.state.config) (fun _ _ _ h => by simpa using h) rfl

theorem runOther_keepsConfig (s : State) (m : OtherMeaning) (op : Word) (exts : List Word) :
    KeepsConfig s (s.runOther m op exts) := by
  have hw := (finished_config (m.effects.run (Work.start s op exts))).trans (effectRun_config m.effects (Work.start s op exts))
  rcases runOther_cases s m op exts with ⟨_, h⟩ | ⟨_, _, h⟩ | ⟨_, _, ⟨v, _, h⟩ | ⟨_, h⟩⟩ <;> rw [h]
  · exact onNext_next.mpr rfl
  · exact onNext_refused _
  · exact (loadPC_keepsConfig _ _).of_eq hw
  · exact onNext_next.mpr hw

theorem fetchWords_keepsConfig (s : State) (a : Long) (k : Nat) :
    OnFetch (fun t => t.config = s.config) (s.fetchWords a k) :=
  onFetch_fetchWords (fun _ _ h => h) (fun _ _ h => by simpa using h) k a rfl

theorem givenOpcode_keepsConfig (s : State) (op : Word) : KeepsConfig s (s.givenOpcode op) := by
  rcases givenOpcode_cases s op with ⟨_, h⟩ | ⟨m, o, _, hf, h⟩ | ⟨m, exts, t, _, hf, h⟩ <;> rw [h]
  · exact onNext_refused _
  · exact (fetchWords_keepsConfig s _ _).error hf
  · exact (runOther_keepsConfig t m op exts).of_eq ((fetchWords_keepsConfig s _ _).ok hf)

theorem otherOpcode_keepsConfig (s : State) (op : Word) : KeepsConfig s (s.otherOpcode op) := by
  unfold State.otherOpcode
  split
  · exact takeTrap_keepsConfig s _ _ _ _
  · exact givenOpcode_keepsConfig s op

theorem runInstruction_keepsConfig (s : State) : KeepsConfig s s.runInstruction :=
  onNext_runInstruction (fun _ _ h => h) (fun _ _ h => by simpa using h)
    (fun t op ht => (otherOpcode_keepsConfig t op).of_eq ht) (fun t op ht => (givenOpcode_keepsConfig t op).of_eq ht)
    (fun i t ht => (exec_keepsConfig i t).of_eq ht) rfl

/-! ### Each turn keeps the configuration -/

theorem machineTurn_keepsConfig (s : State) : KeepsConfig s s.machineTurn := by
  rcases machineTurn_cases s with ⟨_, h⟩ | ⟨_, h⟩ | ⟨i, _, _, h⟩ | ⟨_, _, h⟩ <;> rw [h]
  · exact onNext_next.mpr rfl
  · exact rasOnlyDone_keepsConfig s
  · exact takeInterrupt_keepsConfig s i
  · exact runInstruction_keepsConfig s

theorem hostWriteHlt_keepsConfig (s : State) (v : Bool) : KeepsConfig s (s.hostWriteHlt v) := by
  unfold State.hostWriteHlt
  cases s.run with
  | halted =>
    cases v
    · exact (start_keepsConfig (s.writeHstctlBit .hlt false)).of_eq rfl
    · exact onNext_next.mpr rfl
  | running =>
    cases v
    · exact onNext_next.mpr rfl
    · exact onNext_refused _
  | resetLow | initialising => exact onNext_next.mpr rfl

theorem envMove_keepsConfig (m : EnvMove) (s : State) : KeepsConfig s (envMove m s) := by
  cases m with
  | shortResetPulse => exact onNext_refused _
  | resetReleased hcsHigh draw =>
    refine onNext_next.mpr ?_
    split <;> rfl
  | hblankStart =>
    refine onNext_next.mpr ?_
    unfold State.hblankStart
    split <;> rfl
  | hostHstctl bit v =>
    cases bit with
    | hlt => exact hostWriteHlt_keepsConfig s v
    | nmi | nmim | intin => exact onNext_next.mpr rfl
  | hostIo r v => cases r <;> exact onNext_next.mpr rfl
  | resetAsserted | lint1 | lint2 | vcount | hostHstctlOther | hostWrite | hostRead | hostRefresh =>
    exact onNext_next.mpr rfl

theorem step_keepsConfig (s : State) : KeepsConfig s (step s) := by
  rcases turn_cases s with ⟨_, h⟩ | ⟨rest, _, h⟩ | ⟨m, rest, _, h⟩ <;> rw [step, h]
  · exact machineTurn_keepsConfig s
  · exact (machineTurn_keepsConfig (s.setInputs rest)).of_eq rfl
  · exact (envMove_keepsConfig m (s.setInputs rest)).of_eq rfl

/-- Settles O57: every turn, the machine's or the environment's, keeps the configuration. -/
theorem parametersNeverChange : Obligations.ParametersNeverChange :=
  fun s t h => config_eq_iff.mp (step_keepsConfig s t h)

/-! ### A word that `ExecOther` gives a meaning -/

/-- Where the machine is next, runs and has nothing to take, the step runs the instruction at the PC. -/
theorem step_runInstruction {s : State} {rest : List Turn} (hrun : s.run = .running) (hnext : s.machineIsNext rest)
    (hsel : s.select = none) : step s = (s.setInputs rest).runInstruction := by
  have hsel' : (s.setInputs rest).select = none := hsel
  have hrun' : (s.setInputs rest).run = .running := hrun
  rw [step_machineIsNext hnext, State.machineTurn, hrun']
  dsimp only
  rw [hsel']

/-- The opcode word goes to `ExecOther` (30_encoding.md R63, R66): it is in no row of the table and not declared illegal, or it
is of a named instruction whose meaning comes from there, and its list gives one. -/
theorem runInstruction_givenOpcode {s : State} {op : Word} {m : OtherMeaning} (hq : s.quiet)
    (hfresh : s.fetchIsStale s.pc = false) (hop : s.peek s.pc 16 = op) (hm : s.params.otherMeaning op = some m)
    (hdec : (∃ e, decodeWith s.params.enc op 0 = .error e ∧ s.params.moreIllegal = []) ∨
      ∃ i, decodeWith s.params.enc op 0 = .ok i ∧ passedOn i = true) :
    s.runInstruction = (s.noteFetch s.pc).givenOpcode op := by
  have hf : s.fetchWord s.pc = .ok (op, s.noteFetch s.pc) := by simp [fetchWord_quiet hq, hfresh, hop]
  unfold State.runInstruction
  rw [hf]
  dsimp only
  rcases hdec with ⟨e, he, hill⟩ | ⟨i, hi, hpass⟩
  · rw [he]
    simp [State.otherOpcode, Params.declaredIllegal, hill]
  · rw [hi]
    simp [Params.hasOwnMeaning, hpass, hm]

/-- A meaning without extension words runs in the state after the fetch of its opcode word. -/
theorem givenOpcode_oneWord {s : State} {op : Word} {m : OtherMeaning} (hm : s.params.otherMeaning op = some m)
    (hx : m.extWords = 0) : s.givenOpcode op = s.runOther m op [] := by
  unfold State.givenOpcode
  rw [hm]
  dsimp only
  rw [hx]
  rfl

/-- A meaning given for one opcode word is that word's meaning. -/
theorem otherMeaning_single {p : Params} {op : Word} {m : OtherMeaning} (h : p.execOther = [m]) (hmask : m.mask = 0xFFFF)
    (hpat : m.pattern = op) : p.otherMeaning op = some m := by
  unfold Params.otherMeaning
  rw [h, List.find?_singleton, hmask, hpat, show (0xFFFF : Word) = BitVec.allOnes 16 from rfl, BitVec.and_allOnes]
  simp

/-! ### One push -/

theorem low_one (d : StackDir) (p : Long) : d.low p 1 = d.pushed p 1 := by
  cases d <;> rfl

/-- On a quiet bus a push moves SP and changes memory and the note of changed words. -/
theorem push32_eq {s : State} (hq : s.quiet) (v : Long) :
    s.push32 v = { s with
      sp := s.params.stackDir.pushed s.sp 1
      mem := (s.push32 v).mem
      stale := (s.push32 v).stale } := by
  rw [push32_quiet hq]
  rfl

/-- The pushed value lies on top of the stack, whatever else but the parameters has changed since (20_memory.md R45). -/
theorem peek_of_push32 {s t : State} (hq : s.quiet) {v : Long} (hp : t.params = s.params) (hm : t.mem = (s.push32 v).mem) :
    t.peek (s.params.stackDir.pushed s.sp 1) 32 = v := by
  have hpush : (s.push32 v).peek (s.params.stackDir.pushed s.sp 1) 32 = v := by
    rw [push32_quiet hq]
    exact peek_store_same _ _ _ (by decide)
  exact (peek_congr (hp.trans (push32_params s v).symm) (by rw [hm])).trans hpush

theorem push32_sameOutside {s : State} (hq : s.quiet) (v : Long) :
    sameOutside s.mem (s.push32 v).mem (s.params.stackDir.low s.sp 1) 32 := by
  rw [push32_quiet hq, low_one]
  exact sameOutside_write _ _ _ (by decide)

/-! ### An I/O register and ST written, and ST pushed -/

/-- The meaning that gives one opcode word two writes and a push of ST. -/
def writesAndPush (op : Word) (r : IoReg) (v w : Long) : OtherMeaning :=
  ⟨0xFFFF, op, 0, .seq (.writeIoReg r (.const v)) (.seq (.writeST (.const w)) (.push .status)), none⟩

/-- Its effects push ST at once, as it was, and put the writes off (40_trap_reti.md R84). -/
theorem run_writesAndPush {s : State} (hq : s.quiet) (op : Word) (r : IoReg) (v w : Long) :
    (writesAndPush op r v w).effects.run (Work.start s op []) =
      { Work.start (s.push32 s.st) op [] with atEnd := [.io r (v.setWidth 16), .st w] } := by
  simp [writesAndPush, Effect.run, Work.start, Work.putOff, Work.setState, Source.value, isCut_quiet hq]

/-- The whole instruction: the push, both writes at its end, and the PC past its word. -/
theorem runOther_writesAndPush {s : State} (hq : s.quiet) (op : Word) (r : IoReg) (v w : Long) :
    s.runOther (writesAndPush op r v w) op [] = .next { s.writeIoReg r (v.setWidth 16) with
      st := w
      sp := s.params.stackDir.pushed s.sp 1
      pc := s.pc + 16#32
      mem := (s.push32 s.st).mem
      stale := (s.push32 s.st).stale } := by
  have hrun : s.runOther (writesAndPush op r v w) op [] =
      .next ((((s.push32 s.st).writeIoReg r (v.setWidth 16)).writeST w).advance 1) := by
    unfold State.runOther
    rw [run_writesAndPush hq]
    exact unlessCut_quiet (quiet_push32 hq s.st) _
  rw [hrun, push32_eq hq]
  cases r <;> rfl

/-- Settles O25: the word goes to `ExecOther`, whose meaning pushes ST at once and makes its two writes at the end. -/
theorem otherOpcodeTakesItsMeaning : Obligations.OtherOpcodeTakesItsMeaning := by
  intro s rest op r v w hrun hnext hq hsel hfresh hop hdec hother
  have hm : s.params.otherMeaning op = some (writesAndPush op r v w) := otherMeaning_single hother rfl rfl
  have hqu : ((s.setInputs rest).noteFetch s.pc).quiet := hq
  have hstep := calc
    step s = (s.setInputs rest).runInstruction := step_runInstruction hrun hnext hsel
    _ = ((s.setInputs rest).noteFetch s.pc).givenOpcode op :=
      runInstruction_givenOpcode (s := s.setInputs rest) hq hfresh hop hm hdec
    _ = ((s.setInputs rest).noteFetch s.pc).runOther (writesAndPush op r v w) op [] := givenOpcode_oneWord hm rfl
    _ = .next _ := runOther_writesAndPush hqu op r v w
  refine ⟨_, hstep, ?_, push32_sameOutside hqu s.st, ?_⟩
  · exact peek_of_push32 hqu (by cases r <;> rfl) rfl
  · cases r <;> rfl

end Sys2Proof.Machine

/-! ## Statements of the state: which mask bits select an interrupt, and what reset gives (10_state.md) -/

namespace Sys2Proof.Machine

/-! ### Bits under a mask -/

/-- Words that agree under a mask agree at each bit of the mask. -/
theorem getLsbD_eq_of_and_eq {x y m : Word} (h : x &&& m = y &&& m) {b : Nat} (hb : m.getLsbD b = true) :
    x.getLsbD b = y.getLsbD b := by
  have hbit := congrArg (fun w : Word => w.getLsbD b) h
  simpa [BitVec.getLsbD_and, hb] using hbit

theorem getLsbD_flag (c : Bool) (m : Word) (b : Nat) : (if c then m else 0).getLsbD b = (c && m.getLsbD b) := by
  cases c <;> simp

/-! ### The pending and the enabled interrupts, one by one (R19, R20; 60_exceptions.md R91 to R94, R99) -/

theorem getLsbD_intpend (s : State) (b : Nat) :
    s.intpend.getLsbD b = (s.intpendHeld.getLsbD b && (0xFDF9#16).getLsbD b || s.lint1Low && (0x0002#16).getLsbD b ||
      s.lint2Low && (0x0004#16).getLsbD b || s.hstctl.intin && (0x0200#16).getLsbD b) := by
  simp only [State.intpend, BitVec.getLsbD_or, BitVec.getLsbD_and, getLsbD_flag]

theorem pending_nmi (s : State) : Interrupt.nmi.pending s = s.hstctl.nmi := rfl

theorem pending_hi (s : State) : Interrupt.hi.pending s = s.hstctl.intin :=
  (getLsbD_intpend s 9).trans (by simp)

theorem pending_di (s : State) : Interrupt.di.pending s = s.intpendHeld.getLsbD 10 :=
  (getLsbD_intpend s 10).trans (by simp)

theorem pending_wv (s : State) : Interrupt.wv.pending s = s.intpendHeld.getLsbD 11 :=
  (getLsbD_intpend s 11).trans (by simp)

theorem pending_int1 (s : State) : Interrupt.int1.pending s = s.lint1Low :=
  (getLsbD_intpend s 1).trans (by simp)

theorem pending_int2 (s : State) : Interrupt.int2.pending s = s.lint2Low :=
  (getLsbD_intpend s 2).trans (by simp)

theorem enabled_of_maskBit {i : Interrupt} {b : Nat} (h : i.maskBit = some b) (s : State) :
    i.enabled s = (stIE s.st && s.intenb.getLsbD b) := by
  simp only [Interrupt.enabled, h]

theorem enabled_of_not_maskable {i : Interrupt} (h : i.maskBit = none) (s : State) : i.enabled s = true := by
  simp only [Interrupt.enabled, h]

/-- The mask bits of the maskable interrupts are the named bits of INTENB (R19). -/
theorem maskBit_named {i : Interrupt} {b : Nat} (h : i.maskBit = some b) : (0x0E06#16).getLsbD b = true := by
  cases i with
  | reset | nmi | illop => nomatch h
  | hi | di | wv | int1 | int2 => cases h; rfl

/-! ### What the selection reads -/

/-- Whether an interrupt is pending depends on HSTCTL, the pins, and the two bits of INTPEND that are both stored and named,
DIP and WVP. -/
theorem pending_congr {s t : State} (hctl : t.hstctl = s.hstctl) (h1 : t.lint1Low = s.lint1Low)
    (h2 : t.lint2Low = s.lint2Low) (hheld : t.intpendHeld &&& 0x0C00#16 = s.intpendHeld &&& 0x0C00#16) (i : Interrupt) :
    i.pending t = i.pending s := by
  cases i with
  | reset | illop => rfl
  | nmi => rw [pending_nmi, pending_nmi, hctl]
  | hi => rw [pending_hi, pending_hi, hctl]
  | di => rw [pending_di, pending_di, getLsbD_eq_of_and_eq hheld (by decide)]
  | wv => rw [pending_wv, pending_wv, getLsbD_eq_of_and_eq hheld (by decide)]
  | int1 => rw [pending_int1, pending_int1, h1]
  | int2 => rw [pending_int2, pending_int2, h2]

/-- Whether an interrupt is enabled depends on ST and the named bits of INTENB. -/
theorem enabled_congr {s t : State} (hst : t.st = s.st) (henb : t.intenb &&& 0x0E06#16 = s.intenb &&& 0x0E06#16)
    (i : Interrupt) : i.enabled t = i.enabled s := by
  cases hb : i.maskBit with
  | none => rw [enabled_of_not_maskable hb, enabled_of_not_maskable hb]
  | some b => rw [enabled_of_maskBit hb, enabled_of_maskBit hb, hst, getLsbD_eq_of_and_eq henb (maskBit_named hb)]

theorem select_congr {s t : State} (hp : ∀ i : Interrupt, i.pending t = i.pending s)
    (he : ∀ i : Interrupt, i.enabled t = i.enabled s) : t.select = s.select := by
  simp only [State.select, hp, he]

/-- Settles O29: the selection reads the pending and the enabled interrupts, and these read only named bits. -/
theorem unnamedMaskBitsHaveNoEffect : Obligations.UnnamedMaskBitsHaveNoEffect :=
  fun _ _ _ henb hheld => select_congr (pending_congr rfl rfl rfl hheld) (enabled_congr rfl henb)

/-! ### The state after reset (R27; 70_reset_and_hazards.md R147, R155) -/

theorem reset_readIoReg (r : IoReg) : State.reset.readIoReg r = 0#16 := by
  cases r with
  | other q => exact Vector.getElem_replicate _
  | intenb | intpend | dpyint | vcount => rfl

/-- Settles O41: the fields as `State.reset` gives them, and the I/O registers one by one. -/
theorem resetStateAsGiven : Obligations.ResetStateAsGiven :=
  ⟨rfl, reset_readIoReg, rfl, rfl, rfl, rfl, rfl, rfl, rfl⟩

end Sys2Proof.Machine

/-! ## Statements of memory: the invariant that every step keeps (20_memory.md R40, R47; 60_exceptions.md R94, R99, R122) -/

namespace Sys2Proof.Machine

/-! ### The fields the invariant speaks of, and what keeps them -/

/-- The fields that `State.Inv` constrains. -/
def State.guarded (s : State) : Memory × Long × RunState × Bool × Word × List (Fin 4) × List Nat × List Nat :=
  (s.mem, s.pc, s.run, s.hstctl.hlt, s.intpendHeld, s.cache.lru, s.fetchedSegs, s.stale)

theorem State.Inv.of_guarded {s t : State} (h : s.Inv) (e : t.guarded = s.guarded) : t.Inv := by
  simp only [State.guarded, Prod.mk.injEq] at e
  obtain ⟨hmem, hpc, hrun, hhlt, hheld, hlru, hsegs, hstale⟩ := e
  exact ⟨hmem ▸ h.memory, hpc ▸ h.pcWord, hrun ▸ hhlt ▸ h.haltedHlt, hrun ▸ hhlt ▸ h.runningHlt, hheld ▸ h.heldBits,
    hlru ▸ h.lru, hsegs ▸ h.segments, hstale ▸ h.staleWords⟩

theorem State.Inv.setPC {s : State} (h : s.Inv) {v : Long} (hv : v &&& 0xF#32 = 0#32) : (s.setPC v).Inv :=
  { h with pcWord := hv }

theorem State.Inv.setRun {s : State} (h : s.Inv) {r : RunState} (hhalted : r = .halted → s.hstctl.hlt = true)
    (hrunning : r = .running → s.hstctl.hlt = false) : (s.setRun r).Inv :=
  { h with haltedHlt := hhalted, runningHlt := hrunning }

/-- HLT is written with the value the run state asks for (60_exceptions.md R122). -/
theorem State.Inv.writeHlt {s : State} (h : s.Inv) {v : Bool} (hhalted : s.run = .halted → v = true)
    (hrunning : s.run = .running → v = false) : (s.writeHstctlBit .hlt v).Inv :=
  { h with haltedHlt := hhalted, runningHlt := hrunning }

theorem State.Inv.setMem {s : State} (h : s.Inv) {m : Memory} (hm : m.wf) : (s.setMem m).Inv :=
  { h with memory := hm }

theorem State.Inv.markStale {s : State} (h : s.Inv) (ws : List Nat) : (s.markStale ws).Inv :=
  { h with staleWords := risingNats_foldr h.staleWords }

theorem State.Inv.noteFetch {s : State} (h : s.Inv) (a : Long) : (s.noteFetch a).Inv :=
  { h with segments := risingNats_foldr h.segments }

theorem State.Inv.store {s : State} (h : s.Inv) (a : Long) {w : Nat} (v : BitVec w) : (s.store a v).Inv :=
  (h.setMem (wf_write h.memory _ _)).markStale _

/-- A stored part of INTPEND that leaves X1P, X2P and HIP alone (R94, R99). -/
theorem State.Inv.setHeld {s : State} (h : s.Inv) {v : Word} (hv : v &&& 0x0206#16 = 0#16) :
    ({ s with intpendHeld := v } : State).Inv :=
  { h with heldBits := hv }

/-- Bits that are clear stay clear in a part of a word, and in a word with other bits set. -/
theorem and_mask_of_and {v m k : Word} (h : v &&& m = 0#16) : v &&& k &&& m = 0#16 := by
  rw [BitVec.and_assoc, BitVec.and_comm k m, ← BitVec.and_assoc, h, BitVec.zero_and]

theorem or_mask_of_and {v m k : Word} (h : v &&& m = 0#16) (hk : k &&& m = 0#16) : (v ||| k) &&& m = 0#16 := by
  rw [BitVec.and_or_distrib_right, h, hk, BitVec.or_zero]

theorem State.Inv.writeIoReg {s : State} (h : s.Inv) (r : IoReg) (v : Word) : (s.writeIoReg r v).Inv := by
  cases r with
  | intpend =>
    refine h.setHeld (or_mask_of_and ?_ (and_mask_of_and (and_mask_of_and h.heldBits)))
    rw [BitVec.and_assoc, show (0xF1F9#16 : Word) &&& 0x0206#16 = 0#16 from rfl, BitVec.and_zero]
  | intenb | dpyint | vcount | other => exact h.of_guarded rfl

theorem State.Inv.hblankStart {s : State} (h : s.Inv) : s.hblankStart.Inv := by
  unfold State.hblankStart
  split
  · exact h.setHeld (or_mask_of_and h.heldBits rfl)
  · exact h

/-- The rise of RESET (70_reset_and_hazards.md R147, R155) keeps the PC and what is non-volatile; the rest is set. -/
theorem State.Inv.resetReleased {s : State} (h : s.Inv) (hcsHigh : Bool) (draw : PowerOn) :
    (s.resetReleased hcsHigh draw).Inv where
  memory := wf_afterReset h.memory _ _
  pcWord := h.pcWord
  haltedHlt := nofun
  runningHlt := nofun
  heldBits := BitVec.zero_and
  lru := rfl
  segments := rfl
  staleWords := rfl

/-! ### The GSP at work: not halted -/

/-- The invariant of a machine that is not halted. The GSP's work keeps it, with what `ExecOther` writes to HLT (R122). -/
structure State.AtWork (s : State) : Prop extends State.Inv s where
  notHalted : s.run ≠ .halted

namespace State.AtWork
variable {s t : State}

theorem of_guarded (h : s.AtWork) (e : t.guarded = s.guarded) : t.AtWork where
  toInv := h.toInv.of_guarded e
  notHalted := by
    simp only [State.guarded, Prod.mk.injEq] at e
    exact e.2.2.1 ▸ h.notHalted

theorem of_run (h : s.AtWork) (hinv : t.Inv) (e : t.run = s.run) : t.AtWork := ⟨hinv, e ▸ h.notHalted⟩

theorem setPC (h : s.AtWork) {v : Long} (hv : v &&& 0xF#32 = 0#32) : (s.setPC v).AtWork := ⟨h.toInv.setPC hv, h.notHalted⟩

theorem setReg (h : s.AtWork) (f : RegFile) (n : RegNum) (v : Long) : (s.setReg f n v).AtWork :=
  h.of_guarded (by simp [State.guarded])

theorem setSP (h : s.AtWork) (v : Long) : (s.setSP v).AtWork := h.of_guarded rfl

theorem writeST (h : s.AtWork) (v : Long) : (s.writeST v).AtWork := h.of_guarded rfl

theorem noteFetch (h : s.AtWork) (a : Long) : (s.noteFetch a).AtWork := ⟨h.toInv.noteFetch a, h.notHalted⟩

theorem setMem (h : s.AtWork) {m : Memory} (hm : m.wf) : (s.setMem m).AtWork := ⟨h.toInv.setMem hm, h.notHalted⟩

theorem store (h : s.AtWork) (a : Long) {w : Nat} (v : BitVec w) : (s.store a v).AtWork := ⟨h.toInv.store a v, h.notHalted⟩

theorem runBus (es : List BusEvent) (h : s.AtWork) : (s.runBus es).AtWork := by
  induction es generalizing s with
  | nil => exact h.of_guarded rfl
  | cons e es ih =>
    cases e with
    | cycle | resetAsserted | cut => exact h.of_guarded rfl
    | hostWrite a v => exact ih (h.store a v)

theorem afterCycles (h : s.AtWork) (k : Nat) : (s.afterCycles k).AtWork := by
  induction k with
  | zero => exact h
  | succ k ih => exact ih.runBus _

theorem afterRead (h : s.AtWork) (a : Long) (n : Nat) : (s.afterRead a n).AtWork := h.afterCycles _

theorem writeCycles (h : s.AtWork) (a : Long) {w : Nat} (v : BitVec w) (k : Nat) : (s.writeCycles a v k).AtWork := by
  induction k with
  | zero => exact h
  | succ k ih =>
    have hbus : (s.writeCycles a v k).beginCycle.AtWork := ih.runBus _
    rw [State.writeCycles]
    split
    · exact hbus
    · exact hbus.setMem (wf_writeSpan hbus.memory _ _ _ _)

theorem write (h : s.AtWork) (a : Long) {w : Nat} (v : BitVec w) : (s.write a v).AtWork :=
  have hcycles := h.writeCycles a (s.params.bitOrder.arrange v) (cycleCount a w)
  ⟨hcycles.toInv.markStale _, hcycles.notHalted⟩

theorem push32 (h : s.AtWork) (v : Long) : (s.push32 v).AtWork := (h.setSP _).write _ _

theorem drop32 (h : s.AtWork) : s.drop32.AtWork := (h.afterRead _ _).setSP _

theorem saveContext (h : s.AtWork) (b : Bool) (p q : Long) : (s.saveContext b p q).AtWork := by
  cases b
  · exact h
  · exact (h.push32 p).push32 q

/-- What RESET leaves of the work (70_reset_and_hazards.md R154): the state before it, with memory as it had got. -/
theorem cutShort (h : s.AtWork) (k : t.AtWork) : (s.cutShort t).AtWork where
  memory := k.memory
  pcWord := h.pcWord
  haltedHlt := nofun
  runningHlt := nofun
  heldBits := h.heldBits
  lru := h.lru
  segments := h.segments
  staleWords := k.staleWords
  notHalted := nofun

theorem clearOnTake (h : s.AtWork) (i : Interrupt) : (s.clearOnTake i).AtWork := by
  cases i with
  | reset | int1 | int2 | illop => exact h
  | nmi | hi =>
    dsimp only [State.clearOnTake]
    split
    · exact h.of_guarded rfl
    · exact h
  | di | wv =>
    dsimp only [State.clearOnTake]
    split
    · exact ⟨h.toInv.setHeld (and_mask_of_and h.heldBits), h.notHalted⟩
    · exact h

theorem writeDivision (h : s.AtWork) (f : RegFile) (rd : RegNum) (q r : Long) : (s.writeDivision f rd q r).AtWork := by
  unfold State.writeDivision
  split
  · exact (h.setReg _ _ _).setReg _ _ _
  · exact h.setReg _ _ _

theorem pushRegs (h : s.AtWork) (regs : State) (f : RegFile) (rp : RegNum) (p : Long) (ns : List RegNum) :
    (s.pushRegs regs f rp p ns).AtWork :=
  pushRegs_induct f rp (fun _ _ k => k.setReg _ _ _) (fun _ _ _ k => k.write _ _) ns s regs p h

theorem popRegs (h : s.AtWork) (f : RegFile) (p : Long) (ns : List RegNum) : (s.popRegs f p ns).AtWork :=
  popRegs_induct f (fun _ _ k => k.afterRead _ _) (fun _ _ _ k => k.setReg _ _ _) ns s p h

theorem effectRun (e : Effect) {w : Work} (h : w.state.AtWork) : (e.run w).state.AtWork :=
  run_induct (fun _ _ _ _ k => k.setReg _ _ _) (fun _ _ k => k.setSP _) (fun _ _ _ k => k.afterRead _ _)
    (fun _ _ _ _ k => k.write _ _) e h

/-- A write of 0 to HLT is in order, since the machine is not halted; a write of 1 is refused before (R122). -/
theorem endWrite (h : s.AtWork) {e : EndWrite} (he : e ≠ .hstctlBit .hlt true) : (s.endWrite e).AtWork := by
  cases e with
  | st v => exact h.writeST v
  | io r v => exact h.of_run (h.toInv.writeIoReg r v) (endWrite_run s (.io r v))
  | hstctlBit bit v =>
    cases bit with
    | nmi | nmim | intin => exact h.of_guarded rfl
    | hlt =>
      cases v with
      | true => exact absurd rfl he
      | false => exact ⟨h.toInv.writeHlt (fun e => absurd e h.notHalted) (fun _ => rfl), h.notHalted⟩
  | hstctlOther v => exact h.of_guarded rfl
  | wv => exact ⟨h.toInv.setHeld (or_mask_of_and h.heldBits rfl), h.notHalted⟩
  | refresh interval => exact h.of_guarded rfl

theorem finished {w : Work} (h : w.state.AtWork) (he : EndWrite.hstctlBit .hlt true ∉ w.atEnd) : w.finished.AtWork :=
  finished_induct (fun _ _ hmem k => k.endWrite (fun e => he (e ▸ hmem))) h

end State.AtWork

/-! ### The PC at a word boundary (20_memory.md R47) -/

theorem low4_eq_zero_iff {v : Long} : v &&& 0xF#32 = 0#32 ↔ v.toNat % 16 = 0 := by
  rw [← BitVec.toNat_inj, BitVec.toNat_and]
  exact Eq.congr_left (Nat.and_two_pow_sub_one_eq_mod v.toNat 4)

theorem low4_add {a b : Long} (ha : a &&& 0xF#32 = 0#32) (hb : b &&& 0xF#32 = 0#32) : (a + b) &&& 0xF#32 = 0#32 := by
  rw [low4_eq_zero_iff] at *
  rw [BitVec.toNat_add]
  omega

/-- The address after an instruction is at a word boundary: instructions are whole words (R10, R60). -/
theorem pcNext_word {s : State} (h : s.pc &&& 0xF#32 = 0#32) (k : Nat) : s.pcNext k &&& 0xF#32 = 0#32 := by
  refine low4_add h (low4_eq_zero_iff.mpr ?_)
  rw [BitVec.toNat_ofNat]
  omega

/-- A displacement is whole words (40_trap_reti.md R83). -/
theorem jumpOffset_word (d : BitVec 8) : jumpOffset d &&& 0xF#32 = 0#32 := by
  rw [low4_eq_zero_iff, jumpOffset, BitVec.toNat_mul, show (16#32).toNat = 16 from rfl]
  omega

theorem State.AtWork.advance {s : State} (h : s.AtWork) (k : Nat) : (s.advance k).AtWork := h.setPC (pcNext_word h.pcWord k)

/-! ### The shared operations keep the invariant -/

/-- The outcome answers no state but one that meets the invariant of a machine that is not halted. -/
abbrev LeavesAtWork (o : Host.Outcome State Fault Refusal) : Prop := OnNext State.AtWork o

/-- Both policies load a value at a word boundary (R47, D4). -/
theorem State.AtWork.loadPC {s : State} (h : s.AtWork) (v : Long) : LeavesAtWork (s.loadPC v) := by
  rcases loadPC_cases s v with ⟨_, e⟩ | ⟨_, hv, e⟩ | ⟨_, _, e⟩ <;> rw [e]
  · exact onNext_next.mpr (h.setPC (pcAligned_word v))
  · exact onNext_next.mpr (h.setPC hv)
  · exact onNext_refused _

section AtWork
variable {s : State} (h : s.AtWork)
include h

theorem takeTrap_leavesAtWork (n : BitVec 5) (b : Bool) (p q : Long) : LeavesAtWork (s.takeTrap n b p q) := by
  have hread := ((h.saveContext b p q).writeST stEntry).afterRead (vectorAddr n) 32
  exact onNext_unlessCut (h.cutShort hread) (hread.loadPC _)

theorem takeInterrupt_leavesAtWork (i : Interrupt) : LeavesAtWork (s.takeInterrupt i) :=
  takeTrap_leavesAtWork (h.clearOnTake i) _ _ _ _

theorem returnFromInterrupt_leavesAtWork : LeavesAtWork s.returnFromInterrupt := by
  rcases returnFromInterrupt_cases s with ⟨_, e⟩ | ⟨_, e⟩ | ⟨_, e⟩ <;> rw [e]
  · exact onNext_next.mpr (h.cutShort h.drop32.drop32)
  · exact onNext_refused _
  · exact (h.drop32.drop32.writeST _).loadPC _

/-! ### Each instruction keeps the invariant -/

theorem execRets_leavesAtWork (n : BitVec 5) : LeavesAtWork (execRets n s) :=
  onNext_unlessCut (h.cutShort h.drop32) ((h.drop32.setSP _).loadPC _)

theorem execMmtm_leavesAtWork (f : RegFile) (rp : RegNum) (list : Word) : LeavesAtWork (execMmtm f rp list s) :=
  have hpushed := h.pushRegs s f rp (s.getReg f rp) (mmtmList list)
  onNext_unlessCut (h.cutShort hpushed) (onNext_next.mpr (hpushed.advance 2))

theorem execMmfm_leavesAtWork (f : RegFile) (rp : RegNum) (list : Word) : LeavesAtWork (execMmfm f rp list s) :=
  have hpopped := h.popRegs f (s.getReg f rp) (mmfmList list)
  onNext_unlessCut (h.cutShort hpopped) (onNext_next.mpr ((hpopped.setReg f rp _).advance 2))

theorem reconstructedOpcode_leavesAtWork (op : Word) : LeavesAtWork (s.reconstructedOpcode op) := by
  unfold State.reconstructedOpcode
  split
  · exact takeTrap_leavesAtWork h _ _ _ _
  · exact onNext_refused _

theorem exec_leavesAtWork (i : Instr) : LeavesAtWork (exec i s) := by
  cases i with
  | trap n => exact takeTrap_leavesAtWork h _ _ _ _
  | reti => exact returnFromInterrupt_leavesAtWork h
  | rets n => exact execRets_leavesAtWork h n
  | jruc d => exact onNext_next.mpr (h.setPC (low4_add (pcNext_word h.pcWord 1) (jumpOffset_word d)))
  | divs rs f rd => exact onNext_next.mpr (((h.writeDivision f rd _ _).writeST _).advance 1)
  | mmtm f rp list => exact execMmtm_leavesAtWork h f rp list
  | mmfm f rp list => exact execMmfm_leavesAtWork h f rp list
  | pixbltBL | pixbltBXY | pixbltLL | pixbltLXY | pixbltXYL | pixbltXYXY | fillL | fillXY | line => exact onNext_refused _
  | illop0000 | illop0200 | illop0400 | illop0800 | illop0A00 | illop0C00 | illop0E00 | illop3400 | illopBE00 =>
    exact takeTrap_leavesAtWork h _ _ _ _
  | maybe7E00 | maybe9E00 | maybeD800 | maybeDC00 | maybeDE00 | maybeFE00 => exact reconstructedOpcode_leavesAtWork h _

/-! ### `ExecOther` and the fetch keep the invariant -/

theorem runOther_leavesAtWork (m : OtherMeaning) (op : Word) (exts : List Word) :
    LeavesAtWork (s.runOther m op exts) := by
  have hw : (m.effects.run (Work.start s op exts)).state.AtWork := .effectRun m.effects h
  rcases runOther_cases s m op exts with ⟨_, e⟩ | ⟨_, _, e⟩ | ⟨_, hhlt, ⟨v, _, e⟩ | ⟨_, e⟩⟩ <;> rw [e]
  · exact onNext_next.mpr (h.cutShort hw)
  · exact onNext_refused _
  · exact (hw.finished hhlt).loadPC _
  · exact onNext_next.mpr ((hw.finished hhlt).advance _)

theorem givenOpcode_leavesAtWork (op : Word) : LeavesAtWork (s.givenOpcode op) := by
  have hfetch (k : Nat) : OnFetch State.AtWork (s.fetchWords (s.pcNext 1) k) :=
    onFetch_fetchWords (fun _ a k => k.cutShort (k.afterRead a 16)) (fun _ a k => (k.afterRead a 16).noteFetch a) k _ h
  rcases givenOpcode_cases s op with ⟨_, e⟩ | ⟨m, o, _, hf, e⟩ | ⟨m, exts, t, _, hf, e⟩ <;> rw [e]
  · exact onNext_refused _
  · exact (hfetch _).error hf
  · exact runOther_leavesAtWork ((hfetch _).ok hf) m op exts

theorem otherOpcode_leavesAtWork (op : Word) : LeavesAtWork (s.otherOpcode op) := by
  unfold State.otherOpcode
  split
  · exact takeTrap_leavesAtWork h _ _ _ _
  · exact givenOpcode_leavesAtWork h op

theorem runInstruction_leavesAtWork : LeavesAtWork s.runInstruction :=
  onNext_runInstruction (fun _ a k => k.cutShort (k.afterRead a 16)) (fun _ a k => (k.afterRead a 16).noteFetch a)
    (fun _ op k => otherOpcode_leavesAtWork k op) (fun _ op k => givenOpcode_leavesAtWork k op)
    (fun i _ k => exec_leavesAtWork k i) h

end AtWork

/-! ### Each turn keeps the invariant -/

/-- The outcome answers no state but one that meets the invariant. -/
abbrev KeepsInv (o : Host.Outcome State Fault Refusal) : Prop := OnNext State.Inv o

theorem LeavesAtWork.keepsInv {o : Host.Outcome State Fault Refusal} (h : LeavesAtWork o) : KeepsInv o :=
  fun t e => (h t e).toInv

/-- The start of the GSP (70_reset_and_hazards.md R155), from a state that is in order as a running one. -/
theorem start_keepsInv {s : State} (h : (s.setRun .running).Inv) : KeepsInv s.start :=
  have atWork : (s.setRun .running).AtWork := ⟨h, nofun⟩
  (takeTrap_leavesAtWork atWork 0 false s.pc s.st).keepsInv

section Inv
variable {s : State} (h : s.Inv)
include h

theorem rasOnlyDone_keepsInv : KeepsInv s.rasOnlyDone := by
  unfold State.rasOnlyDone
  cases hhlt : s.hstctl.hlt with
  | true => exact onNext_next.mpr (h.setRun (fun _ => hhlt) nofun)
  | false => exact start_keepsInv (h.setRun nofun (fun _ => hhlt))

theorem machineTurn_keepsInv : KeepsInv s.machineTurn := by
  have atWork (hrun : s.run = .running) : s.AtWork := ⟨h, by rw [hrun]; nofun⟩
  rcases machineTurn_cases s with ⟨_, e⟩ | ⟨_, e⟩ | ⟨i, hrun, _, e⟩ | ⟨hrun, _, e⟩ <;> rw [e]
  · exact onNext_next.mpr h
  · exact rasOnlyDone_keepsInv h
  · exact (takeInterrupt_leavesAtWork (atWork hrun) i).keepsInv
  · exact (runInstruction_leavesAtWork (atWork hrun)).keepsInv

theorem hostWriteHlt_keepsInv (v : Bool) : KeepsInv (s.hostWriteHlt v) := by
  unfold State.hostWriteHlt
  cases hrun : s.run with
  | halted =>
    cases v with
    | true => exact onNext_next.mpr (h.writeHlt (fun _ => rfl) (by rw [hrun]; nofun))
    | false => exact start_keepsInv { h with haltedHlt := nofun, runningHlt := fun _ => rfl }
  | running =>
    cases v with
    | true => exact onNext_refused _
    | false => exact onNext_next.mpr (h.writeHlt (by rw [hrun]; nofun) (fun _ => rfl))
  | resetLow | initialising => exact onNext_next.mpr (h.writeHlt (by rw [hrun]; nofun) (by rw [hrun]; nofun))

theorem envMove_keepsInv (m : EnvMove) : KeepsInv (envMove m s) := by
  cases m with
  | shortResetPulse => exact onNext_refused _
  | resetAsserted => exact onNext_next.mpr (h.setRun nofun nofun)
  | resetReleased hcsHigh draw =>
    refine onNext_next.mpr ?_
    split
    · exact h.resetReleased hcsHigh draw
    · exact h
  | hblankStart => exact onNext_next.mpr h.hblankStart
  | hostHstctl bit v =>
    cases bit with
    | hlt => exact hostWriteHlt_keepsInv h v
    | nmi | nmim | intin => exact onNext_next.mpr (h.of_guarded rfl)
  | hostIo r v => exact onNext_next.mpr (h.writeIoReg r v)
  | hostWrite a v => exact onNext_next.mpr (h.store a v)
  | lint1 | lint2 | vcount | hostHstctlOther | hostRead | hostRefresh => exact onNext_next.mpr (h.of_guarded rfl)

theorem step_keepsInv : KeepsInv (step s) := by
  have setInputs (rest : List Turn) : (s.setInputs rest).Inv := h.of_guarded rfl
  rcases turn_cases s with ⟨_, e⟩ | ⟨rest, _, e⟩ | ⟨m, rest, _, e⟩ <;> rw [step, e]
  · exact machineTurn_keepsInv h
  · exact machineTurn_keepsInv (setInputs rest)
  · exact envMove_keepsInv (setInputs rest) m

end Inv

/-- Settles O60: every turn, the machine's or the environment's, keeps the invariant. -/
theorem stepKeepsInvariant : Obligations.StepKeepsInvariant := fun _ t h e => step_keepsInv h t e

/-- Settles O59: the reset state gives every guarded field. -/
theorem invariantAtReset : Obligations.InvariantAtReset where
  memory := rfl
  pcWord := rfl
  haltedHlt := nofun
  runningHlt := nofun
  heldBits := rfl
  lru := rfl
  segments := rfl
  staleWords := rfl

end Sys2Proof.Machine

/-! ## Statements of memory: the two words of a value, the vectors and LoadPC (20_memory.md R42, R44 to R47, R53) -/

namespace Sys2Proof.Machine

/-! ### The two words of a 32-bit value (R44) -/

/-- A field of memory is its upper part above its lower part. -/
theorem read_append (m : Memory) (a : Long) (n k : Nat) :
    m.read a (n + k) = m.read (a + BitVec.ofNat 32 k) n ++ m.read a k := by
  apply BitVec.eq_of_getLsbD_eq
  intro i hi
  rw [BitVec.getLsbD_append, getLsbD_read, getLsbD_read, getLsbD_read]
  by_cases h : i < k
  · simp [h, hi]
  · have haddr : a + BitVec.ofNat 32 k + BitVec.ofNat 32 (i - k) = a + BitVec.ofNat 32 i := by
      rw [add_assoc, ← BitVec.ofNat_add, Nat.add_sub_cancel' (Nat.le_of_not_lt h)]
    simp [h, hi, haddr, show i - k < n by omega]

/-- The word at the address holds the low half of a 32-bit value (D1). -/
theorem read_long (m : Memory) (a : Long) : m.read a 32 = m.read (a + 16#32) 16 ++ m.read a 16 := read_append m a 16 16

theorem peek_lowFirst {s : State} (h : s.params.bitOrder = .lowFirst) (a : Long) (n : Nat) : s.peek a n = s.mem.read a n := by
  rw [State.peek, h]
  rfl

theorem peek_highFirst {s : State} (h : s.params.bitOrder = .highFirst) (a : Long) (n : Nat) :
    s.peek a n = (s.mem.read a n).reverse := by
  rw [State.peek, h]
  rfl

theorem peek_long_lowFirst {s : State} (h : s.params.bitOrder = .lowFirst) (a : Long) :
    s.peek a 32 = s.peek (a + 16#32) 16 ++ s.peek a 16 := by
  simp only [peek_lowFirst h, read_long]

/-- Under the other bit order the words change places (log 1). -/
theorem peek_long_highFirst {s : State} (h : s.params.bitOrder = .highFirst) (a : Long) :
    s.peek a 32 = s.peek a 16 ++ s.peek (a + 16#32) 16 := by
  simp only [peek_highFirst h, read_long]
  exact BitVec.reverse_append

/-- Settles O6: a value read bit by bit, and the store as one write of memory. -/
theorem lowWordAtLowerAddress : Obligations.LowWordAtLowerAddress :=
  fun s a v => ⟨fun h => peek_long_lowFirst h a, fun h => peek_long_highFirst h a, peek_store_same s a v (by decide),
    sameOutside_write s.mem a _ (by decide), fun hq => write_quiet hq a v⟩

/-! ### LoadPC and the vectors (R42, R47) -/

theorem pcAligned_of_word {v : Long} (h : v &&& 0xF#32 = 0#32) : pcAligned v = v := by
  have hsplit : v &&& 0xFFFFFFF0#32 ||| v &&& 0xF#32 = v := by
    rw [← BitVec.and_or_distrib_left, show (0xFFFFFFF0#32 ||| 0xF#32 : Long) = BitVec.allOnes 32 from rfl, BitVec.and_allOnes]
  rwa [h, BitVec.or_zero] at hsplit

/-- A value at a word boundary is loaded as it is under both policies (R47, D4). -/
theorem loadPC_of_word (s : State) {v : Long} (h : v &&& 0xF#32 = 0#32) : s.loadPC v = .next (s.setPC v) := by
  rcases loadPC_cases s v with ⟨_, e⟩ | ⟨_, _, e⟩ | ⟨_, hv, _⟩
  · rw [e, pcAligned_of_word h]
  · exact e
  · exact absurd h hv

theorem loadPC_refuse {s : State} (hp : s.params.pcLow4 = .refuse) {v : Long} (h : v &&& 0xF#32 ≠ 0#32) :
    s.loadPC v = .refused (.pcNotAtWord v) := by
  unfold State.loadPC
  rw [hp]
  exact if_neg h

theorem enterVector_quiet {s : State} (h : s.quiet) (n : BitVec 5) :
    s.enterVector n = (s.writeST stEntry).loadPC (s.peek (vectorAddr n) 32) := by
  have hw : (s.writeST stEntry).quiet := h
  unfold State.enterVector
  rw [afterRead_quiet hw, fetched_quiet hw]
  rfl

theorem vectorAddr_toNat (n : BitVec 5) : (vectorAddr n).toNat = 0xFFFFFFE0 - 32 * n.toNat := by
  revert n
  decide

/-- Settles O7: the address by arithmetic, the entry as a load of an aligned PC. -/
theorem vectorAddressFormula : Obligations.VectorAddressFormula := by
  refine ⟨fun n => ⟨vectorAddr_toNat n, ?_⟩, rfl, rfl, fun s n hq hv => ?_⟩
  · rw [vectorAddr_toNat]
    omega
  · rw [enterVector_quiet hq, loadPC_of_word _ hv]
    rfl

/-- Settles O58: `LoadPC` under each policy, and `TRAP 0` as a load of the level-0 vector. -/
theorem pcLowBitsFollowThePolicy : Obligations.PcLowBitsFollowThePolicy := by
  intro s v
  refine ⟨fun hp => loadPC_forceZero hp v, fun _ hv => loadPC_of_word s hv, fun hp => loadPC_refuse hp, fun hp hq hvec => ?_⟩
  have hexec : exec (.trap 0) s = (s.writeST stEntry).loadPC v := (takeTrap_quiet hq 0 false _ _).trans (by rw [← hvec]; rfl)
  rw [hexec]
  split
  · exact loadPC_of_word _ ‹_›
  · exact loadPC_refuse (s := s.writeST stEntry) hp ‹_›

end Sys2Proof.Machine

/-! ## Statements of memory: stale words and held accesses (20_memory.md R51, R55) -/

namespace Sys2Proof.Machine

/-! ### Stale words (R55, D25) -/

theorem mem_foldr_insertNat {x : Nat} {ks xs : List Nat} : x ∈ ks.foldr insertNat xs ↔ x ∈ ks ∨ x ∈ xs := by
  induction ks with
  | nil => simp
  | cons k ks ih => simp only [List.foldr_cons, mem_insertNat, ih, List.mem_cons, or_assoc]

theorem mem_markStale {s : State} {ws : List Nat} {x : Nat} (hx : x ∈ ws) (hseg : segmentOf x ∈ s.fetchedSegs) :
    x ∈ (s.markStale ws).stale :=
  mem_foldr_insertNat.mpr (.inl (List.mem_filter.mpr ⟨hx, List.contains_iff_mem.mpr hseg⟩))

theorem segmentOf_mem_noteFetch (s : State) {a : Long} {x : Nat} (hx : x ∈ wordsTouched a 16) :
    segmentOf x ∈ (s.noteFetch a).fetchedSegs :=
  mem_foldr_insertNat.mpr (.inl (List.mem_map_of_mem hx))

/-- The word an address lies in is among those a field there touches. -/
theorem word_mem_wordsTouched (a : Long) : a.toNat / 16 % 2 ^ 28 ∈ wordsTouched a 16 :=
  List.mem_map.mpr ⟨0, List.mem_range.mpr (by unfold cycleCount; omega), rfl⟩

/-- Marking the words at an address makes the fetch there stale, where their segments were fetched from. -/
theorem fetchIsStale_markStale {s : State} {a : Long} (hseg : ∀ x ∈ wordsTouched a 16, segmentOf x ∈ s.fetchedSegs) :
    (s.markStale (wordsTouched a 16)).fetchIsStale a = true :=
  have hx := word_mem_wordsTouched a
  List.any_eq_true.mpr ⟨_, hx, List.contains_iff_mem.mpr (mem_markStale hx (hseg _ hx))⟩

theorem fetchWord_stale {s : State} (hq : s.quiet) {a : Long} (h : s.fetchIsStale a = true) :
    s.fetchWord a = .error (.refused (.staleFetch a)) := by
  rw [fetchWord_quiet hq, if_pos h]

theorem fetchWords_stale {s : State} (hq : s.quiet) {a : Long} (h : s.fetchIsStale a = true) (k : Nat) :
    s.fetchWords a (k + 1) = .error (.refused (.staleFetch a)) := by
  unfold State.fetchWords
  rw [fetchWord_stale hq h]

theorem fetchWord_fresh {s : State} (hq : s.quiet) {a : Long} (h : s.fetchIsStale a = false) :
    s.fetchWord a = .ok (s.peek a 16, s.noteFetch a) := by
  rw [fetchWord_quiet hq, h]
  rfl

theorem otherMeaning_eq_none {p : Params} {op : Word} (h : ∀ m ∈ p.execOther, op &&& m.mask ≠ m.pattern) :
    p.otherMeaning op = none :=
  List.find?_eq_none.mpr (fun m hm => by simpa using h m hm)

/-- The stop on a stale opcode word. -/
theorem runInstruction_staleOpcode {s : State} (hq : s.quiet) (h : s.fetchIsStale s.pc = true) :
    s.runInstruction = .refused (.staleFetch s.pc) := by
  unfold State.runInstruction
  rw [fetchWord_stale hq h]

/-- The stop on the stale extension word of an instruction of two words that has its own meaning. -/
theorem runInstruction_staleExtension {s : State} (hq : s.quiet) {i : Instr} (hfresh : s.fetchIsStale s.pc = false)
    (hdec : decodeWith s.params.enc (s.peek s.pc 16) 0 = .ok i) (hwords : i.words = 2)
    (hown : s.params.hasOwnMeaning (s.peek s.pc 16) i = true) (h : s.fetchIsStale (s.pc + 16#32) = true) :
    s.runInstruction = .refused (.staleFetch (s.pc + 16#32)) := by
  have hext : (s.noteFetch s.pc).fetchWords (s.pcNext 1) (i.words - 1) = .error (.refused (.staleFetch (s.pc + 16#32))) := by
    rw [hwords]
    exact fetchWords_stale (s := s.noteFetch s.pc) hq h 0
  unfold State.runInstruction
  rw [fetchWord_fresh hq hfresh]
  dsimp only
  rw [hdec]
  dsimp only
  rw [if_pos hown, hext]

/-- Settles O55: a write marks the word it changes, and the fetch stops on a marked word. -/
theorem rewrittenCodeStopsTheFetch : Obligations.RewrittenCodeStopsTheFetch := by
  refine ⟨fun s a v => ⟨?_, ?_⟩, fun s rest hrun hnext hq hsel => ?_⟩
  · exact fetchIsStale_markStale (fun x hx => segmentOf_mem_noteFetch s hx)
  · refine fetchIsStale_markStale (fun x hx => ?_)
    rw [(sameCore_writeCycles (s.noteFetch a) a _ _).fetchedSegs]
    exact segmentOf_mem_noteFetch s hx
  · rw [step_runInstruction hrun hnext hsel]
    refine ⟨runInstruction_staleOpcode (s := s.setInputs rest) hq, fun i hfresh hdec hwords hsupplied hother hstale => ?_⟩
    have hown : s.params.hasOwnMeaning (s.peek s.pc 16) i = true := by
      simp [Params.hasOwnMeaning, hsupplied, otherMeaning_eq_none hother]
    exact runInstruction_staleExtension (s := s.setInputs rest) hq hfresh hdec hwords hown hstale

/-! ### Accesses that are held (R51; 70_reset_and_hazards.md R149) -/

theorem holdsAccesses_of_run {s : State} (h : s.run = .initialising ∨ s.run = .resetLow) : s.holdsAccesses = true := by
  unfold State.holdsAccesses
  rcases h with h | h <;> rw [h]

theorem isHost_of_isHostAccess {m : EnvMove} (h : m.isHostAccess = true) : m.isHost = true := by
  cases m with
  | hostWrite | hostRead | hostIo => rfl
  | resetAsserted | shortResetPulse | resetReleased | lint1 | lint2 | vcount | hblankStart | hostHstctl | hostHstctlOther
  | hostRefresh => nomatch h

/-- A held access waits, and the host's later moves behind it (R54). -/
theorem nextTurn_heldAccess {s : State} {m : EnvMove} (hm : m.isHostAccess = true) (hheld : s.holdsAccesses = true)
    (rest : List Turn) :
    s.nextTurn false (.env m :: rest) = (s.nextTurn true rest).map (fun p => (p.1, .env m :: p.2)) := by
  have hwait : Turn.canCome s false (.env m) = false := by simp [Turn.canCome, hm, hheld, isHost_of_isHostAccess hm]
  rw [State.nextTurn, hwait]
  rfl

/-- The outcome answers no state with other turns to come than `s` has. -/
abbrev KeepsInputs (s : State) (o : Host.Outcome State Fault Refusal) : Prop := OnNext (fun t => t.inputs = s.inputs) o

theorem loadPC_keepsInputs (s : State) (v : Long) : KeepsInputs s (s.loadPC v) := onNext_loadPC (fun _ => rfl) v

theorem takeTrap_keepsInputs (s : State) (n : BitVec 5) (b : Bool) (p q : Long) : KeepsInputs s (s.takeTrap n b p q) := by
  rcases takeTrap_cases s n b p q with ⟨t, _, e⟩ | e <;> rw [e]
  · exact onNext_next.mpr rfl
  · exact fun t ht => (loadPC_keepsInputs _ _ t ht).trans (by simp)

theorem start_keepsInputs (s : State) : KeepsInputs s s.start := takeTrap_keepsInputs (s.setRun .running) 0 false _ _

theorem rasOnlyDone_keepsInputs (s : State) : KeepsInputs s s.rasOnlyDone := by
  unfold State.rasOnlyDone
  split
  · exact onNext_next.mpr rfl
  · exact start_keepsInputs s

/-- Before the RAS-only cycles are over the machine's turn runs no instruction. -/
theorem machineTurn_keepsInputs {s : State} (hheld : s.holdsAccesses = true) : KeepsInputs s s.machineTurn := by
  have notRunning : s.run ≠ .running := fun hrun => by simp [State.holdsAccesses, hrun] at hheld
  rcases machineTurn_cases s with ⟨_, e⟩ | ⟨_, e⟩ | ⟨_, hrun, _, _⟩ | ⟨hrun, _, _⟩
  · exact e ▸ onNext_next.mpr rfl
  · exact e ▸ rasOnlyDone_keepsInputs s
  · exact absurd hrun notRunning
  · exact absurd hrun notRunning

theorem hostWriteHlt_keepsInputs (s : State) (v : Bool) : KeepsInputs s (s.hostWriteHlt v) := by
  unfold State.hostWriteHlt
  cases s.run with
  | halted =>
    cases v
    · exact start_keepsInputs (s.writeHstctlBit .hlt false)
    · exact onNext_next.mpr rfl
  | running =>
    cases v
    · exact onNext_next.mpr rfl
    · exact onNext_refused _
  | resetLow | initialising => exact onNext_next.mpr rfl

theorem envMove_keepsInputs (m : EnvMove) (s : State) : KeepsInputs s (envMove m s) := by
  cases m with
  | shortResetPulse => exact onNext_refused _
  | resetReleased hcsHigh draw =>
    refine onNext_next.mpr ?_
    split <;> rfl
  | hblankStart =>
    refine onNext_next.mpr ?_
    unfold State.hblankStart
    split <;> rfl
  | hostHstctl bit v =>
    cases bit with
    | hlt => exact hostWriteHlt_keepsInputs s v
    | nmi | nmim | intin => exact onNext_next.mpr rfl
  | hostIo r v => cases r <;> exact onNext_next.mpr rfl
  | resetAsserted | lint1 | lint2 | vcount | hostHstctlOther | hostWrite | hostRead | hostRefresh =>
    exact onNext_next.mpr rfl

/-- A held access is still first after the step, whatever turn came past it. -/
theorem step_keepsHeldAccess {s : State} {m : EnvMove} {rest : List Turn} (hm : m.isHostAccess = true)
    (hheld : s.holdsAccesses = true) (hin : s.inputs = .env m :: rest) :
    OnNext (fun t => ∃ later, t.inputs = .env m :: later) (step s) := by
  have behind {x : Turn} {ts : List Turn} (h : s.nextTurn false s.inputs = some (x, ts)) : ∃ later, ts = .env m :: later := by
    rw [hin, nextTurn_heldAccess hm hheld] at h
    obtain ⟨p, _, hp⟩ := Option.map_eq_some_iff.mp h
    exact ⟨p.2, (congrArg Prod.snd hp).symm⟩
  rcases turn_cases s with ⟨_, e⟩ | ⟨ts, hnext, e⟩ | ⟨x, ts, hnext, e⟩ <;> rw [step, e] <;> intro t ht
  · exact ⟨rest, (machineTurn_keepsInputs hheld t ht).trans hin⟩
  · obtain ⟨later, rfl⟩ := behind hnext
    exact ⟨later, machineTurn_keepsInputs (s := s.setInputs (.env m :: later)) hheld t ht⟩
  · obtain ⟨later, rfl⟩ := behind hnext
    exact ⟨later, envMove_keepsInputs x (s.setInputs _) t ht⟩

/-- A held access that stands alone leaves the turn to the machine. -/
theorem step_heldAccess_alone {s : State} {m : EnvMove} (hm : m.isHostAccess = true) (hheld : s.holdsAccesses = true)
    (hin : s.inputs = [.env m]) : step s = s.machineTurn := by
  rw [step, State.turn, hin, nextTurn_heldAccess hm hheld]
  rfl

/-- The rise of RESET waits for no host. -/
theorem step_heldAccess_resetReleased {s : State} {m : EnvMove} {hcsHigh : Bool} {draw : PowerOn} {later : List Turn}
    (hm : m.isHostAccess = true) (hrun : s.run = .resetLow)
    (hin : s.inputs = .env m :: .env (.resetReleased hcsHigh draw) :: later) :
    step s = .next ((s.setInputs (.env m :: later)).resetReleased hcsHigh draw) := by
  rw [step, State.turn, hin, nextTurn_heldAccess hm (holdsAccesses_of_run (.inr hrun)), nextTurn_head rfl]
  exact congrArg Host.Outcome.next (if_pos hrun)

/-- The end of the RAS-only cycles on a quiet bus: the GSP halts or starts, and memory and the turns to come are kept. -/
theorem rasOnlyDone_quiet {s : State} (hq : s.quiet) (hp : s.params.pcLow4 = .forceZero) :
    ∃ t, s.rasOnlyDone = .next t ∧ t.inputs = s.inputs ∧ t.mem = s.mem ∧ (t.run = .halted ∨ t.run = .running) := by
  unfold State.rasOnlyDone
  split
  · exact ⟨_, rfl, rfl, rfl, .inl rfl⟩
  · exact ⟨_, takeTrap_false (s := s.setRun .running) hq hp 0 _ _, rfl, rfl, .inr rfl⟩

/-- Settles O52: the access waits, alone or with the rise of RESET behind it. -/
theorem hostAccessHeldUntilRasCyclesEnd : Obligations.HostAccessHeldUntilRasCyclesEnd := by
  intro s m rest hrun haccess hin
  have hm : m.isHostAccess = true := by
    rcases haccess with ⟨_, _, rfl⟩ | ⟨_, rfl⟩ | ⟨_, _, rfl⟩ <;> rfl
  have hheld := holdsAccesses_of_run hrun
  refine ⟨step_keepsHeldAccess hm hheld hin, fun hrest hlow => ?_, fun hrest hinit hq hp => ?_,
    fun hcsHigh draw later hlow hrest => ?_⟩
  · rw [step_heldAccess_alone hm hheld (hrest ▸ hin), State.machineTurn, hlow]
  · rw [step_heldAccess_alone hm hheld (hrest ▸ hin), State.machineTurn, hinit]
    exact rasOnlyDone_quiet hq hp
  · exact ⟨_, step_heldAccess_resetReleased hm hlow (hrest ▸ hin), rfl, rfl⟩

end Sys2Proof.Machine

/-! ## Statements of memory: a host write inside an entry (20_memory.md R46, R53; 92_eei_decisions.md D13) -/

namespace Sys2Proof.Machine

/-! ### Two cycles at a word boundary (R46) -/

/-- A 32-bit value at a word boundary takes two cycles. -/
theorem cycleCount_long {a : Long} (ha : a.toNat % 16 = 0) : cycleCount a 32 = 2 := by
  rw [cycleCount, ha]

theorem getLsbD_readAcross (f : Nat → Memory) (a : Long) (n i : Nat) :
    (readAcross f a n).getLsbD i = (decide (i < n) && (f (cycleOf a i)).bit (a + BitVec.ofNat 32 i)) := by
  induction n with
  | zero => simp [readAcross]
  | succ n ih =>
    rw [readAcross, BitVec.getLsbD_cons, ih]
    by_cases h : i = n
    · simp [h]
    · simp [h, show i < n ↔ i < n + 1 by omega]

/-- The low word is as the first cycle sees it, the high word as the second does (log 13). -/
theorem readAcross_long (f : Nat → Memory) {a : Long} (ha : a.toNat % 16 = 0) :
    readAcross f a 32 = (f 1).read (a + 16#32) 16 ++ (f 0).read a 16 := by
  apply BitVec.eq_of_getLsbD_eq
  intro i hi
  rw [getLsbD_readAcross, BitVec.getLsbD_append, getLsbD_read, getLsbD_read]
  by_cases h : i < 16
  · simp [h, hi, show cycleOf a i = 0 by unfold cycleOf; omega]
  · have haddr : a + 16#32 + BitVec.ofNat 32 (i - 16) = a + BitVec.ofNat 32 i := by
      rw [add_assoc, show (16#32 : Long) = BitVec.ofNat 32 16 from rfl, ← BitVec.ofNat_add,
        Nat.add_sub_cancel' (Nat.le_of_not_lt h)]
    simp [h, hi, haddr, show i - 16 < 16 by omega, show cycleOf a i = 1 by unfold cycleOf; omega]

/-! ### What falls before a cycle (R53) -/

theorem beginCycle_cycle {s : State} {es : List BusEvent} (h : s.bus = .cycle :: es) : s.beginCycle = s.setBus es := by
  rw [State.beginCycle, h]
  rfl

theorem beginCycle_hostWrite {s : State} {b : Long} {u : Word} (h : s.bus = [.hostWrite b u]) :
    s.beginCycle = (s.store b u).setBus [] := by
  rw [State.beginCycle, h]
  rfl

/-- A write whose cycles come first on the bus, with nothing between them, is the write in one piece. -/
theorem writeCycles_ownCycles {s : State} {k : Nat} {es : List BusEvent} (hbus : s.bus = List.replicate k .cycle ++ es)
    (hes : es.head? ≠ some .cut) (a : Long) {w : Nat} (v : BitVec w) :
    s.writeCycles a v k = ((s.setBus []).writeCycles a v k).setBus es := by
  induction k generalizing es with
  | zero =>
    have h : s.bus = es := hbus
    rw [← h]
    rfl
  | succ k ih =>
    rw [List.replicate_succ', List.append_assoc] at hbus
    have hquiet : ((s.setBus []).writeCycles a v k).quiet := by
      rw [writeCycles_quiet (s := s.setBus []) rfl]
      rfl
    have hstep : (s.writeCycles a v k).beginCycle = ((s.setBus []).writeCycles a v k).setBus es := by
      rw [ih hbus (by simp)]
      exact beginCycle_cycle rfl
    have hcut : (((s.setBus []).writeCycles a v k).setBus es).isCut = false := decide_eq_false hes
    simp only [State.writeCycles, hstep, hcut, beginCycle_quiet hquiet, isCut_quiet hquiet]
    rfl

theorem write_ownCycles {s : State} {a : Long} {w : Nat} {es : List BusEvent}
    (hbus : s.bus = List.replicate (cycleCount a w) .cycle ++ es) (hes : es.head? ≠ some .cut) (v : BitVec w) :
    s.write a v = (s.store a v).setBus es := by
  unfold State.write
  rw [writeCycles_ownCycles hbus hes, writeCycles_quiet (s := s.setBus []) rfl, bitsReached_all]
  rfl

/-- What falls before the first cycle of a write, with nothing after it, comes before the whole write. -/
theorem writeCycles_beginCycle {s : State} (h : s.beginCycle.quiet) (a : Long) {w : Nat} (v : BitVec w) (k : Nat) :
    s.writeCycles a v (k + 1) = s.beginCycle.writeCycles a v (k + 1) := by
  induction k with
  | zero =>
    have hagain : s.beginCycle.beginCycle = s.beginCycle := beginCycle_quiet h
    simp only [State.writeCycles, hagain]
    rfl
  | succ k ih => rw [State.writeCycles, ih, ← State.writeCycles]

/-- A host write before the first cycle of a 32-bit write is made before it. -/
theorem write_hostWriteFirst {s : State} {b : Long} {u : Word} (h : s.bus = [.hostWrite b u]) (a v : Long) :
    s.write a v = ((s.store b u).setBus []).store a v := by
  have hbegin := beginCycle_hostWrite h
  have hquiet : s.beginCycle.quiet := by
    rw [hbegin]
    rfl
  obtain ⟨k, hk⟩ : ∃ k, cycleCount a 32 = k + 1 := ⟨cycleCount a 32 - 1, by unfold cycleCount; omega⟩
  rw [← write_quiet (s := (s.store b u).setBus []) rfl]
  unfold State.write
  rw [hk, writeCycles_beginCycle hquiet, hbegin]
  rfl

/-! ### Inside the fetch of the vector -/

theorem vectorAddr_word (n : BitVec 5) : (vectorAddr n).toNat % 16 = 0 := by
  rw [vectorAddr_toNat]
  omega

/-- A host write between the two cycles of the vector's fetch: the PC takes the low word as before it, the high word as after
it. -/
theorem takeTrap_hostWriteInFetch {s : State} (horder : s.params.bitOrder = .lowFirst)
    (hpc : s.params.pcLow4 = .forceZero) {b : Long} {u : Word} (hbus : s.bus = [.cycle, .hostWrite b u]) (n : BitVec 5)
    (p q : Long) :
    s.takeTrap n false p q = .next ((((s.writeST stEntry).store b u).setBus []).setPC
      (pcAligned ((s.store b u).peek (vectorAddr n + 16#32) 16 ++ s.peek (vectorAddr n) 16))) := by
  have hfirst : (s.writeST stEntry).afterCycles 1 = (s.writeST stEntry).setBus [.hostWrite b u] := beginCycle_cycle hbus
  have hsecond : (s.writeST stEntry).afterCycles 2 = ((s.writeST stEntry).store b u).setBus [] := by
    rw [State.afterCycles, hfirst]
    exact beginCycle_hostWrite rfl
  have hread : (s.writeST stEntry).afterRead (vectorAddr n) 32 = ((s.writeST stEntry).store b u).setBus [] := by
    rw [State.afterRead, cycleCount_long (vectorAddr_word n), hsecond]
  have hfetched : (s.writeST stEntry).fetched (vectorAddr n) 32 =
      (s.store b u).peek (vectorAddr n + 16#32) 16 ++ s.peek (vectorAddr n) 16 := by
    rw [State.fetched, readAcross_long _ (vectorAddr_word n), hfirst, hsecond, peek_lowFirst horder,
      peek_lowFirst (s := s.store b u) horder, show (s.writeST stEntry).params.bitOrder = .lowFirst from horder]
    rfl
  have hquiet : (((s.writeST stEntry).store b u).setBus []).quiet := rfl
  unfold State.takeTrap State.enterVector
  dsimp only
  rw [saveContext_false, hread, hfetched, unlessCut_quiet hquiet]
  exact loadPC_forceZero (s := ((s.writeST stEntry).store b u).setBus []) hpc _

theorem read_write_nextWord (m : Memory) (a : Long) (v : Word) :
    (m.write a v).read (a + 16#32) 16 = m.read (a + 16#32) 16 := by
  refine read_write_apart _ _ _ _ _ (by decide) (fun i hi => ?_)
  have hoff : a + 16#32 + BitVec.ofNat 32 i - a = BitVec.ofNat 32 (16 + i) := by
    rw [BitVec.ofNat_add]
    abel
  rw [hoff, BitVec.toNat_ofNat]
  omega

/-- A 16-bit store leaves the word above it alone. -/
theorem peek_store_nextWord (s : State) (a : Long) (v : Word) : (s.store a v).peek (a + 16#32) 16 = s.peek (a + 16#32) 16 :=
  peek_congr (store_params s a v) (by rw [store_mem, read_write_nextWord])

/-- The word above the address of a stored value holds its high half (D1). -/
theorem peek_store_high {s : State} (horder : s.params.bitOrder = .lowFirst) (a v : Long) :
    (s.store a v).peek (a + 16#32) 16 = v.extractLsb' 16 16 := by
  have hwhole := peek_store_same s a v (by decide)
  rw [peek_long_lowFirst (s := s.store a v) horder] at hwhole
  have hhigh := congrArg (fun x : Long => x.extractLsb' 16 16) hwhole
  exact (BitVec.extractLsb'_append_eq_left).symm.trans hhigh

/-! ### Inside the pushes -/

theorem pushed_word {p : Long} (hp : p &&& 0xF#32 = 0#32) (d : StackDir) : (d.pushed p 1).toNat % 16 = 0 := by
  rw [low4_eq_zero_iff] at hp
  cases d with
  | down =>
    rw [StackDir.pushed, BitVec.toNat_sub, show (32#32 * BitVec.ofNat 32 1).toNat = 32 from rfl]
    omega
  | up =>
    rw [StackDir.pushed, BitVec.toNat_add, show (32#32 * BitVec.ofNat 32 1).toNat = 32 from rfl]
    omega

/-- A host write over the saved PC between the two pushes of an entry: PC is pushed, the host writes, ST is pushed. -/
theorem saveContext_hostWriteBetween {s : State} (hsp : s.sp &&& 0xF#32 = 0#32) {b : Long} {u : Word}
    (hbus : s.bus = [.cycle, .cycle, .hostWrite b u]) (p q : Long) :
    s.saveContext true p q = (((((s.setSP (s.params.stackDir.pushed s.sp 2)).store (s.params.stackDir.pushed s.sp 1) p).store
      b u).setBus []).store (s.params.stackDir.pushed s.sp 2) q) := by
  have hcycles := cycleCount_long (pushed_word hsp s.params.stackDir)
  have hfirst : s.push32 p =
      ((s.setSP (s.params.stackDir.pushed s.sp 1)).store (s.params.stackDir.pushed s.sp 1) p).setBus [.hostWrite b u] :=
    write_ownCycles (s := s.setSP _) (hcycles ▸ hbus) (by simp) p
  have hsp2 : s.params.stackDir.pushed (s.params.stackDir.pushed s.sp 1) 1 = s.params.stackDir.pushed s.sp 2 :=
    pushed_pushed _ _ 1 1
  show (s.push32 p).push32 q = _
  rw [hfirst, State.push32, write_hostWriteFirst rfl]
  simp only [setBus_sp, store_sp, setSP_sp, setBus_params, store_params, setSP_params, hsp2]
  rfl

/-- What such an entry leaves on the stack: the saved PC with the host's word in its low half, the saved ST whole. -/
theorem saveContext_hostWriteBetween_peeks {s : State} (horder : s.params.bitOrder = .lowFirst)
    (hsp : s.sp &&& 0xF#32 = 0#32) {u : Word} (hbus : s.bus = [.cycle, .cycle, .hostWrite (s.params.stackDir.pushed s.sp 1) u]) (p q : Long) :
    (s.saveContext true p q).peek (s.params.stackDir.pushed s.sp 1) 32 = p.extractLsb' 16 16 ++ u ∧
    (s.saveContext true p q).peek (s.params.stackDir.pushed s.sp 2) 32 = q := by
  rw [saveContext_hostWriteBetween hsp hbus]
  have hbeside := pushed_beside s.params.stackDir s.sp
  generalize s.params.stackDir.pushed s.sp 1 = a at *
  generalize s.params.stackDir.pushed s.sp 2 = b at *
  refine ⟨?_, peek_store_same _ b q (by decide)⟩
  generalize hx : (s.setSP b).store a p = x
  have hxorder : (x.store a u).params.bitOrder = .lowFirst := by rw [← hx]; exact horder
  calc
    (((x.store a u).setBus []).store b q).peek a 32 = (x.store a u).peek a 32 :=
      peek_congr (s := x.store a u) (store_params _ b q) (by rw [store_mem, read_write_beside _ a b _ hbeside])
    _ = (x.store a u).peek (a + 16#32) 16 ++ (x.store a u).peek a 16 := peek_long_lowFirst hxorder a
    _ = x.peek (a + 16#32) 16 ++ u := by rw [peek_store_nextWord, peek_store_same x a u (by decide)]
    _ = p.extractLsb' 16 16 ++ u := by rw [← hx, peek_store_high (s := s.setSP b) horder]

/-- An entry whose pushes leave nothing on the bus fetches its vector as memory then stands. -/
theorem takeTrap_savedQuiet {s : State} {b : Bool} {p q : Long} (h : (s.saveContext b p q).quiet)
    (hpc : s.params.pcLow4 = .forceZero) (n : BitVec 5) :
    s.takeTrap n b p q =
      .next (((s.saveContext b p q).writeST stEntry).setPC (pcAligned ((s.saveContext b p q).peek (vectorAddr n) 32))) := by
  have hpc' : ((s.saveContext b p q).writeST stEntry).params.pcLow4 = .forceZero := by simp [hpc]
  have hquiet : ((s.saveContext b p q).writeST stEntry).quiet := h
  unfold State.takeTrap
  dsimp only
  rw [afterRead_quiet hquiet, unlessCut_quiet hquiet, enterVector_quiet h, loadPC_forceZero hpc']

/-- Settles O9: the first two by what each cycle of the fetch sees, the third by the order of the stores. -/
theorem hostWriteInsideAnEntry : Obligations.HostWriteInsideAnEntry := by
  intro s n p q v horder hpc
  refine ⟨fun hbus => ?_, fun hbus => ?_, fun hsp hbus => ?_⟩
  · refine ⟨_, takeTrap_hostWriteInFetch horder hpc hbus n p q, ?_, rfl, rfl⟩
    rw [peek_store_same s _ v (by decide)]
    rfl
  · refine ⟨_, takeTrap_hostWriteInFetch horder hpc hbus n p q, ?_, peek_store_same (s.writeST stEntry) _ v (by decide),
      rfl, rfl⟩
    rw [peek_store_nextWord, ← peek_long_lowFirst horder]
    rfl
  · have hquiet : (s.saveContext true p q).quiet := by
      rw [saveContext_hostWriteBetween hsp hbus]
      rfl
    obtain ⟨hsavedPC, hsavedST⟩ := saveContext_hostWriteBetween_peeks horder hsp hbus p q
    exact ⟨_, takeTrap_savedQuiet hquiet hpc n, hsavedPC, hsavedST, saveContext_run s true p q, hquiet⟩

end Sys2Proof.Machine

/-! ## Statements of the encoding: the opcode table both ways, and what a step does with the opcode word (30_encoding.md) -/

namespace Sys2Proof

/-! ### Opcode words as numbers -/

/-- The concatenation of two fields, as a number. -/
theorem toNat_append_field {a b : Nat} (x : BitVec a) (y : BitVec b) : (x ++ y).toNat = x.toNat * 2 ^ b + y.toNat := by
  rw [BitVec.toNat_append, ← Nat.shiftLeft_add_eq_or_of_lt y.isLt, Nat.shiftLeft_eq]

/-- A mask of all bits from `b` up clears the low `b` bits. -/
theorem toNat_and_highMask (b : Nat) {mask : Word} (hmask : mask = BitVec.allOnes 16 <<< b) (op : Word) :
    (op &&& mask).toNat = op.toNat / 2 ^ b * 2 ^ b := by
  have hlt : op.toNat / 2 ^ b * 2 ^ b < 2 ^ 16 := Nat.lt_of_le_of_lt (Nat.div_mul_le_self _ _) op.isLt
  rw [hmask, ← BitVec.shiftLeft_ushiftRight, BitVec.toNat_shiftLeft, BitVec.toNat_ushiftRight, Nat.shiftLeft_eq,
    Nat.shiftRight_eq_div_pow, Nat.mod_eq_of_lt hlt]

theorem and_highMask_eq_iff (b : Nat) {mask : Word} (hmask : mask = BitVec.allOnes 16 <<< b) (op p : Word) :
    op &&& mask = p ↔ op.toNat / 2 ^ b * 2 ^ b = p.toNat := by
  rw [← BitVec.toNat_inj, toNat_and_highMask b hmask]

theorem and_FFFF_eq_iff (op p : Word) : op &&& 0xFFFF#16 = p ↔ op.toNat = p.toNat := by
  simpa using and_highMask_eq_iff 0 rfl op p

theorem and_FFE0_eq_iff (op p : Word) : op &&& 0xFFE0#16 = p ↔ op.toNat / 32 * 32 = p.toNat :=
  and_highMask_eq_iff 5 rfl op p

theorem and_FF00_eq_iff (op p : Word) : op &&& 0xFF00#16 = p ↔ op.toNat / 256 * 256 = p.toNat :=
  and_highMask_eq_iff 8 rfl op p

theorem and_FE00_eq_iff (op p : Word) : op &&& 0xFE00#16 = p ↔ op.toNat / 512 * 512 = p.toNat :=
  and_highMask_eq_iff 9 rfl op p

theorem and_FC00_eq_iff (op p : Word) : op &&& 0xFC00#16 = p ↔ op.toNat / 1024 * 1024 = p.toNat :=
  and_highMask_eq_iff 10 rfl op p

/-- The mask of `LINE` leaves out bit 7, the algorithm select (R64). -/
theorem and_FF7F_eq_iff (op p : Word) : op &&& 0xFF7F#16 = p ↔ op.toNat / 256 * 256 + op.toNat % 128 = p.toNat := by
  have hhigh : (op &&& 0xFF00#16).toNat = op.toNat / 256 * 256 := toNat_and_highMask 8 rfl op
  have hlow : (op &&& 0x7F#16).toNat = op.toNat % 128 := Nat.and_two_pow_sub_one_eq_mod _ 7
  have hapart : (op &&& 0xFF00#16) &&& (op &&& 0x7F#16) = 0#16 := by
    rw [BitVec.and_comm op 0x7F#16, ← BitVec.and_assoc, BitVec.and_assoc op]
    simp
  have hsum : op &&& 0xFF7F#16 = (op &&& 0xFF00#16) + (op &&& 0x7F#16) := by
    rw [BitVec.add_eq_or_of_and_eq_zero _ _ hapart, ← BitVec.and_or_distrib_left]
    rfl
  rw [← BitVec.toNat_inj, hsum, BitVec.toNat_add, hhigh, hlow]
  omega

/-- The file bit of a register field is bit 4 of the opcode word (93_implementation_defined.md G6). -/
theorem toNat_bit_fileOfBit (op : Word) : (fileOfBit (op.getLsbD 4)).bit.toNat = op.toNat / 16 % 2 := by
  have hbit : op.getLsbD 4 = decide (op.toNat / 16 % 2 = 1) := by
    simp [BitVec.getLsbD, Nat.testBit_eq_decide_div_mod_eq]
  rw [hbit]
  rcases Nat.mod_two_eq_zero_or_one (op.toNat / 16) with h | h <;> rw [h] <;> rfl

/-! ### The extension word (R64) -/

/-- The instruction with `ext` as its extension word: `MMTM` and `MMFM` have one, their register mask. -/
def Instr.withExtension (ext : Word) : Instr → Instr
  | .mmtm f rp _ => .mmtm f rp ext
  | .mmfm f rp _ => .mmfm f rp ext
  | i => i

@[simp] theorem withExtension_wellFormed (i : Instr) (ext : Word) : (i.withExtension ext).wellFormed = i.wellFormed := by
  cases i <;> rfl

@[simp] theorem withExtension_words (i : Instr) (ext : Word) : (i.withExtension ext).words = i.words := by
  cases i <;> rfl

@[simp] theorem withExtension_opcode (i : Instr) (ext : Word) : (i.withExtension ext).opcode = i.opcode := by
  cases i <;> rfl

theorem words_one_or_two (i : Instr) : i.words = 1 ∨ i.words = 2 := by
  cases i with
  | mmtm | mmfm => exact .inr rfl
  | _ => exact .inl rfl

theorem withExtension_of_oneWord {i : Instr} (h : i.words = 1) (ext : Word) : i.withExtension ext = i := by
  cases i with
  | mmtm | mmfm => nomatch h
  | _ => rfl

theorem extension_of_oneWord {i : Instr} (h : i.words = 1) : i.extension = [] := by
  cases i with
  | mmtm | mmfm => nomatch h
  | _ => rfl

/-- An instruction of two words has one extension word. -/
theorem extension_of_twoWords {i : Instr} (h : i.words = 2) : ∃ ext, i.extension = [ext] ∧ i.withExtension ext = i := by
  cases i with
  | mmtm f rp list | mmfm f rp list => exact ⟨list, rfl, rfl⟩
  | _ => nomatch h

theorem encode_withExtension (i : Instr) (ext : Word) :
    encode (i.withExtension ext) = if i.words = 2 then [i.opcode, ext] else [i.opcode] := by
  cases i <;> rfl

/-! ### Decoding under any encoding (R66) -/

/-- Every row puts the extension word where `MMTM` and `MMFM` have their mask. -/
theorem form_withExtension {e : Enc} {r : OpcodeRow} (hr : r ∈ opcodeRows e) (op ext : Word) :
    r.form op ext = (r.form op 0).withExtension ext := by
  revert r
  simp only [opcodeRows, reconstructedRows, illegalRows, coreRows, pixelRows, List.cons_append, List.nil_append,
    List.forall_mem_cons, List.not_mem_nil, false_implies, implies_true, and_true]
  and_intros <;> rfl

theorem decodeWith_eq_ok_iff {e : Enc} {op ext : Word} {i : Instr} :
    decodeWith e op ext = .ok i ↔
      ∃ r, (opcodeRows e).find? (fun r => r.hit op) = some r ∧ r.form op ext = i ∧ i.wellFormed = true := by
  unfold decodeWith
  cases (opcodeRows e).find? (fun r => r.hit op) with
  | none => simp
  | some r =>
    simp only [Option.some.injEq, exists_eq_left']
    split
    · next hw => exact ⟨fun h => ⟨Except.ok.inj h, Except.ok.inj h ▸ hw⟩, fun h => congrArg _ h.1⟩
    · next hw => exact ⟨nofun, fun h => absurd (h.1 ▸ h.2) hw⟩

theorem hit_of_find {rows : List OpcodeRow} {r : OpcodeRow} {op : Word} (h : rows.find? (fun q => q.hit op) = some r) :
    r.hit op = true :=
  List.find?_some (p := fun q : OpcodeRow => q.hit op) h

theorem exists_find_of_hit {rows : List OpcodeRow} {q : OpcodeRow} {op : Word} (hq : q ∈ rows) (h : q.hit op = true) :
    ∃ r, rows.find? (fun q => q.hit op) = some r :=
  Option.isSome_iff_exists.mp ((List.find?_isSome (p := fun q : OpcodeRow => q.hit op)).mpr ⟨q, hq, h⟩)

/-- The opcode word decides the instruction but for its extension word. -/
theorem decodeWith_firstWord {e : Enc} {op ext : Word} {i : Instr} (h : decodeWith e op ext = .ok i) :
    ∃ j, decodeWith e op 0 = .ok j ∧ j.withExtension ext = i := by
  obtain ⟨r, hf, rfl, hw⟩ := decodeWith_eq_ok_iff.mp h
  have hform := form_withExtension (List.mem_of_find?_eq_some hf) op ext
  rw [hform, withExtension_wellFormed] at hw
  exact ⟨_, decodeWith_eq_ok_iff.mpr ⟨r, hf, rfl, hw⟩, hform.symm⟩

/-! ### Row by row under the default encoding -/

/-- An opcode word hits a row exactly when it is the opcode of the instruction that the row reads from it. -/
theorem hit_iff_opcode_form {r : OpcodeRow} (hr : r ∈ opcodeRows Enc.standard) (op ext : Word) :
    r.hit op = true ↔ (r.form op ext).opcode = op := by
  revert r
  simp only [opcodeRows, reconstructedRows, illegalRows, coreRows, pixelRows, Enc.standard, OpcodeRow.hit, decide_eq_true_eq,
    BitVec.ofNat_eq_ofNat, and_FFFF_eq_iff, and_FFE0_eq_iff, and_FF7F_eq_iff, and_FF00_eq_iff, and_FE00_eq_iff,
    and_FC00_eq_iff, Instr.opcode, List.cons_append, List.nil_append, List.forall_mem_cons, List.not_mem_nil, false_implies,
    implies_true, and_true]
  simp only [← BitVec.toNat_inj, toNat_append_field, BitVec.extractLsb'_toNat, toNat_bit_fileOfBit, BitVec.toNat_ofNat,
    Nat.shiftRight_eq_div_pow]
  and_intros <;> omega

/-- Where the row of an instruction stands in the table. -/
def Instr.rowIndex : Instr → Fin 31
  | .maybe7E00 _ => 0 | .maybe9E00 _ => 1 | .maybeD800 _ => 2 | .maybeDC00 _ => 3 | .maybeDE00 _ => 4 | .maybeFE00 _ => 5
  | .illop0000 _ => 6 | .illop0200 _ => 7 | .illop0400 _ => 8 | .illop0800 _ => 9 | .illop0A00 _ => 10
  | .illop0C00 _ => 11 | .illop0E00 _ => 12 | .illop3400 _ => 13 | .illopBE00 _ => 14
  | .trap _ => 15 | .reti => 16 | .rets _ => 17 | .jruc _ => 18 | .divs _ _ _ => 19 | .mmtm _ _ _ => 20 | .mmfm _ _ _ => 21
  | .pixbltBL => 22 | .pixbltBXY => 23 | .pixbltLL => 24 | .pixbltLXY => 25 | .pixbltXYL => 26 | .pixbltXYXY => 27
  | .fillL => 28 | .fillXY => 29 | .line _ => 30

/-- The row of an instruction under the default encoding. -/
def Instr.row (i : Instr) : OpcodeRow := (opcodeRows Enc.standard)[i.rowIndex.val]'i.rowIndex.isLt

theorem row_mem (i : Instr) : i.row ∈ opcodeRows Enc.standard := List.getElem_mem _

/-- The file bit above a register number (R64; 93_implementation_defined.md G6). -/
theorem fileOfBit_append {a : Nat} (hi : BitVec a) (f : RegFile) (rd : RegNum) :
    fileOfBit ((hi ++ f.bit ++ rd).getLsbD 4) = f := by
  rw [BitVec.getLsbD_append, if_neg (by decide), BitVec.getLsbD_append, if_pos (by decide)]
  cases f <;> rfl

theorem divs_opcode_source (rs : RegNum) (f : RegFile) (rd : RegNum) : (Instr.divs rs f rd).opcode.extractLsb' 5 4 = rs := by
  apply BitVec.eq_of_toNat_eq
  simp only [Instr.opcode, BitVec.extractLsb'_toNat, toNat_append_field, Nat.shiftRight_eq_div_pow]
  omega

theorem line_opcode_select (z : BitVec 1) : (Instr.line z).opcode.extractLsb' 7 1 = z := by
  revert z
  decide

/-- The row of an instruction reads it back from its opcode word. -/
theorem form_row (i : Instr) (ext : Word) : i.row.form i.opcode ext = i.withExtension ext := by
  cases i with
  | reti | pixbltBL | pixbltBXY | pixbltLL | pixbltLXY | pixbltXYL | pixbltXYXY | fillL | fillXY => rfl
  | trap | rets | jruc | illop0000 | illop0200 | illop0400 | illop0800 | illop0A00 | illop0C00 | illop0E00 | illop3400
  | illopBE00 | maybe7E00 | maybe9E00 | maybeD800 | maybeDC00 | maybeDE00 | maybeFE00 =>
    exact congrArg _ BitVec.extractLsb'_append_eq_right
  | divs rs f rd =>
    exact congr (congrArg₂ Instr.divs (divs_opcode_source rs f rd) (fileOfBit_append _ f rd))
      BitVec.extractLsb'_append_eq_right
  | mmtm f rp list =>
    exact congrArg₂ (Instr.mmtm · · ext) (fileOfBit_append _ f rp) BitVec.extractLsb'_append_eq_right
  | mmfm f rp list =>
    exact congrArg₂ (Instr.mmfm · · ext) (fileOfBit_append _ f rp) BitVec.extractLsb'_append_eq_right
  | line z => exact congrArg Instr.line (line_opcode_select z)

/-- An opcode word decodes to the instruction it is the opcode of, with whatever extension word follows. -/
theorem decode_opcode {i : Instr} (hw : i.wellFormed = true) (ext : Word) :
    decode i.opcode ext = .ok (i.withExtension ext) := by
  have hform := form_row i ext
  have hhit : i.row.hit i.opcode = true :=
    (hit_iff_opcode_form (row_mem i) _ ext).mpr (by rw [hform, withExtension_opcode])
  rw [← hform]
  exact decode_of_hit ext (row_mem i) hhit (by rw [hform, withExtension_wellFormed, hw])

/-! ### Words as bytes (20_memory.md R44, D1) -/

theorem wordOfBytes_bytesOfWord (w : Word) : wordOfBytes (w.extractLsb' 0 8) (w.extractLsb' 8 8) = w :=
  BitVec.extractLsb'_append_extractLsb' (w := 8) (len := 8)

theorem decodeBytes_oneWord {op : Word} {i : Instr} (h : ∀ ext, decode op ext = .ok i) (hi : i.words = 1)
    (rest : List Byte) : decodeBytes (bytesOfWord op ++ rest) = .ok (i, rest) := by
  simp only [bytesOfWord, List.cons_append, List.nil_append, decodeBytes, wordOfBytes_bytesOfWord, h, hi]
  rfl

theorem decodeBytes_twoWords {op ext : Word} {i : Instr} (h : decode op ext = .ok i) (hi : i.words = 2)
    (rest : List Byte) : decodeBytes (bytesOfWord op ++ (bytesOfWord ext ++ rest)) = .ok (i, rest) := by
  simp [bytesOfWord, decodeBytes, wordOfBytes_bytesOfWord, h, hi]

/-- Settles O2: one word decodes whatever follows it, two words by the word that follows. -/
theorem decodeOfEncodeIsInstruction : Obligations.DecodeOfEncodeIsInstruction := by
  intro i rest hw
  rcases words_one_or_two i with h1 | h2
  · have hdec : ∀ ext, decode i.opcode ext = .ok i := fun ext => by
      rw [decode_opcode hw, withExtension_of_oneWord h1]
    simpa [encode, extension_of_oneWord h1] using decodeBytes_oneWord hdec h1 rest
  · obtain ⟨ext, hext, hself⟩ := extension_of_twoWords h2
    have hdec : decode i.opcode ext = .ok i := by rw [decode_opcode hw, hself]
    simpa [encode, hext] using decodeBytes_twoWords hdec h2 rest

/-- Settles O3: the row that decodes reads an instruction whose opcode is the opcode word. -/
theorem encodeOfDecodeIsWords : Obligations.EncodeOfDecodeIsWords := by
  intro op ext i h
  obtain ⟨r, hf, rfl, hw⟩ := decodeWith_eq_ok_iff.mp h
  have hr := List.mem_of_find?_eq_some hf
  have hop := (hit_iff_opcode_form hr op 0).mp (hit_of_find hf)
  refine ⟨hw, ?_⟩
  rw [form_withExtension hr op ext, encode_withExtension, withExtension_words, hop]

/-- Settles O1: closed words, decoded. -/
theorem specWordsDecode : Obligations.SpecWordsDecode := by
  unfold Obligations.SpecWordsDecode
  decide

/-! ### The illegal and the reconstructed ranges, under every encoding (R61, R62) -/

/-- The rows `rows` of the table are those whose instructions have the property `P`, and no opcode word hits both one of them
and one of the rows before them. -/
structure IsFamily (e : Enc) (P : Instr → Bool) (before rows after : List OpcodeRow) : Prop where
  table : opcodeRows e = before ++ rows ++ after
  holds : ∀ op ext, ∀ r ∈ rows, P (r.form op ext) = true ∧ (r.form op ext).wellFormed = true
  only : ∀ op ext, ∀ r ∈ before ++ after, P (r.form op ext) = false
  apart : ∀ q ∈ rows, ∀ r ∈ before, q.apart r = true

/-- An opcode word decodes to an instruction of a family exactly when it hits one of the family's rows. -/
theorem IsFamily.decodes_iff {e : Enc} {P : Instr → Bool} {before rows after : List OpcodeRow}
    (h : IsFamily e P before rows after) (op ext : Word) :
    (∃ i, decodeWith e op ext = .ok i ∧ P i = true) ↔ ∃ r ∈ rows, r.hit op = true := by
  constructor
  · rintro ⟨i, hdec, hP⟩
    obtain ⟨r, hf, rfl, -⟩ := decodeWith_eq_ok_iff.mp hdec
    have hr : r ∈ before ++ rows ++ after := h.table ▸ List.mem_of_find?_eq_some hf
    refine ⟨r, ?_, hit_of_find hf⟩
    by_contra hout
    have hother : r ∈ before ++ after := by
      simp only [List.mem_append] at hr ⊢
      tauto
    simp [h.only op ext r hother] at hP
  · rintro ⟨q, hq, hhit⟩
    have hbefore : before.find? (fun r => r.hit op) = none :=
      List.find?_eq_none.mpr (fun r hr => by simp [not_hit_of_apart (h.apart q hq r hr) hhit])
    obtain ⟨r, hr⟩ := exists_find_of_hit hq hhit
    obtain ⟨hP, hw⟩ := h.holds op ext r (List.mem_of_find?_eq_some hr)
    refine ⟨_, decodeWith_eq_ok_iff.mpr ⟨r, ?_, rfl, hw⟩, hP⟩
    simp only [h.table, List.find?_append, hbefore, hr, Option.none_or, Option.some_or]

theorem reconstructed_isFamily (e : Enc) :
    IsFamily e Instr.isReconstructed [] reconstructedRows (illegalRows ++ coreRows e ++ pixelRows e) where
  table := rfl
  holds op ext := by
    simp only [reconstructedRows, List.forall_mem_cons, List.not_mem_nil, false_implies, implies_true, and_true]
    and_intros <;> rfl
  only op ext := by
    simp only [illegalRows, coreRows, pixelRows, List.cons_append, List.nil_append, List.forall_mem_cons,
      List.not_mem_nil, false_implies, implies_true, and_true]
    and_intros <;> rfl
  apart _ _ _ h := nomatch h

theorem illegal_isFamily (e : Enc) :
    IsFamily e Instr.isIllop reconstructedRows illegalRows (coreRows e ++ pixelRows e) where
  table := List.append_assoc _ _ _
  holds op ext := by
    simp only [illegalRows, List.forall_mem_cons, List.not_mem_nil, false_implies, implies_true, and_true]
    and_intros <;> rfl
  only op ext := by
    simp only [reconstructedRows, coreRows, pixelRows, List.cons_append, List.nil_append, List.forall_mem_cons,
      List.not_mem_nil, false_implies, implies_true, and_true]
    and_intros <;> rfl
  apart := by decide

/-- The nine ranges by their bounds and by match and mask. -/
theorem isIllegalOpcode_iff (op : Word) :
    isIllegalOpcode op = true ↔
      (op &&& 0xFF00#16 ∈ [0x0000#16, 0x0200#16, 0x0400#16, 0x0800#16, 0x0A00#16, 0x0C00#16, 0x0E00#16] ∨
        op &&& 0xFC00#16 = 0x3400#16 ∨ op &&& 0xFE00#16 = 0xBE00#16) := by
  simp only [isIllegalOpcode, List.any_cons, List.any_nil, Bool.or_eq_true, Bool.and_eq_true, decide_eq_true_eq,
    and_FF00_eq_iff, and_FE00_eq_iff, and_FC00_eq_iff, BitVec.toNat_ofNat, List.mem_cons, List.not_mem_nil,
    Bool.false_eq_true, or_false]
  omega

theorem illegalRows_hit_iff (op : Word) : (∃ r ∈ illegalRows, r.hit op = true) ↔ isIllegalOpcode op = true := by
  rw [isIllegalOpcode_iff]
  simp only [illegalRows, OpcodeRow.hit, List.exists_mem_cons_iff, List.not_mem_nil, decide_eq_true_eq, false_and,
    exists_false, or_false]
  simp only [List.mem_cons, List.not_mem_nil, or_false, or_assoc, BitVec.ofNat_eq_ofNat]

theorem reconstructedRows_hit_iff (op : Word) :
    (∃ r ∈ reconstructedRows, r.hit op = true) ↔ isReconstructedOpcode op = true := by
  simp only [reconstructedRows, OpcodeRow.hit, isReconstructedOpcode, List.exists_mem_cons_iff, List.any_cons, List.any_nil,
    Bool.or_eq_true, Bool.and_eq_true, decide_eq_true_eq, BitVec.ofNat_eq_ofNat, and_FF00_eq_iff, and_FE00_eq_iff,
    and_FC00_eq_iff, BitVec.toNat_ofNat, List.not_mem_nil, false_and, exists_false, Bool.false_eq_true, or_false]
  omega

end Sys2Proof

namespace Sys2Proof.Machine

/-! ### The instructions of the ranges (R61, R62; 60_exceptions.md R117) -/

theorem exec_isIllop {i : Instr} (h : i.isIllop = true) (s : State) : exec i s = s.takeIllop := by
  cases i with
  | illop0000 | illop0200 | illop0400 | illop0800 | illop0A00 | illop0C00 | illop0E00 | illop3400 | illopBE00 => rfl
  | _ => nomatch h

theorem exec_isReconstructed {i : Instr} (h : i.isReconstructed = true) (s : State) :
    exec i s = s.reconstructedOpcode i.opcode := by
  cases i with
  | maybe7E00 | maybe9E00 | maybeD800 | maybeDC00 | maybeDE00 | maybeFE00 => rfl
  | _ => nomatch h

theorem declaredIllegal_iff {p : Params} {op : Word} :
    p.declaredIllegal op = true ↔ ∃ r ∈ p.moreIllegal, r.1.toNat ≤ op.toNat ∧ op.toNat ≤ r.2.toNat := by
  simp only [Params.declaredIllegal, List.any_eq_true, Bool.and_eq_true, decide_eq_true_eq]

theorem declaredIllegal_eq_false {p : Params} {op : Word}
    (h : ∀ r ∈ p.moreIllegal, ¬ (r.1.toNat ≤ op.toNat ∧ op.toNat ≤ r.2.toNat)) : p.declaredIllegal op = false :=
  Bool.eq_false_iff.mpr fun hd => have ⟨r, hr, hop⟩ := declaredIllegal_iff.mp hd; h r hr hop

/-- The illegal-opcode entry pushes the address of the next word and ST (60_exceptions.md R106, D18). -/
theorem takeIllop_entersSaving {s : State} (hq : s.quiet) (hp : s.params.pcLow4 = .forceZero) :
    ∃ t, s.takeIllop = .next t ∧ EntersSaving s t 30#5 (s.pc + 16#32) s.st :=
  takeTrap_entersSaving hq hp 30#5 (s.pc + 16#32) s.st

/-- Settles O4: the illegal rows are a family of the table, and what they match are the nine ranges. -/
theorem illegalOpcodesAreTheNineRanges : Obligations.IllegalOpcodesAreTheNineRanges :=
  ⟨fun e op ext => ⟨((illegal_isFamily e).decodes_iff op ext).trans (illegalRows_hit_iff op), isIllegalOpcode_iff op⟩,
    fun _ s h => exec_isIllop h s⟩

/-- Settles O5: the reconstructed rows are a family of the table; `IsIllegal` decides between refusal and trap. -/
theorem reconstructedRangesRefusedUnlessDeclared : Obligations.ReconstructedRangesRefusedUnlessDeclared := by
  refine ⟨fun e op ext => ((reconstructed_isFamily e).decodes_iff op ext).trans (reconstructedRows_hit_iff op),
    fun i s hi => ⟨fun hno => ?_, fun hyes => ?_⟩⟩
  · rw [exec_isReconstructed hi, State.reconstructedOpcode, declaredIllegal_eq_false hno]
    rfl
  · have hexec : exec i s = s.takeIllop := by
      rw [exec_isReconstructed hi, State.reconstructedOpcode, if_pos (declaredIllegal_iff.mpr hyes)]
    rw [hexec]
    exact ⟨rfl, takeIllop_entersSaving⟩

/-! ### The opcode word at the PC (R60, R63, R66) -/

/-- Whether `ExecOther` supplies an instruction does not depend on its extension word. -/
theorem hasOwnMeaning_withExtension (p : Params) (op : Word) (i : Instr) (ext : Word) :
    p.hasOwnMeaning op (i.withExtension ext) = p.hasOwnMeaning op i := by
  cases i <;> rfl

theorem hasOwnMeaning_of_supplied {p : Params} {op : Word} {i : Instr}
    (h : passedOn i = true → p.supplies i = true ∧ ∀ m ∈ p.execOther, op &&& m.mask ≠ m.pattern) :
    p.hasOwnMeaning op i = true := by
  unfold Params.hasOwnMeaning
  cases hp : passedOn i with
  | false => rfl
  | true =>
    obtain ⟨hs, hother⟩ := h hp
    simp [hs, otherMeaning_eq_none hother]

/-- The fetch of the words after the opcode word: the extension word, where the instruction has one. -/
theorem fetchExtension {s : State} (hq : s.quiet) {i : Instr} (hfresh : s.freshInstruction i) :
    (s.noteFetch s.pc).fetchWords (s.pcNext 1) (i.words - 1) =
      .ok (if i.words = 2 then [s.peek (s.pc + 16#32) 16] else [], s.noteInstruction i) := by
  unfold State.noteInstruction
  rcases words_one_or_two i with h | h
  · rw [h]
    rfl
  · have hext : (s.noteFetch s.pc).fetchWord (s.pcNext 1) =
        .ok (s.peek (s.pc + 16#32) 16, (s.noteFetch s.pc).noteFetch (s.pc + 16#32)) :=
      fetchWord_fresh (s := s.noteFetch s.pc) hq (hfresh.2 h)
    rw [h]
    simp only [State.fetchWords, hext]
    rfl

/-- With fresh words and nothing on the bus, the instruction that they decode to runs after their fetch is noted. -/
theorem runInstruction_exec {s : State} (hq : s.quiet) {i : Instr} (hfresh : s.freshInstruction i)
    (hdec : decodeWith s.params.enc (s.peek s.pc 16) (s.peek (s.pc + 16#32) 16) = .ok i)
    (hown : s.params.hasOwnMeaning (s.peek s.pc 16) i = true) : s.runInstruction = exec i (s.noteInstruction i) := by
  obtain ⟨j, hj, hji⟩ := decodeWith_firstWord hdec
  have hwords : j.words = i.words := by rw [← hji, withExtension_words]
  have hownj : s.params.hasOwnMeaning (s.peek s.pc 16) j = true := by rw [← hown, ← hji, hasOwnMeaning_withExtension]
  have hall : decodeWith s.params.enc (s.peek s.pc 16)
      ((if i.words = 2 then [s.peek (s.pc + 16#32) 16] else []).getD 0 0) = .ok i := by
    rcases words_one_or_two i with h | h <;> rw [h]
    · rw [← hji, withExtension_of_oneWord (hwords.trans h)]
      exact hj
    · exact hdec
  unfold State.runInstruction
  rw [fetchWord_fresh hq hfresh.1]
  simp only [hj, hownj, if_true, hwords, fetchExtension hq hfresh, hall]

theorem runInstruction_noRow {s : State} (hq : s.quiet) (hfresh : s.fetchIsStale s.pc = false) {e : DecodeError}
    (hdec : decodeWith s.params.enc (s.peek s.pc 16) 0 = .error e) :
    s.runInstruction = (s.noteFetch s.pc).otherOpcode (s.peek s.pc 16) := by
  unfold State.runInstruction
  rw [fetchWord_fresh hq hfresh]
  simp only [hdec]

theorem runInstruction_notOwn {s : State} (hq : s.quiet) (hfresh : s.fetchIsStale s.pc = false) {i : Instr}
    (hdec : decodeWith s.params.enc (s.peek s.pc 16) 0 = .ok i)
    (hown : s.params.hasOwnMeaning (s.peek s.pc 16) i = false) :
    s.runInstruction = (s.noteFetch s.pc).givenOpcode (s.peek s.pc 16) := by
  unfold State.runInstruction
  rw [fetchWord_fresh hq hfresh]
  simp only [hdec, hown]
  rfl

theorem otherOpcode_declared {s : State} {op : Word}
    (h : ∃ r ∈ s.params.moreIllegal, r.1.toNat ≤ op.toNat ∧ op.toNat ≤ r.2.toNat) : s.otherOpcode op = s.takeIllop :=
  if_pos (declaredIllegal_iff.mpr h)

theorem otherOpcode_undeclared {s : State} {op : Word}
    (h : ∀ r ∈ s.params.moreIllegal, ¬ (r.1.toNat ≤ op.toNat ∧ op.toNat ≤ r.2.toNat)) :
    s.otherOpcode op = s.givenOpcode op :=
  if_neg (Bool.eq_false_iff.mp (declaredIllegal_eq_false h))

theorem givenOpcode_noMeaning {s : State} {op : Word} (h : ∀ m ∈ s.params.execOther, op &&& m.mask ≠ m.pattern) :
    s.givenOpcode op = .refused (.noMeaningGiven op) := by
  unfold State.givenOpcode
  rw [otherMeaning_eq_none h]

/-- Settles O53: the first word decides how many words are fetched, and all of them the instruction. -/
theorem stepRunsTheDecodedInstruction : Obligations.StepRunsTheDecodedInstruction := by
  intro s i rest hrun hnext hq hsel hdec hfresh hsupplied
  rw [step_runInstruction hrun hnext hsel]
  exact runInstruction_exec (s := s.setInputs rest) hq hfresh hdec (hasOwnMeaning_of_supplied hsupplied)

/-- Settles O54: a word in no row asks `IsIllegal` first, then `ExecOther`; one of the five instructions only the latter. -/
theorem undefinedOpcodeRefused : Obligations.UndefinedOpcodeRefused := by
  intro s rest hrun hnext hq hsel hfresh
  rw [step_runInstruction hrun hnext hsel]
  refine ⟨fun e he => ?_, fun i hi hpass hno hother => ?_⟩
  · rw [runInstruction_noRow (s := s.setInputs rest) hq hfresh he]
    refine ⟨fun hill hother => ?_, fun hill => ?_⟩
    · exact (otherOpcode_undeclared (s := (s.setInputs rest).noteFetch s.pc) hill).trans (givenOpcode_noMeaning hother)
    · exact otherOpcode_declared (s := (s.setInputs rest).noteFetch s.pc) hill
  · have hown : s.params.hasOwnMeaning (s.peek s.pc 16) i = false := by simp [Params.hasOwnMeaning, hpass, hno]
    rw [runInstruction_notOwn (s := s.setInputs rest) hq hfresh hi hown]
    exact givenOpcode_noMeaning hother

/-- Settles O18: the displacement of `>C0FF` takes the PC back over the word itself. -/
theorem selfJumpWaits : Obligations.SelfJumpWaits := by
  intro s rest hrun hnext hq henc hjruc hother hsel hfresh hop
  have hdec : decodeWith s.params.enc (s.peek s.pc 16) (s.peek (s.pc + 16#32) 16) = .ok (.jruc 0xFF#8) := by
    rw [henc, hop]
    exact decode_opcode (i := .jruc 0xFF#8) rfl _
  have hstep := stepRunsTheDecodedInstruction s _ rest hrun hnext hq hsel hdec ⟨hfresh, nofun⟩
    (fun _ => ⟨hjruc, hop.symm ▸ hother⟩)
  have hpc : s.pc + 16#32 + jumpOffset 0xFF#8 = s.pc := by
    rw [BitVec.add_assoc]
    exact BitVec.add_zero _
  refine ⟨_, hstep, ?_⟩
  exact congrArg (({ s with inputs := rest } : State).noteFetch s.pc).setPC hpc

end Sys2Proof.Machine

/-! ## Statements of the traps: TRAP, RETI, RETS, and the jump and the pixel instructions (40_trap_reti.md R70 to R79, R83) -/

namespace Sys2Proof.Machine

/-! ### TRAP (R70 to R72) -/

theorem exec_trap_saves {n : BitVec 5} (h : n ≠ 0#5) (s : State) :
    exec (.trap n) s = s.takeTrap n true (s.pc + 16#32) s.st :=
  congrArg (s.takeTrap n · (s.pc + 16#32) s.st) (decide_eq_true h)

/-- Settles O10: an entry that saves, with the address of the next word. -/
theorem trapSavesContextAndEnters : Obligations.TrapSavesContextAndEnters := by
  intro n s hn hq hp
  rw [exec_trap_saves hn]
  exact takeTrap_entersSaving hq hp n (s.pc + 16#32) s.st

/-- Settles O11: an entry that saves nothing, through vector 0. -/
theorem trapZeroChangesOnlyStAndPc : Obligations.TrapZeroChangesOnlyStAndPc :=
  fun s hq hp => takeTrap_false hq hp 0#5 (s.pcNext 1) s.st

/-! ### RETI and RETS (R74, R76) -/

/-- The return from interrupt with nothing inside its pops. -/
theorem returnFromInterrupt_quiet {s : State} (hq : s.quiet) :
    s.returnFromInterrupt =
      if stPBX (s.peek s.sp 32) then .refused .resumePixelOperation
      else ((s.setSP (s.params.stackDir.popped s.sp 2)).writeST (s.peek s.sp 32)).loadPC
        (s.peek (s.params.stackDir.popped s.sp 1) 32) := by
  have hq1 : (s.setSP (s.params.stackDir.popped s.sp 1)).quiet := hq
  have hq2 : (s.setSP (s.params.stackDir.popped s.sp 2)).quiet := hq
  have hdrop2 : s.drop32.drop32 = s.setSP (s.params.stackDir.popped s.sp 2) := by
    rw [drop32_quiet hq, drop32_quiet hq1, ← popped_popped _ s.sp 1 1]
    rfl
  have htop2 : s.drop32.top32 = s.peek (s.params.stackDir.popped s.sp 1) 32 := by
    rw [drop32_quiet hq, top32_quiet hq1]
    rfl
  unfold State.returnFromInterrupt
  rw [hdrop2, htop2, top32_quiet hq, unlessCut_quiet hq2]

/-- Settles O14: the popped PBX decides between the refusal and the two pops. -/
theorem retiPopsStThenPc : Obligations.RetiPopsStThenPc := by
  refine fun s hq => ⟨fun hpbx => ?_, fun hpbx hp => ?_⟩
  · exact (returnFromInterrupt_quiet hq).trans (if_pos hpbx)
  · have hpop := (returnFromInterrupt_quiet hq).trans (if_neg (Bool.eq_false_iff.mp hpbx))
    exact hpop.trans (loadPC_forceZero (by exact hp) _)

/-- As many pops take back the last of the pushes. -/
theorem popped_pushed_add (d : StackDir) (p : Long) (j k : Nat) : d.popped (d.pushed p (j + k)) k = d.pushed p j := by
  rw [← pushed_pushed, popped_pushed]

/-- Settles O15: what the entry saved is what the return pops. -/
theorem retiUndoesTrap : Obligations.RetiUndoesTrap := by
  intro n s hn hq hp hpbx hpc
  obtain ⟨t, ht, hsavedPC, hsavedST, hmem, hframe⟩ := trapSavesContextAndEnters n s hn hq hp
  have hsp : t.sp = s.params.stackDir.pushed s.sp 2 := by rw [hframe]
  have hparams : t.params = s.params := by rw [hframe]
  have hqt : t.quiet := by rw [hframe]; exact hq
  have hpoppedST : t.peek t.sp 32 = s.st := by rw [hsp, hsavedST]
  have hpoppedPC : t.peek (t.params.stackDir.popped t.sp 1) 32 = s.pc + 16#32 := by
    rw [hparams, hsp, popped_pushed_add _ _ 1 1, hsavedPC]
  have haligned : (s.pc + 16#32) &&& 0xFFFFFFF0#32 = s.pc + 16#32 := pcAligned_of_word (pcNext_word hpc 1)
  refine ⟨t, ht, ?_, hmem⟩
  rw [(retiPopsStThenPc t hqt).2 (by rw [hpoppedST, hpbx]) (by rw [hparams, hp]), hpoppedST, hpoppedPC, haligned, hparams,
    hsp, popped_pushed, hframe]

/-- Settles O16: one pop, and SP moved past the arguments. -/
theorem retsPopsOnlyPc : Obligations.RetsPopsOnlyPc := by
  intro n s hq hp
  have hq1 : (s.setSP (s.params.stackDir.popped s.sp 1)).quiet := hq
  show s.unlessCut _ _ = _
  rw [drop32_quiet hq, top32_quiet hq, unlessCut_quiet hq1]
  exact loadPC_forceZero (by exact hp) _

/-! ### JRUC and the pixel instructions (R77 to R79, R83) -/

/-- Settles O17: the next address and the displacement, as `JRUC` adds them. -/
theorem jrucAddsSignedWords : Obligations.JrucAddsSignedWords := fun _ _ => rfl

/-- Settles O24: each of the ten forms is an arm that refuses. -/
theorem pixelInstructionsRefused : Obligations.PixelInstructionsRefused := by
  intro s z
  simp only [List.forall_mem_cons, List.not_mem_nil, false_implies, implies_true, and_true]
  and_intros <;> rfl

/-! ### TRAP reads no enable and no request (R72, R73; 60_exceptions.md R92) -/

/-- The enables, the requests and the pins: INTENB, the stored part of INTPEND, HSTCTL and the levels of LINT1 and LINT2. -/
structure Requests where
  intenb : Word
  intpendHeld : Word
  hstctl : Hstctl
  lint1Low : Bool
  lint2Low : Bool

def State.requests (s : State) : Requests := ⟨s.intenb, s.intpendHeld, s.hstctl, s.lint1Low, s.lint2Low⟩

def State.setRequests (s : State) (r : Requests) : State :=
  { s with
    intenb := r.intenb
    intpendHeld := r.intpendHeld
    hstctl := r.hstctl
    lint1Low := r.lint1Low
    lint2Low := r.lint2Low }

/-- INTPEND reads the requests alone (10_state.md R20). -/
theorem intpend_setRequests (s t : State) : (t.setRequests s.requests).intpend = s.intpend := rfl

/-- The outcome with other requests in the state it answers. -/
def outcomeSetRequests (r : Requests) : Host.Outcome State Fault Refusal → Host.Outcome State Fault Refusal
  | .next t => .next (t.setRequests r)
  | .fault e => .fault e
  | .refused e => .refused e

section Requests
variable (s : State) (r : Requests)

@[simp] theorem isCut_setRequests : (s.setRequests r).isCut = s.isCut := rfl

theorem runBus_setRequests (es : List BusEvent) : (s.setRequests r).runBus es = (s.runBus es).setRequests r := by
  induction es generalizing s with
  | nil => rfl
  | cons e es ih =>
    cases e with
    | cycle | resetAsserted | cut => rfl
    | hostWrite a v => exact ih (s.store a v)

theorem beginCycle_setRequests : (s.setRequests r).beginCycle = s.beginCycle.setRequests r := runBus_setRequests s r s.bus

theorem afterCycles_setRequests (k : Nat) : (s.setRequests r).afterCycles k = (s.afterCycles k).setRequests r := by
  induction k with
  | zero => rfl
  | succ k ih => rw [State.afterCycles, ih, beginCycle_setRequests]; rfl

theorem fetched_setRequests (a : Long) (n : Nat) : (s.setRequests r).fetched a n = s.fetched a n := by
  unfold State.fetched
  simp only [afterCycles_setRequests]
  rfl

theorem writeCycles_setRequests (a : Long) {w : Nat} (v : BitVec w) (k : Nat) :
    (s.setRequests r).writeCycles a v k = (s.writeCycles a v k).setRequests r := by
  induction k with
  | zero => rfl
  | succ k ih =>
    simp only [State.writeCycles, ih, beginCycle_setRequests, isCut_setRequests]
    split <;> rfl

theorem push32_setRequests (v : Long) : (s.setRequests r).push32 v = (s.push32 v).setRequests r := by
  have hcycles := writeCycles_setRequests (s.setSP (s.params.stackDir.pushed s.sp 1)) r
    (s.params.stackDir.pushed s.sp 1) (s.params.bitOrder.arrange v)
  exact congrArg (State.markStale · _) (hcycles _)

theorem saveContext_setRequests (b : Bool) (p q : Long) :
    (s.setRequests r).saveContext b p q = (s.saveContext b p q).setRequests r := by
  cases b with
  | false => rfl
  | true =>
    show ((s.setRequests r).push32 p).push32 q = ((s.push32 p).push32 q).setRequests r
    rw [push32_setRequests, push32_setRequests]

theorem loadPC_setRequests (v : Long) : (s.setRequests r).loadPC v = outcomeSetRequests r (s.loadPC v) := by
  rcases loadPC_cases s v with ⟨hp, e⟩ | ⟨_, hv, e⟩ | ⟨hp, hv, e⟩ <;> rw [e]
  · exact loadPC_forceZero (s := s.setRequests r) hp v
  · exact loadPC_of_word (s.setRequests r) hv
  · exact loadPC_refuse (s := s.setRequests r) hp hv

theorem unlessCut_setRequests (t : State) (go : Host.Outcome State Fault Refusal) :
    (s.setRequests r).unlessCut (t.setRequests r) (outcomeSetRequests r go) = outcomeSetRequests r (s.unlessCut t go) := by
  unfold State.unlessCut
  rw [isCut_setRequests]
  split <;> rfl

/-- An entry does the same whatever the requests are, and leaves them as they are. -/
theorem takeTrap_setRequests (n : BitVec 5) (b : Bool) (p q : Long) :
    (s.setRequests r).takeTrap n b p q = outcomeSetRequests r (s.takeTrap n b p q) := by
  have hsaved : ((s.setRequests r).saveContext b p q).writeST stEntry =
      ((s.saveContext b p q).writeST stEntry).setRequests r := by
    rw [saveContext_setRequests]
    rfl
  unfold State.takeTrap State.enterVector State.afterRead
  simp only [hsaved, afterCycles_setRequests, fetched_setRequests, loadPC_setRequests, unlessCut_setRequests]

end Requests

/-- Under the default policy an entry always answers a next state, cut short or not. -/
theorem takeTrap_next {s : State} (hp : s.params.pcLow4 = .forceZero) (n : BitVec 5) (b : Bool) (p q : Long) :
    ∃ t, s.takeTrap n b p q = .next t := by
  rcases takeTrap_cases s n b p q with ⟨t, _, h⟩ | h
  · exact ⟨_, h⟩
  · exact ⟨_, h.trans (loadPC_forceZero (by simp [hp]) _)⟩

/-- Settles O12: an entry does the same under all requests, its own among them. -/
theorem trapIgnoresEnablesAndRequests : Obligations.TrapIgnoresEnablesAndRequests := by
  intro n s enables held h low1 low2 hp
  obtain ⟨t, ht⟩ := takeTrap_next hp n (n ≠ 0) (s.pcNext 1) s.st
  have hother (r : Requests) : exec (.trap n) (s.setRequests r) = .next (t.setRequests r) :=
    (takeTrap_setRequests s r n (n ≠ 0) (s.pcNext 1) s.st).trans (congrArg (outcomeSetRequests r) ht)
  have hown : t = t.setRequests s.requests := Host.Outcome.next.inj (ht.symm.trans (hother s.requests))
  refine ⟨t, ht, ?_, ?_, ?_, hother ⟨enables, held, h, low1, low2⟩⟩ <;> rw [hown]
  · rfl
  · exact intpend_setRequests s t
  · rfl

end Sys2Proof.Machine

/-! ## Statements of the instructions on registers: DIVS, MMTM and MMFM (40_trap_reti.md R80 to R82) -/

namespace Sys2Proof.Machine

/-! ### Registers -/

@[simp] theorem getReg_writeST (s : State) (v : Long) (g : RegFile) (k : RegNum) :
    (s.writeST v).getReg g k = s.getReg g k := rfl
@[simp] theorem getReg_advance (s : State) (i : Nat) (g : RegFile) (k : RegNum) :
    (s.advance i).getReg g k = s.getReg g k := rfl
@[simp] theorem getReg_store (s : State) (a : Long) {w : Nat} (v : BitVec w) (g : RegFile) (k : RegNum) :
    (s.store a v).getReg g k = s.getReg g k := rfl

@[simp] theorem getReg_setReg_same (s : State) (f : RegFile) (n : RegNum) (v : Long) : (s.setReg f n v).getReg f n = v := by
  rw [getReg_setReg, if_pos ⟨rfl, .inl rfl⟩]

theorem getReg_setReg_ne (s : State) (f : RegFile) {n k : RegNum} (h : k ≠ n) (v : Long) :
    (s.setReg f n v).getReg f k = s.getReg f k := by
  rw [getReg_setReg, if_neg (fun e => h e.1)]

theorem untouched_cons {f g : RegFile} {n k : RegNum} {ns : List RegNum} :
    untouched f (n :: ns) g k ↔ untouched f [n] g k ∧ untouched f ns g k := by
  simp only [untouched, List.mem_cons, List.not_mem_nil, or_false]
  tauto

theorem getReg_setReg_untouched {f g : RegFile} {n k : RegNum} (h : untouched f [n] g k) (s : State) (v : Long) :
    (s.setReg f n v).getReg g k = s.getReg g k := by
  refine (getReg_setReg s f g n k v).trans (if_neg fun ⟨hk, hg⟩ => h ⟨List.mem_singleton.mpr hk, ?_⟩)
  rwa [hk]

/-- A register of a list of file `f` is that file's, or SP, which is in both files. -/
theorem getReg_of_sharing (s : State) {f g : RegFile} {k : RegNum} (h : g = f ∨ k = 15#4) :
    s.getReg g k = s.getReg f k := by
  rcases h with rfl | rfl <;> rfl

/-- `t` is `s` but for the registers. -/
def SameButRegs (s t : State) : Prop := t = { s with sp := t.sp, fileA := t.fileA, fileB := t.fileB }

theorem SameButRegs.setReg {s t : State} (h : SameButRegs s t) (f : RegFile) (n : RegNum) (v : Long) :
    SameButRegs s (t.setReg f n v) := by
  unfold SameButRegs at *
  rw [h]
  unfold State.setReg
  split
  · cases f <;> rfl
  · rfl

theorem SameButRegs.peek {s t : State} (h : SameButRegs s t) (a : Long) (n : Nat) : t.peek a n = s.peek a n := by
  rw [h]
  rfl

/-- Two states with the same registers hold the same files and the same SP. -/
theorem regs_eq_of_getReg {s t : State} (h : ∀ g k, t.getReg g k = s.getReg g k) :
    t.sp = s.sp ∧ t.fileA = s.fileA ∧ t.fileB = s.fileB := by
  have below {i : Nat} (hi : i < 15) : (BitVec.ofNat 4 i).toNat = i := Nat.mod_eq_of_lt (by omega)
  refine ⟨h .a 15#4, Vector.ext fun i hi => ?_, Vector.ext fun i hi => ?_⟩
  · simpa [State.getReg, below hi, hi] using h .a (BitVec.ofNat 4 i)
  · simpa [State.getReg, below hi, hi] using h .b (BitVec.ofNat 4 i)

/-! ### DIVS (R80) -/

/-- The registers that a division writes. -/
def divsTargets (rd : RegNum) : List RegNum := if divsPair rd then [rd, rd + 1] else [rd]

theorem regNum_ne_next (n : RegNum) : n ≠ n + 1 := by
  revert n
  decide

theorem divsPair_even {rd : RegNum} (h : rd.getLsbD 0 = false) : divsPair rd = true := by
  rw [divsPair, h]
  rfl

theorem divsPair_odd {rd : RegNum} (h : rd.getLsbD 0 = true) : divsPair rd = false := by
  rw [divsPair, h]
  rfl

theorem writeDivision_pair {rd : RegNum} (h : divsPair rd = true) (s : State) (f : RegFile) (q r : Long) :
    s.writeDivision f rd q r = (s.setReg f rd q).setReg f (rd + 1) r := if_pos h

theorem writeDivision_single {rd : RegNum} (h : divsPair rd = false) (s : State) (f : RegFile) (q r : Long) :
    s.writeDivision f rd q r = s.setReg f rd q := if_neg (Bool.eq_false_iff.mp h)

theorem getReg_writeDivision_quotient (s : State) (f : RegFile) (rd : RegNum) (q r : Long) :
    (s.writeDivision f rd q r).getReg f rd = q := by
  cases h : divsPair rd with
  | true => rw [writeDivision_pair h, getReg_setReg_ne _ _ (regNum_ne_next rd), getReg_setReg_same]
  | false => rw [writeDivision_single h, getReg_setReg_same]

theorem getReg_writeDivision_remainder {rd : RegNum} (h : divsPair rd = true) (s : State) (f : RegFile) (q r : Long) :
    (s.writeDivision f rd q r).getReg f (rd + 1) = r := by
  rw [writeDivision_pair h, getReg_setReg_same]

theorem getReg_writeDivision_untouched {f g : RegFile} {rd k : RegNum} (h : untouched f (divsTargets rd) g k) (s : State)
    (q r : Long) : (s.writeDivision f rd q r).getReg g k = s.getReg g k := by
  unfold divsTargets at h
  cases hp : divsPair rd with
  | true =>
    rw [hp] at h
    obtain ⟨hrd, hnext⟩ := untouched_cons.mp h
    rw [writeDivision_pair hp, getReg_setReg_untouched hnext, getReg_setReg_untouched hrd]
  | false =>
    rw [hp] at h
    rw [writeDivision_single hp, getReg_setReg_untouched h]

theorem sameButRegs_writeDivision (s : State) (f : RegFile) (rd : RegNum) (q r : Long) :
    SameButRegs s (s.writeDivision f rd q r) := by
  have hself : SameButRegs s s := rfl
  unfold State.writeDivision
  split
  · exact (hself.setReg _ _ _).setReg _ _ _
  · exact hself.setReg _ _ _

theorem withCond_low (cond : BitVec 4) (st : Long) : (withCond cond st).extractLsb' 0 28 = st.extractLsb' 0 28 :=
  BitVec.extractLsb'_append_eq_right

/-- What `DIVS` does in every state: its results written, ST bits 31:28 free, the PC past its word. -/
theorem exec_divs (rs : RegNum) (f : RegFile) (rd : RegNum) (s : State) :
    exec (.divs rs f rd) s = .next (((s.writeDivision f rd
      (divsQuotient (divsPair rd) (divsDividend s f rd) (s.getReg f rs))
      (divsRemainder (divsDividend s f rd) (s.getReg f rs))).writeST (divsST s f rd (s.getReg f rs))).advance 1) := rfl

theorem divsDividend_pair {rd : RegNum} (h : divsPair rd = true) (s : State) (f : RegFile) :
    divsDividend s f rd = s.getReg f rd ++ s.getReg f (rd + 1) := if_pos h

theorem divsDividend_single {rd : RegNum} (h : divsPair rd = false) (s : State) (f : RegFile) :
    divsDividend s f rd = (s.getReg f rd).signExtend 64 := if_neg (Bool.eq_false_iff.mp h)

/-- Settles O19: the registers of a division, for a pair and for one register. -/
theorem divsWritesItsDestination : Obligations.DivsWritesItsDestination := by
  refine fun rs f rd s => ⟨_, exec_divs rs f rd s, fun heven => ?_, fun hodd => ?_, withCond_low _ _, ?_⟩
  · have hp := divsPair_even heven
    rw [← divsDividend_pair hp]
    simp only [getReg_advance, getReg_writeST]
    refine ⟨?_, getReg_writeDivision_remainder hp s f _ _, fun g k hk => ?_⟩
    · rw [getReg_writeDivision_quotient, hp]
    · exact getReg_writeDivision_untouched (by rwa [divsTargets, if_pos hp]) s _ _
  · have hp := divsPair_odd hodd
    rw [← divsDividend_single hp]
    simp only [getReg_advance, getReg_writeST]
    refine ⟨?_, fun g k hk => ?_⟩
    · rw [getReg_writeDivision_quotient, hp]
    · exact getReg_writeDivision_untouched (by rwa [divsTargets, hp]) s _ _
  · have hframe := sameButRegs_writeDivision s f rd (divsQuotient (divsPair rd) (divsDividend s f rd) (s.getReg f rs))
      (divsRemainder (divsDividend s f rd) (s.getReg f rs))
    rw [hframe]
    rfl

/-! ### DIVS is a signed division -/

theorem natAbs_toInt_le (x : Long) : x.toInt.natAbs ≤ 2 ^ 31 := by
  have hlow := BitVec.le_toInt x
  have hhigh := BitVec.toInt_lt (x := x)
  omega

theorem divsFits_eq_true {dividend : BitVec 64} {divisor : Long} (h0 : divisor ≠ 0#32)
    (hlow : -(2 ^ 31) ≤ dividend.toInt.tdiv divisor.toInt) (hhigh : dividend.toInt.tdiv divisor.toInt < 2 ^ 31) :
    divsFits dividend divisor = true := by
  simp only [divsFits, Bool.and_eq_true, decide_eq_true_eq]
  exact ⟨⟨h0, hlow⟩, hhigh⟩

theorem natAbs_tmod_lt (a : Int) {b : Int} (hb : b ≠ 0) : (a.tmod b).natAbs < b.natAbs := by
  rw [Int.natAbs_tmod]
  exact Nat.mod_lt _ (Int.natAbs_pos.mpr hb)

section Division
variable {dividend : BitVec 64} {divisor : Long} (h0 : divisor ≠ 0#32)
  (hlow : -(2 ^ 31) ≤ dividend.toInt.tdiv divisor.toInt) (hhigh : dividend.toInt.tdiv divisor.toInt < 2 ^ 31)
include h0 hlow hhigh

/-- Where the quotient fits it is the truncated one. -/
theorem toInt_divsQuotient (pair : Bool) :
    (divsQuotient pair dividend divisor).toInt = dividend.toInt.tdiv divisor.toInt := by
  rw [divsQuotient, if_pos (divsFits_eq_true h0 hlow hhigh), BitVec.toInt_ofInt_eq_self (by decide) hlow hhigh]

/-- Then the remainder fits too, being smaller than the divisor. -/
theorem toInt_divsRemainder : (divsRemainder dividend divisor).toInt = dividend.toInt.tmod divisor.toInt := by
  have hlt := natAbs_tmod_lt dividend.toInt (BitVec.toInt_ne.mpr h0)
  have hle := natAbs_toInt_le divisor
  rw [divsRemainder, if_pos (divsFits_eq_true h0 hlow hhigh), BitVec.toInt_ofInt_eq_self (by decide)] <;> omega

end Division

/-- A quotient is no larger than its dividend. -/
theorem le_tdiv_toInt (x : Long) (b : Int) : -(2 ^ 31) ≤ x.toInt.tdiv b := by
  have hquot := Int.natAbs_tdiv_le_natAbs x.toInt b
  have hle := natAbs_toInt_le x
  omega

/-- Settles O20: a truncated quotient and its remainder make up the dividend. -/
theorem divsIsSignedDivision : Obligations.DivsIsSignedDivision := by
  intro rs f rd s
  obtain ⟨t, ht, heven, hodd, -, -⟩ := divsWritesItsDestination rs f rd s
  refine ⟨t, ht, fun hrd h0 hlow hhigh => ?_, fun hrd h0 hhigh => ?_⟩
  · obtain ⟨hq, hr, -⟩ := heven hrd
    rw [hq, hr, toInt_divsQuotient h0 hlow hhigh, toInt_divsRemainder h0 hlow hhigh]
    exact ⟨Int.tdiv_mul_add_tmod _ _, natAbs_tmod_lt _ (BitVec.toInt_ne.mpr h0)⟩
  · have hext : ((s.getReg f rd).signExtend 64).toInt = (s.getReg f rd).toInt := BitVec.toInt_signExtend_of_le (by decide)
    have hlow := le_tdiv_toInt (s.getReg f rd) (s.getReg f rs).toInt
    rw [(hodd hrd).1, toInt_divsQuotient h0 (by rwa [hext]) (by rwa [hext]), hext, mul_comm, ← Int.tmod_def]
    exact natAbs_tmod_lt _ (BitVec.toInt_ne.mpr h0)

/-! ### The bits that a row of pushes occupies (20_memory.md R45) -/

theorem pushed_succ (d : StackDir) (p : Long) (k : Nat) : d.pushed (d.pushed p 1) k = d.pushed p (k + 1) := by
  rw [pushed_pushed, Nat.add_comm]

theorem popped_succ (d : StackDir) (p : Long) (k : Nat) : d.popped (d.popped p 1) k = d.popped p (k + 1) := by
  rw [popped_popped, Nat.add_comm]

@[simp] theorem popped_zero (d : StackDir) (p : Long) : d.popped p 0 = p := by
  cases d <;> simp [StackDir.popped]

/-- A bit outside the field of `k + 1` pushes is outside the first push and outside the field of the others. -/
theorem low_succ_covers (d : StackDir) (p b : Long) (k : Nat) (h : 32 * (k + 1) ≤ (b - d.low p (k + 1)).toNat) :
    32 ≤ (b - d.pushed p 1).toNat ∧ 32 * k ≤ (b - d.low (d.pushed p 1) k).toNat := by
  have hlt : (b - d.low p (k + 1)).toNat < 2 ^ 32 := BitVec.isLt _
  cases d with
  | down =>
    have hlow : StackDir.down.low (StackDir.down.pushed p 1) k = StackDir.down.low p (k + 1) := pushed_succ .down p k
    have hfirst : b - StackDir.down.pushed p 1 = b - StackDir.down.low p (k + 1) - 32#32 * BitVec.ofNat 32 k := by
      rw [← hlow]
      simp only [StackDir.low]
      abel
    have hk : (32#32 * BitVec.ofNat 32 k).toNat = 32 * k := by
      rw [BitVec.toNat_mul, BitVec.toNat_ofNat, BitVec.toNat_ofNat]
      omega
    rw [hlow, hfirst, BitVec.toNat_sub_of_le (BitVec.le_def.mpr (by omega)), hk]
    omega
  | up =>
    have hrest : b - StackDir.up.low (StackDir.up.pushed p 1) k = b - StackDir.up.low p (k + 1) - 32#32 :=
      (sub_sub _ _ _).symm
    have hle : 32 ≤ (b - StackDir.up.low p (k + 1)).toNat := Nat.le_of_add_left_le h
    refine ⟨hle, ?_⟩
    rw [hrest, BitVec.toNat_sub_of_le (y := 32#32) hle, show (32#32 : Long).toNat = 32 from rfl]
    omega

/-- The slot of a push is outside the field of the pushes after it. -/
theorem slot_outside_low (d : StackDir) (q : Long) {k i : Nat} (hk : k < 2 ^ 27) (hi : i < 32) :
    32 * k ≤ (q + BitVec.ofNat 32 i - d.low q k).toNat := by
  cases d with
  | down =>
    have hoff : q + BitVec.ofNat 32 i - StackDir.down.low q k = BitVec.ofNat 32 (i + 32 * k) := by
      rw [BitVec.ofNat_add, BitVec.ofNat_mul]
      simp only [StackDir.low]
      abel
    rw [hoff, BitVec.toNat_ofNat]
    omega
  | up =>
    have hoff : q + BitVec.ofNat 32 i - StackDir.up.low q k = BitVec.ofNat 32 i - 32#32 := add_sub_add_left_eq_sub _ _ _
    rw [hoff, BitVec.toNat_sub, show (32#32 : Long).toNat = 32 from rfl, BitVec.toNat_ofNat]
    omega

/-! ### MMTM (R82) -/

/-- `t` is `s` but for the registers, memory and the note of changed words. -/
def SameButRegsAndMemory (s t : State) : Prop :=
  t = { s with sp := t.sp, fileA := t.fileA, fileB := t.fileB, mem := t.mem, stale := t.stale }

section PushRegs
variable {s : State} (hq : s.quiet) (regs : State) (f : RegFile) (rp : RegNum) (p : Long) (ns : List RegNum)
include hq

theorem pushRegs_cons (n : RegNum) :
    s.pushRegs regs f rp p (n :: ns) = (s.store (s.params.stackDir.pushed p 1)
      (mmtmValue regs f rp n (s.params.stackDir.pushed p 1))).pushRegs regs f rp (s.params.stackDir.pushed p 1) ns := by
  rw [State.pushRegs, write_quiet hq]

theorem sameButRegsAndMemory_pushRegs : SameButRegsAndMemory s (s.pushRegs regs f rp p ns) := by
  induction ns generalizing s p with
  | nil =>
    have hself : SameButRegs s s := rfl
    have hset := hself.setReg f rp p
    unfold SameButRegsAndMemory State.pushRegs
    rw [hset]
  | cons n ns ih =>
    rw [pushRegs_cons hq]
    exact ih (quiet_store hq _ _) _

/-- The pointer ends after the last push; every other register is unchanged. -/
theorem getReg_pushRegs (g : RegFile) (k : RegNum) :
    (s.pushRegs regs f rp p ns).getReg g k =
      (s.setReg f rp (s.params.stackDir.pushed p ns.length)).getReg g k := by
  induction ns generalizing s p with
  | nil => rw [List.length_nil, pushed_zero]; rfl
  | cons n ns ih =>
    rw [pushRegs_cons hq, ih (quiet_store hq _ _), store_params, pushed_succ, List.length_cons, getReg_setReg,
      getReg_setReg, getReg_store]

/-- The pushes change nothing outside their field. -/
theorem sameOutside_pushRegs :
    sameOutside s.mem (s.pushRegs regs f rp p ns).mem (s.params.stackDir.low p ns.length) (32 * ns.length) := by
  induction ns generalizing s p with
  | nil => exact fun b _ => by rw [State.pushRegs, setReg_mem]
  | cons n ns ih =>
    intro b hb
    obtain ⟨hfirst, hrest⟩ := low_succ_covers _ _ _ _ hb
    rw [pushRegs_cons hq, ih (quiet_store hq _ _) _ b hrest]
    exact sameOutside_write _ _ _ (by decide) b hfirst

/-- Each listed register lies where its push went: the later pushes leave its slot alone. -/
theorem peek_pushRegs (hlen : ns.length < 2 ^ 27) {j : Nat} {n : RegNum} (hj : ns[j]? = some n) :
    (s.pushRegs regs f rp p ns).peek (s.params.stackDir.pushed p (j + 1)) 32 =
      mmtmValue regs f rp n (s.params.stackDir.pushed p (j + 1)) := by
  induction ns generalizing s p j with
  | nil => nomatch hj
  | cons m ns ih =>
    have hlen' : ns.length < 2 ^ 27 := Nat.lt_of_succ_lt hlen
    rw [pushRegs_cons hq]
    generalize ha : s.params.stackDir.pushed p 1 = a
    generalize hv : mmtmValue regs f rp m a = v
    have hq' : (s.store a v).quiet := quiet_store hq a v
    cases j with
    | zero =>
      obtain rfl : m = n := Option.some.inj hj
      have hslot : ((s.store a v).pushRegs regs f rp a ns).peek a 32 = (s.store a v).peek a 32 := by
        refine peek_congr ?_ (read_congr _ _ _ _ fun i hi => ?_)
        · rw [sameButRegsAndMemory_pushRegs hq']
        · exact sameOutside_pushRegs hq' regs f rp a ns _ (slot_outside_low _ a hlen' hi)
      rw [ha, hv, hslot, peek_store_same s a v (by decide)]
    | succ j =>
      have hrest := ih hq' a hlen' hj
      rwa [store_params, ← ha, pushed_succ, ha] at hrest

end PushRegs

theorem exec_mmtm {s : State} (hq : s.quiet) (f : RegFile) (rp : RegNum) (list : Word) :
    exec (.mmtm f rp list) s = .next ((s.pushRegs s f rp (s.getReg f rp) (mmtmList list)).advance 2) := by
  have hquiet : (s.pushRegs s f rp (s.getReg f rp) (mmtmList list)).quiet := by
    rw [sameButRegsAndMemory_pushRegs hq]
    exact hq
  exact unlessCut_quiet hquiet _

/-- A list names at most the sixteen registers of a file. -/
theorem length_mmtmList_le (list : Word) : (mmtmList list).length ≤ 16 := List.length_filter_le _ _

/-- Settles O21: the pushes, and the advance past both words. -/
theorem mmtmPushesListedRegisters : Obligations.MmtmPushesListedRegisters := by
  intro f rp list s hq
  have hlen : (mmtmList list).length < 2 ^ 27 := by have := length_mmtmList_le list; omega
  have hframe := sameButRegsAndMemory_pushRegs hq s f rp (s.getReg f rp) (mmtmList list)
  have hreg := getReg_pushRegs hq s f rp (s.getReg f rp) (mmtmList list)
  refine ⟨_, exec_mmtm hq f rp list, ?_, fun j n hj hn => ?_, ?_, fun g k hk => ?_, ?_⟩
  · rw [getReg_advance, hreg, getReg_setReg_same]
  · exact (peek_pushRegs hq s f rp _ _ hlen hj).trans (if_neg hn)
  · exact sameOutside_pushRegs hq s f rp _ _
  · rw [getReg_advance, hreg, getReg_setReg_untouched hk]
  · rw [hframe]
    rfl

/-! ### MMFM (R81) -/

section PopRegs
variable {s : State} (hq : s.quiet) (f : RegFile) (p : Long) (ns : List RegNum)
include hq

theorem popRegs_cons (n : RegNum) :
    s.popRegs f p (n :: ns) = (s.setReg f n (s.peek p 32)).popRegs f (s.params.stackDir.popped p 1) ns := by
  rw [State.popRegs, afterRead_quiet hq, fetched_quiet hq]

theorem sameButRegs_popRegs : SameButRegs s (s.popRegs f p ns) := by
  refine popRegs_induct (P := SameButRegs s) f (fun t a h => ?_) (fun t n v h => h.setReg f n v) ns s p rfl
  have ht : t.quiet := by rw [h]; exact hq
  rwa [afterRead_quiet ht]

theorem quiet_setReg (n : RegNum) (v : Long) : (s.setReg f n v).quiet := (setReg_bus s f n v).trans hq

/-- A register outside the list is unchanged. -/
theorem getReg_popRegs_untouched {g : RegFile} {k : RegNum} (hk : untouched f ns g k) :
    (s.popRegs f p ns).getReg g k = s.getReg g k := by
  induction ns generalizing s p with
  | nil => rfl
  | cons n ns ih =>
    obtain ⟨hn, hns⟩ := untouched_cons.mp hk
    rw [popRegs_cons hq, ih (quiet_setReg hq f n _) _ hns, getReg_setReg_untouched hn]

/-- Each listed register holds what its pop read: no register is listed twice, and reading changes no memory. -/
theorem getReg_popRegs (hnodup : ns.Nodup) {j : Nat} {n : RegNum} (hj : ns[j]? = some n) :
    (s.popRegs f p ns).getReg f n = s.peek (s.params.stackDir.popped p j) 32 := by
  induction ns generalizing s p j with
  | nil => nomatch hj
  | cons m ns ih =>
    obtain ⟨hm, hnodup'⟩ := List.nodup_cons.mp hnodup
    rw [popRegs_cons hq]
    cases j with
    | zero =>
      obtain rfl : m = n := Option.some.inj hj
      rw [getReg_popRegs_untouched (quiet_setReg hq f m _) _ _ _ (fun h => hm h.1), getReg_setReg_same, popped_zero]
    | succ j =>
      have hpeek := (show SameButRegs s s from rfl).setReg f m (s.peek p 32)
      rw [ih (quiet_setReg hq f m _) _ hnodup' hj, hpeek.peek, setReg_params, popped_succ]

end PopRegs

theorem nodup_mmfmList (list : Word) : (mmfmList list).Nodup :=
  List.Nodup.filter _ (by decide)

theorem exec_mmfm {s : State} (hq : s.quiet) (f : RegFile) (rp : RegNum) (list : Word) :
    exec (.mmfm f rp list) s = .next (((s.popRegs f (s.getReg f rp) (mmfmList list)).setReg f rp
      (mmfmPointerAfter s.params.stackDir (s.getReg f rp) ((s.popRegs f (s.getReg f rp) (mmfmList list)).getReg f rp) rp
        (mmfmList list))).advance 2) := by
  have hquiet : (s.popRegs f (s.getReg f rp) (mmfmList list)).quiet := by
    rw [sameButRegs_popRegs hq]
    exact hq
  exact unlessCut_quiet hquiet _

theorem mmfmPointerAfter_not_listed {rp : RegNum} {ns : List RegNum} (h : rp ∉ ns) (d : StackDir) (before popped : Long) :
    mmfmPointerAfter d before popped rp ns = d.popped before ns.length :=
  if_neg (fun hc => h (List.contains_iff_mem.mp hc))

/-- Settles O22: the pops, the pointer settled after them, and the advance past both words. -/
theorem mmfmPopsListedRegisters : Obligations.MmfmPopsListedRegisters := by
  intro f rp list s hq
  have hframe := sameButRegs_popRegs hq f (s.getReg f rp) (mmfmList list)
  refine ⟨_, exec_mmfm hq f rp list, fun hrp => ?_, fun j n hj hn => ?_, fun g k hk => ?_, ?_⟩
  · rw [getReg_advance, getReg_setReg_same, mmfmPointerAfter_not_listed hrp]
  · rw [getReg_advance, getReg_setReg_ne _ _ hn, getReg_popRegs hq f _ _ (nodup_mmfmList list) hj]
  · obtain ⟨hrp, hlist⟩ := untouched_cons.mp hk
    rw [getReg_advance, getReg_setReg_untouched hrp, getReg_popRegs_untouched hq f _ _ hlist]
  · rw [hframe.setReg f rp _]
    rfl

/-! ### MMFM after MMTM -/

/-- Under the reversed mask MMFM pops in the opposite order of the pushes. -/
theorem mmfmList_reverse (list : Word) : mmfmList list.reverse = (mmtmList list).reverse := by
  unfold mmfmList mmtmList
  rw [List.filter_reverse]
  refine congrArg List.reverse (List.filter_congr fun n _ => ?_)
  rw [BitVec.getLsbD_reverse, BitVec.getMsbD_eq_getLsbD, decide_eq_true (show n.toNat < 16 from n.isLt), Bool.true_and]

/-- Settles O23: the pops find each register where its push went. -/
theorem mmfmUndoesMmtm : Obligations.MmfmUndoesMmtm := by
  intro f rp list s hq hrp
  obtain ⟨t, ht, hptr, hslots, -, hkept, htframe⟩ := mmtmPushesListedRegisters f rp list s hq
  have hqt : t.quiet := by rw [htframe]; exact hq
  have hparams : t.params = s.params := by rw [htframe]
  obtain ⟨u, hu, huptr, hupops, hukept, huframe⟩ := mmfmPopsListedRegisters f rp list.reverse t hqt
  rw [mmfmList_reverse] at huptr hupops hukept
  rw [hparams, hptr] at huptr hupops
  have hlisted {n : RegNum} (hn : n ∈ mmtmList list) : u.getReg f n = s.getReg f n := by
    obtain ⟨j, hj, hjn⟩ := List.getElem_of_mem hn
    have hpush : (mmtmList list)[j]? = some n := List.getElem?_eq_some_iff.mpr ⟨hj, hjn⟩
    have hne : n ≠ rp := fun e => hrp (e ▸ hn)
    obtain ⟨i, hi⟩ : ∃ i, (mmtmList list).length = j + 1 + i := Nat.exists_eq_add_of_le hj
    have hpop : (mmtmList list).reverse[i]? = some n := by
      rw [List.getElem?_reverse' (j := j) (by omega), hpush]
    rw [hupops i n hpop hne, hi, popped_pushed_add, hslots j n hpush hne]
  have hregs (g : RegFile) (k : RegNum) : u.getReg g k = s.getReg g k := by
    by_cases hk : k ∈ rp :: (mmtmList list).reverse ∧ (g = f ∨ k = 15#4)
    · rw [getReg_of_sharing u hk.2, getReg_of_sharing s hk.2]
      rcases List.mem_cons.mp hk.1 with rfl | hmem
      · rw [huptr (by simpa using hrp), List.length_reverse, popped_pushed]
      · exact hlisted (List.mem_reverse.mp hmem)
    · rw [hukept g k hk, hkept g k (untouched_cons.mp hk).1]
  obtain ⟨hsp, hA, hB⟩ := regs_eq_of_getReg hregs
  have hpc : s.pc + 32#32 + 32#32 = s.pc + 64#32 := add_assoc _ _ _
  refine ⟨t, ht, ?_⟩
  rw [hu, huframe, hsp, hA, hB, htframe, hpc]

end Sys2Proof.Machine

/-! ## Statements of the state: the I/O registers by name (10_state.md R18; 40_trap_reti.md R84) -/

namespace Sys2Proof.Machine

theorem otherIo_index_injective : Function.Injective OtherIo.index := by
  refine Function.LeftInverse.injective (g := fun i => OtherIo.ofNat i.val) fun r => ?_
  cases r <;> rfl

theorem readIoReg_writeIoReg_same {r : IoReg} (h : r ≠ .intpend) (s : State) (v : Word) :
    (s.writeIoReg r v).readIoReg r = v := by
  cases r with
  | intpend => exact absurd rfl h
  | other r => exact Vector.getElem_set_self _
  | intenb | dpyint | vcount => rfl

/-- The registers are kept apart: no two share a field, and the unnamed ones are entries of one vector. -/
theorem readIoReg_writeIoReg_ne {r q : IoReg} (h : q ≠ r) (s : State) (v : Word) :
    (s.writeIoReg r v).readIoReg q = s.readIoReg q := by
  cases r with
  | other r =>
    cases q with
    | other q =>
      have hne : r ≠ q := fun e => h (congrArg IoReg.other e.symm)
      exact Vector.getElem_set_ne r.index.isLt q.index.isLt (Fin.val_ne_of_ne (otherIo_index_injective.ne hne))
    | intenb | intpend | dpyint | vcount => rfl
  | intenb =>
    cases q with
    | intenb => exact absurd rfl h
    | _ => rfl
  | intpend =>
    cases q with
    | intpend => exact absurd rfl h
    | _ => rfl
  | dpyint =>
    cases q with
    | dpyint => exact absurd rfl h
    | _ => rfl
  | vcount =>
    cases q with
    | vcount => exact absurd rfl h
    | _ => rfl

/-- Settles O39: reading back the register written, and each of the others. -/
theorem ioRegisterReadsAsWritten : Obligations.IoRegisterReadsAsWritten :=
  fun s _ v hr => ⟨readIoReg_writeIoReg_same hr s v, fun _ hq => readIoReg_writeIoReg_ne hq s v⟩

end Sys2Proof.Machine

/-! ## Statements of the exceptions: enabling, selection and requests (60_exceptions.md R90 to R104, R112) -/

namespace Sys2Proof.Machine

/-! ### Enabling (R91) -/

theorem enabled_iff_of_maskBit {i : Interrupt} {b : Nat} (h : i.maskBit = some b) (s : State) :
    i.enabled s = true ↔ s.st.getLsbD 21 = true ∧ s.intenb.getLsbD b = true := by
  rw [enabled_of_maskBit h, Bool.and_eq_true, stIE]

/-- Settles O26: each of the five with its bit of INTENB. -/
theorem maskableEnabledByIeAndMask : Obligations.MaskableEnabledByIeAndMask :=
  fun s => ⟨enabled_iff_of_maskBit rfl s, enabled_iff_of_maskBit rfl s, enabled_iff_of_maskBit rfl s,
    enabled_iff_of_maskBit rfl s, enabled_iff_of_maskBit rfl s⟩

/-! ### Selection (R96, R103, R104) -/

/-- In a list of rising rank, the first element with a property is the one of lowest rank that has it. -/
theorem find?_eq_some_iff_lowest {α : Type} {rank : α → Nat} {p : α → Bool} {l : List α}
    (hl : l.Pairwise (fun x y => rank x < rank y)) {i : α} :
    l.find? p = some i ↔ i ∈ l ∧ p i = true ∧ ∀ j ∈ l, p j = true → rank i ≤ rank j := by
  induction l with
  | nil => simp
  | cons x xs ih =>
    obtain ⟨hx, hxs⟩ := List.pairwise_cons.mp hl
    by_cases hp : p x = true
    · rw [List.find?_cons_of_pos hp]
      constructor
      · rintro ⟨⟩
        exact ⟨List.mem_cons_self, hp, List.forall_mem_cons.mpr ⟨fun _ => le_rfl, fun j hj _ => (hx j hj).le⟩⟩
      · rintro ⟨hi, -, hlow⟩
        rcases List.mem_cons.mp hi with rfl | hi
        · rfl
        · exact absurd (hlow x List.mem_cons_self hp) (hx i hi).not_ge
    · rw [List.find?_cons_of_neg hp, ih hxs, List.mem_cons, List.forall_mem_cons]
      constructor
      · rintro ⟨hi, hpi, hlow⟩
        exact ⟨.inr hi, hpi, fun h => absurd h hp, hlow⟩
      · rintro ⟨rfl | hi, hpi, -, hlow⟩
        · exact absurd hpi hp
        · exact ⟨hi, hpi, hlow⟩

/-- The interrupts whose requests are recorded (R90, R93), the highest priority first. -/
def recordedInterrupts : List Interrupt := [.nmi, .hi, .di, .wv, .int1, .int2]

theorem select_eq (s : State) : s.select = recordedInterrupts.find? (fun i => i.pending s && i.enabled s) := rfl

theorem recordedInterrupts_rising : recordedInterrupts.Pairwise (fun i j => i.priority < j.priority) := by decide

theorem recorded_of_pending {s : State} {i : Interrupt} (h : i.pending s = true) : i ∈ recordedInterrupts := by
  cases i with
  | reset | illop => nomatch h
  | nmi | hi | di | wv | int1 | int2 => decide

theorem recorded_of_select {s : State} {i : Interrupt} (h : s.select = some i) : i ∈ recordedInterrupts :=
  List.mem_of_find?_eq_some h

theorem select_eq_some_iff {s : State} {i : Interrupt} :
    s.select = some i ↔ i.pending s = true ∧ i.enabled s = true ∧
      ∀ j : Interrupt, j.pending s = true → j.enabled s = true → i.priority ≤ j.priority := by
  rw [select_eq, find?_eq_some_iff_lowest recordedInterrupts_rising]
  simp only [Bool.and_eq_true, and_assoc]
  constructor
  · rintro ⟨-, hp, he, hlow⟩
    exact ⟨hp, he, fun j hpj hej => hlow j (recorded_of_pending hpj) ⟨hpj, hej⟩⟩
  · rintro ⟨hp, he, hlow⟩
    exact ⟨recorded_of_pending hp, hp, he, fun j _ hj => hlow j hj.1 hj.2⟩

theorem select_eq_none_iff {s : State} : s.select = none ↔ ∀ j : Interrupt, j.pending s = true → j.enabled s = false := by
  rw [select_eq, List.find?_eq_none]
  simp only [Bool.and_eq_true, not_and, Bool.not_eq_true]
  exact ⟨fun h j hp => h j (recorded_of_pending hp) hp, fun h j _ => h j⟩

/-- Settles O27: the list of the selection is in order of priority, and holds every interrupt that can be pending. -/
theorem selectIsHighestPriority : Obligations.SelectIsHighestPriority :=
  fun _ => ⟨fun _ => select_eq_some_iff, select_eq_none_iff⟩

/-- Settles O28: INT1 has the higher priority of the two, and only the internal requests come before it. -/
theorem externalInterruptOneFirst : Obligations.ExternalInterruptOneFirst := by
  intro s h1 h2 he1 _
  have hp1 : Interrupt.int1.pending s = true := (pending_int1 s).trans h1
  refine ⟨fun hsel => ?_, fun hnone => ?_⟩
  · obtain ⟨-, -, hlow⟩ := select_eq_some_iff.mp hsel
    exact absurd (hlow .int1 hp1 he1) (by decide)
  · refine select_eq_some_iff.mpr ⟨hp1, he1, fun j hpj hej => ?_⟩
    cases j with
    | reset => nomatch hpj
    | nmi | hi | di | wv => exact absurd ⟨hpj, hej⟩ (hnone _ (by decide))
    | int1 | int2 | illop => decide

/-! ### What the bits of INTPEND follow (R94, R99 to R101) -/

/-- Settles O36: the pending bits of INT1, INT2 and HI, as INTPEND reads them. -/
theorem pendingBitsFollowTheirSources : Obligations.PendingBitsFollowTheirSources :=
  fun s => ⟨pending_int1 s, pending_int2 s, pending_hi s⟩

theorem getLsbD_DIP (b : Nat) : (0x0400#16).getLsbD b = decide (10 = b) :=
  BitVec.getLsbD_twoPow 10 b

/-- Horizontal blanking sets DIP on the line of DPYINT and keeps every other bit (R100). -/
theorem getLsbD_intpend_hblankStart (s : State) (b : Nat) :
    s.hblankStart.intpend.getLsbD b = (s.intpend.getLsbD b || decide (10 = b) && decide (s.vcount = s.dpyint)) := by
  unfold State.hblankStart
  by_cases hline : s.vcount = s.dpyint
  · rw [if_pos hline, getLsbD_intpend, getLsbD_intpend, BitVec.getLsbD_or, getLsbD_DIP]
    by_cases hb : 10 = b
    · subst hb
      simp [hline]
    · simp [hb]
  · simp [hline]

theorem hblankStart_frame (s : State) : s.hblankStart = { s with intpendHeld := s.hblankStart.intpendHeld } := by
  unfold State.hblankStart
  split <;> rfl

/-- The masks of a write to INTPEND at a bit that the chapter does not name (D21). -/
theorem unnamed_intpend_masks : ∀ b < 16, b ∉ [1, 2, 9, 10, 11] →
    (0xF1F9#16).getLsbD b = true ∧ (0x0C00#16).getLsbD b = false ∧ (0xFDF9#16).getLsbD b = true ∧
      (0x0002#16).getLsbD b = false ∧ (0x0004#16).getLsbD b = false ∧ (0x0200#16).getLsbD b = false := by
  decide

/-- The stored part of INTPEND after a write to it (R101, D21). -/
theorem getLsbD_intpendHeld_writeIoReg (s : State) (v : Word) (b : Nat) :
    (s.writeIoReg .intpend v).intpendHeld.getLsbD b =
      (v.getLsbD b && (0xF1F9#16).getLsbD b || s.intpendHeld.getLsbD b && v.getLsbD b && (0x0C00#16).getLsbD b) := by
  simp only [State.writeIoReg, BitVec.getLsbD_or, BitVec.getLsbD_and]

/-- Settles O38: the bits that follow their sources, the two that a write can clear, and the rest. -/
theorem intpendWriteOnlyClearsRequests : Obligations.IntpendWriteOnlyClearsRequests := by
  intro s v t
  refine ⟨?_, ?_, fun b hb hunnamed => ?_, rfl⟩
  · simp only [List.forall_mem_cons, List.not_mem_nil, false_implies, implies_true, and_true]
    exact ⟨(pending_int1 t).trans (pending_int1 s).symm, (pending_int2 t).trans (pending_int2 s).symm,
      (pending_hi t).trans (pending_hi s).symm⟩
  · have hclears {b : Nat} (h : b = 10 ∨ b = 11) : t.intpendHeld.getLsbD b = (s.intpendHeld.getLsbD b && v.getLsbD b) := by
      rw [getLsbD_intpendHeld_writeIoReg]
      rcases h with rfl | rfl <;> simp
    simp only [List.forall_mem_cons, List.not_mem_nil, false_implies, implies_true, and_true]
    exact ⟨(pending_di t).trans ((hclears (.inl rfl)).trans (congrArg (· && v.getLsbD 10) (pending_di s).symm)),
      (pending_wv t).trans ((hclears (.inr rfl)).trans (congrArg (· && v.getLsbD 11) (pending_wv s).symm))⟩
  · obtain ⟨hstored, hclear, hread, h1, h2, hhi⟩ := unnamed_intpend_masks b hb hunnamed
    rw [getLsbD_intpend, getLsbD_intpendHeld_writeIoReg, hstored, hclear, hread, h1, h2, hhi]
    simp only [Bool.and_true, Bool.and_false, Bool.or_false]

/-! ### What taking an interrupt clears (R112, D6) -/

theorem clearOnTake_nmi {s : State} (h : s.params.clearOnTake.nmi = true) :
    s.clearOnTake .nmi = { s with hstctl := { s.hstctl with nmi := false } } := if_pos h

theorem clearOnTake_hi {s : State} (h : s.params.clearOnTake.hi = true) :
    s.clearOnTake .hi = { s with hstctl := { s.hstctl with intin := false } } := if_pos h

theorem clearOnTake_di {s : State} (h : s.params.clearOnTake.di = true) :
    s.clearOnTake .di = { s with intpendHeld := s.intpendHeld &&& 0xFBFF#16 } := if_pos h

theorem clearOnTake_wv {s : State} (h : s.params.clearOnTake.wv = true) :
    s.clearOnTake .wv = { s with intpendHeld := s.intpendHeld &&& 0xF7FF#16 } := if_pos h

/-- What the clearing of a request can do: nothing, or one bit where the parameter says so. -/
theorem clearOnTake_cases (s : State) (i : Interrupt) :
    s.clearOnTake i = s ∨
    (i = .nmi ∧ s.params.clearOnTake.nmi = true ∧ s.clearOnTake i = { s with hstctl := { s.hstctl with nmi := false } }) ∨
    (i = .hi ∧ s.params.clearOnTake.hi = true ∧ s.clearOnTake i = { s with hstctl := { s.hstctl with intin := false } }) ∨
    (i = .di ∧ s.params.clearOnTake.di = true ∧ s.clearOnTake i = { s with intpendHeld := s.intpendHeld &&& 0xFBFF#16 }) ∨
    (i = .wv ∧ s.params.clearOnTake.wv = true ∧ s.clearOnTake i = { s with intpendHeld := s.intpendHeld &&& 0xF7FF#16 }) := by
  cases i with
  | reset | int1 | int2 | illop => exact .inl rfl
  | nmi =>
    by_cases h : s.params.clearOnTake.nmi = true
    · exact .inr (.inl ⟨rfl, h, clearOnTake_nmi h⟩)
    · exact .inl (if_neg h)
  | hi =>
    by_cases h : s.params.clearOnTake.hi = true
    · exact .inr (.inr (.inl ⟨rfl, h, clearOnTake_hi h⟩))
    · exact .inl (if_neg h)
  | di =>
    by_cases h : s.params.clearOnTake.di = true
    · exact .inr (.inr (.inr (.inl ⟨rfl, h, clearOnTake_di h⟩)))
    · exact .inl (if_neg h)
  | wv =>
    by_cases h : s.params.clearOnTake.wv = true
    · exact .inr (.inr (.inr (.inr ⟨rfl, h, clearOnTake_wv h⟩)))
    · exact .inl (if_neg h)

/-- With the default only NMI's request is cleared (D6). -/
theorem clearOnTake_default {s : State} (hdef : s.params.clearOnTake = Params.standard.clearOnTake) {i : Interrupt}
    (hi : i ≠ .nmi) : s.clearOnTake i = s := by
  rcases clearOnTake_cases s i with e | ⟨h, -⟩ | ⟨-, h, -⟩ | ⟨-, h, -⟩ | ⟨-, h, -⟩
  · exact e
  · exact absurd h hi
  all_goals exact absurd (hdef ▸ h) (by decide)

/-- The bit that an interrupt's request is read from (R94, R97, R99 to R101). -/
def Interrupt.source (s : State) : Interrupt → Bool
  | .reset | .illop => false
  | .nmi => s.hstctl.nmi
  | .hi => s.hstctl.intin
  | .di => s.intpendHeld.getLsbD 10
  | .wv => s.intpendHeld.getLsbD 11
  | .int1 => s.lint1Low
  | .int2 => s.lint2Low

theorem pending_eq_source (s : State) (i : Interrupt) : i.pending s = i.source s := by
  cases i with
  | reset | illop => rfl
  | nmi => exact pending_nmi s
  | hi => exact pending_hi s
  | di => exact pending_di s
  | wv => exact pending_wv s
  | int1 => exact pending_int1 s
  | int2 => exact pending_int2 s

/-- No other interrupt's request is cleared: each is read from a bit of its own. -/
theorem pending_clearOnTake_ne (s : State) {i j : Interrupt} (h : j ≠ i) : j.pending (s.clearOnTake i) = j.pending s := by
  rw [pending_eq_source, pending_eq_source]
  rcases clearOnTake_cases s i with e | ⟨rfl, -, e⟩ | ⟨rfl, -, e⟩ | ⟨rfl, -, e⟩ | ⟨rfl, -, e⟩ <;> rw [e]
  · cases j with
    | nmi => exact absurd rfl h
    | _ => rfl
  · cases j with
    | hi => exact absurd rfl h
    | _ => rfl
  · cases j with
    | di => exact absurd rfl h
    | wv => simp [Interrupt.source]
    | _ => rfl
  · cases j with
    | wv => exact absurd rfl h
    | di => simp [Interrupt.source]
    | _ => rfl

theorem clearOnTake_frame (s : State) (i : Interrupt) : s.clearOnTake i =
    { s with hstctl := (s.clearOnTake i).hstctl, intpendHeld := (s.clearOnTake i).intpendHeld } := by
  rcases clearOnTake_cases s i with e | ⟨-, -, e⟩ | ⟨-, -, e⟩ | ⟨-, -, e⟩ | ⟨-, -, e⟩ <;> rw [e]

/-- Settles O31: the bit each clearing clears, and what the clearing can do at all. -/
theorem clearOnTakeClearsOneRequest : Obligations.ClearOnTakeClearsOneRequest := by
  refine fun s => ⟨fun h => ?_, fun h => ?_, fun h => ?_, fun h => ?_, ?_, fun h _ => clearOnTake_default h,
    fun _ _ => pending_clearOnTake_ne s, clearOnTake_frame s⟩
  · rw [clearOnTake_nmi h, pending_nmi]
  · rw [clearOnTake_hi h, pending_hi]
  · rw [clearOnTake_di h, pending_di]
    simp
  · rw [clearOnTake_wv h, pending_wv]
    simp
  · simp only [List.forall_mem_cons, List.not_mem_nil, false_implies, implies_true, and_true]
    exact ⟨rfl, rfl, rfl⟩

end Sys2Proof.Machine

/-! ## Statements of the exceptions: the entry (60_exceptions.md R98, R105 to R111, R117) -/

namespace Sys2Proof.Machine

/-- Settles O13: `TRAP 30` saves the same two values and enters through the same vector. -/
theorem illegalOpcodeEntersVectorThirty : Obligations.IllegalOpcodeEntersVectorThirty := by
  intro i s hi
  rw [exec_isIllop hi]
  exact ⟨(exec_trap_saves (by decide) s).symm, takeIllop_entersSaving⟩

/-! ### At an instruction boundary (R105, R107, R111, R118) -/

/-- Where the machine is next, runs and has something to take, the step takes it. -/
theorem step_takeInterrupt {s : State} {rest : List Turn} {i : Interrupt} (hrun : s.run = .running)
    (hnext : s.machineIsNext rest) (hsel : s.select = some i) : step s = (s.setInputs rest).takeInterrupt i := by
  have hsel' : (s.setInputs rest).select = some i := hsel
  have hrun' : (s.setInputs rest).run = .running := hrun
  rw [step_machineIsNext hnext, State.machineTurn, hrun']
  dsimp only
  rw [hsel']

theorem saves_of_recorded {s : State} {i : Interrupt} (hi : i ∈ recordedInterrupts) (hnmi : i = .nmi → s.hstctl.nmim = false) :
    i.saves s = true := by
  cases i with
  | reset => exact absurd hi (by decide)
  | nmi => exact congrArg not (hnmi rfl)
  | hi | di | wv | int1 | int2 | illop => rfl

theorem quiet_clearOnTake {s : State} (hq : s.quiet) (i : Interrupt) : (s.clearOnTake i).quiet :=
  (clearOnTake_bus s i).trans hq

/-- Taking an interrupt that saves: its request cleared, PC and ST saved as they stand (R106, R111). -/
theorem takeInterrupt_entersSaving {s : State} (hq : s.quiet) (hp : s.params.pcLow4 = .forceZero) {i : Interrupt}
    (hsaves : i.saves s = true) :
    ∃ t, s.takeInterrupt i = .next t ∧ EntersSaving (s.clearOnTake i) t i.vector s.pc s.st := by
  have hp' : (s.clearOnTake i).params.pcLow4 = .forceZero := by rw [clearOnTake_params, hp]
  rw [State.takeInterrupt, hsaves]
  exact takeTrap_entersSaving (quiet_clearOnTake hq i) hp' i.vector s.pc s.st

/-- Settles O30: the selected interrupt is taken, and it is one that saves. -/
theorem selectedInterruptIsTaken : Obligations.SelectedInterruptIsTaken := by
  intro s i rest hrun hnext hq hp hsel hnmi
  rw [step_takeInterrupt hrun hnext hsel]
  exact takeInterrupt_entersSaving (s := s.setInputs rest) hq hp (saves_of_recorded (recorded_of_select hsel) hnmi)

/-- An entry that saves leaves the saved ST on top of the stack. -/
theorem EntersSaving.peek_sp {s t : State} {n : BitVec 5} {p q : Long} (h : EntersSaving s t n p q) : t.peek t.sp 32 = q := by
  have hsp : t.sp = s.params.stackDir.pushed s.sp 2 := by rw [h.frame]
  rw [hsp, h.savedST]

theorem EntersSaving.st {s t : State} {n : BitVec 5} {p q : Long} (h : EntersSaving s t n p q) : t.st = stEntry := by
  rw [h.frame, stEntry]

/-- Settles O35: the saved ST is the ST that stood, and an entry's ST has PBX clear. -/
theorem boundaryEntrySavesStAsItStands : Obligations.BoundaryEntrySavesStAsItStands := by
  intro s i hi hq hp hnmi
  obtain ⟨t, ht, henters⟩ := takeInterrupt_entersSaving hq hp (saves_of_recorded hi hnmi)
  exact ⟨t, ht, henters.peek_sp, congrArg stPBX henters.peek_sp, congrArg stPBX henters.st⟩

/-- A pending NMI is selected, whatever else is pending and whatever IE and INTENB hold (R92, R97). -/
theorem select_nmi {s : State} (h : s.hstctl.nmi = true) : s.select = some .nmi := by
  have hnmi : (Interrupt.nmi.pending s && Interrupt.nmi.enabled s) = true := by
    rw [pending_nmi, h, enabled_of_not_maskable rfl, Bool.and_self]
  exact List.find?_cons_of_pos hnmi

/-- Settles O32: NMI is selected, and with NMIM = 1 its entry saves nothing. -/
theorem nmiWithNmimSavesNothing : Obligations.NmiWithNmimSavesNothing := by
  intro s rest hrun hnext hq hp hclear hnmi hnmim
  have hsaves : Interrupt.nmi.saves (s.setInputs rest) = false := congrArg not hnmim
  rw [step_takeInterrupt hrun hnext (select_nmi hnmi), State.takeInterrupt, hsaves, clearOnTake_nmi (by exact hclear)]
  exact takeTrap_false (by exact hq) (by exact hp) 8#5 s.pc s.st

/-! ### What an entry leaves (R108, R109) -/

theorem enterVector_st (s : State) (n : BitVec 5) : OnNext (fun t => t.st = stEntry) (s.enterVector n) :=
  onNext_loadPC (s := (s.writeST stEntry).afterRead (vectorAddr n) 32)
    (fun v => (setPC_st _ v).trans (afterRead_st _ (vectorAddr n) 32)) _

/-- An entry that is not cut short sets ST, whatever falls inside it (R108). -/
theorem takeTrap_st {s t : State} {n : BitVec 5} {b : Bool} {p q : Long} (h : s.takeTrap n b p q = .next t)
    (hrun : t.run ≠ .resetLow) : t.st = stEntry := by
  rcases takeTrap_cases s n b p q with ⟨u, _, e⟩ | e <;> rw [e] at h
  · obtain rfl := Host.Outcome.next.inj h
    exact absurd (cutShort_run s u) hrun
  · exact enterVector_st _ n t h

/-- Settles O33: ST is set before the vector is fetched, and a quiet entry completes. -/
theorem entryWritesWholeStatus : Obligations.EntryWritesWholeStatus := by
  refine ⟨fun s t n b p q h hrun => ?_, fun s n b p q hq hp => ?_, rfl⟩
  · rw [takeTrap_st h hrun]
    decide
  · exact ⟨_, takeTrap_savedQuiet (quiet_saveContext hq b p q) hp n, saveContext_run s b p q, rfl⟩

theorem not_enabled_of_not_IE {s : State} (h : stIE s.st = false) : ∀ i ∈ maskable, i.enabled s = false := by
  intro i hi
  cases i with
  | reset | nmi | illop => exact absurd hi (by decide)
  | hi | di | wv | int1 | int2 => rw [enabled_of_maskBit rfl, h, Bool.false_and]

/-- With IE = 0 only NMI can be selected (R91, R92). -/
theorem select_of_not_IE {s : State} (h : stIE s.st = false) : s.select = if s.hstctl.nmi then some .nmi else none := by
  split
  next hnmi => exact select_nmi hnmi
  next hnmi =>
    refine select_eq_none_iff.mpr fun j hj => ?_
    cases j with
    | nmi => exact absurd hj hnmi
    | reset | illop => nomatch hj
    | hi | di | wv | int1 | int2 => exact not_enabled_of_not_IE h _ (by decide)

theorem stIE_stEntry : stIE stEntry = false := by decide

theorem fieldSizes_stEntry : fieldSize (stFS0 stEntry) = 16 ∧ fieldSize (stFS1 stEntry) = 32 := by decide

/-- Settles O34: IE is 0 after an entry, the fields have the sizes of its ST, and no request changes. -/
theorem entryLeavesOnlyNmi : Obligations.EntryLeavesOnlyNmi := by
  intro s n b p q hq hp
  have htrap := takeTrap_savedQuiet (quiet_saveContext hq b p q) hp n
  generalize ht : ((s.saveContext b p q).writeST stEntry).setPC _ = t at htrap
  have hst : t.st = stEntry := by rw [← ht, setPC_st, writeST_st]
  have hie : stIE t.st = false := by rw [hst, stIE_stEntry]
  have hctl : t.hstctl = s.hstctl := by simp [← ht]
  refine ⟨t, htrap, not_enabled_of_not_IE hie, hctl ▸ select_of_not_IE hie, ?_⟩
  rw [hst]
  refine ⟨fieldSizes_stEntry.1, fieldSizes_stEntry.2, fun v => ⟨asField0_stEntry v, asField1_stEntry v⟩, ?_, ?_⟩
  · simp [← ht]
  · simp [← ht, State.intpend]

end Sys2Proof.Machine

/-! ## Statements of the exceptions: the moves of the environment (60_exceptions.md R94, R99, R100, R122, R126) -/

namespace Sys2Proof.Machine

/-! ### A move that comes next -/

/-- A move that stands first and is no held access comes. -/
theorem step_envMove {s : State} {m : EnvMove} {rest : List Turn} (hin : s.inputs = .env m :: rest)
    (h : (m.isHostAccess && s.holdsAccesses) = false) : step s = envMove m (s.setInputs rest) := by
  have hcome : Turn.canCome s false (.env m) = true := by simp [Turn.canCome, h]
  rw [step, State.turn, hin, nextTurn_head hcome]

/-- A move that is no host access comes in every run state. -/
theorem step_otherMove {s : State} {m : EnvMove} {rest : List Turn} (hin : s.inputs = .env m :: rest)
    (hm : m.isHostAccess = false) : step s = envMove m (s.setInputs rest) :=
  step_envMove hin (by rw [hm, Bool.false_and])

theorem not_holdsAccesses_of_run {s : State} (h : s.run = .halted ∨ s.run = .running) : s.holdsAccesses = false := by
  unfold State.holdsAccesses
  rcases h with h | h <;> rw [h]

/-- Every move comes to a halted or a running GSP, the host's accesses among them. -/
theorem step_moveAfterReset {s : State} {m : EnvMove} {rest : List Turn} (hin : s.inputs = .env m :: rest)
    (h : s.run = .halted ∨ s.run = .running) : step s = envMove m (s.setInputs rest) :=
  step_envMove hin (by rw [not_holdsAccesses_of_run h, Bool.and_false])

/-- Settles O8: the host's write is the store, made when it comes. -/
theorem hostWriteStoresOneWord : Obligations.HostWriteStoresOneWord := by
  intro s a v rest hin hrun
  exact ⟨_, step_moveAfterReset hin hrun, peek_store_same (s.setInputs rest) a v (by decide),
    sameOutside_write s.mem a _ (by decide), rfl⟩

/-- Settles O37: the bit that horizontal blanking sets, and its frame. -/
theorem displayInterruptOnEqualLine : Obligations.DisplayInterruptOnEqualLine := by
  intro s rest hin
  refine ⟨_, step_otherMove hin rfl, ?_, fun b hb => ?_, hblankStart_frame (s.setInputs rest)⟩
  · exact getLsbD_intpend_hblankStart (s.setInputs rest) 10
  · have hne : decide (10 = b) = false := decide_eq_false hb.symm
    rw [getLsbD_intpend_hblankStart, hne, Bool.false_and, Bool.or_false]
    rfl

/-- Settles O40: each move sets one field, and the request of a pin is read from its level. -/
theorem pinAndCounterMovesSetTheirState : Obligations.PinAndCounterMovesSetTheirState :=
  fun _ _ _ _ => ⟨fun hin => ⟨_, step_otherMove hin rfl, pending_int1 _, rfl⟩,
    fun hin => ⟨_, step_otherMove hin rfl, pending_int2 _, rfl⟩, fun hin => ⟨_, step_otherMove hin rfl, rfl, rfl⟩⟩

/-- Settles O49: each of the host's moves as `envMove` makes it. -/
theorem hostMovesStoreWhatTheySay : Obligations.HostMovesStoreWhatTheySay := by
  intro s rest b o r v a k
  refine ⟨fun hin => step_otherMove hin rfl, fun hin => step_otherMove hin rfl,
    fun hin => ⟨_, step_otherMove hin rfl, pending_hi _, rfl⟩, fun hin => step_otherMove hin rfl, fun hin hrun => ?_,
    fun hin hrun => step_moveAfterReset hin hrun, fun hin => step_otherMove hin rfl⟩
  rw [step_moveAfterReset hin hrun]
  cases r <;> rfl

/-! ### The halted state (R122; 70_reset_and_hazards.md R142) -/

theorem machineTurn_idle {s : State} (h : s.run = .halted ∨ s.run = .resetLow) : s.machineTurn = .next s := by
  unfold State.machineTurn
  rcases h with h | h <;> rw [h]

/-- Settles O46: the machine's turn does nothing in these two run states. -/
theorem haltedMachineDoesNothing : Obligations.HaltedMachineDoesNothing := by
  intro s rest hrun hnext
  rw [step_machineIsNext hnext]
  exact machineTurn_idle (s := s.setInputs rest) hrun

/-- Settles O51: both moves come in every run state, and `envMove` refuses them. -/
theorem undescribedMovesRefused : Obligations.UndescribedMovesRefused := by
  refine fun s rest => ⟨fun hrun hin => ?_, fun hin => step_otherMove hin rfl⟩
  have hrun' : (s.setInputs rest).run = .running := hrun
  rw [step_otherMove hin rfl, envMove, State.hostWriteHlt, hrun']
  rfl

/-- No move but the host's 0 to HLT and RESET low takes the GSP out of the halted state. -/
theorem envMove_keepsHalted {m : EnvMove} {s : State} (h : s.run = .halted) (hhlt : m ≠ .hostHstctl .hlt false)
    (hreset : m ≠ .resetAsserted) : OnNext (fun t => t.run = .halted) (envMove m s) := by
  cases m with
  | resetAsserted => exact absurd rfl hreset
  | shortResetPulse => exact onNext_refused _
  | resetReleased hcsHigh draw =>
    have hnot : s.run ≠ .resetLow := by rw [h]; decide
    rw [envMove, if_neg hnot]
    exact onNext_next.mpr h
  | hblankStart =>
    refine onNext_next.mpr ?_
    rw [hblankStart_frame]
    exact h
  | hostHstctl bit v =>
    cases bit with
    | nmi | nmim | intin => exact onNext_next.mpr h
    | hlt =>
      cases v with
      | false => exact absurd rfl hhlt
      | true =>
        rw [envMove, State.hostWriteHlt, h]
        exact onNext_next.mpr h
  | hostIo r v => cases r <;> exact onNext_next.mpr h
  | lint1 | lint2 | vcount | hostHstctlOther | hostWrite | hostRead | hostRefresh => exact onNext_next.mpr h

/-- Settles O50: the machine's turn does nothing, and of the moves only these two end the halt. -/
theorem onlyHostOrResetEndsTheHalt : Obligations.OnlyHostOrResetEndsTheHalt := by
  intro s t hrun hstep hended
  have idle {rest : List Turn} (hnext : s.machineIsNext rest) : t.run = .halted := by
    rw [haltedMachineDoesNothing s rest (.inl hrun) hnext] at hstep
    exact Host.Outcome.next.inj hstep ▸ hrun
  match hin : s.inputs with
  | [] => exact absurd (idle (.inl ⟨hin, rfl⟩)) hended
  | .machine :: rest => exact absurd (idle (.inr hin)) hended
  | .env m :: rest =>
    rw [step_moveAfterReset hin (.inl hrun)] at hstep
    by_cases hhlt : m = .hostHstctl .hlt false
    · exact ⟨rest, .inl (hhlt ▸ rfl)⟩
    · by_cases hreset : m = .resetAsserted
      · exact ⟨rest, .inr (hreset ▸ rfl)⟩
      · exact absurd (envMove_keepsHalted (s := s.setInputs rest) hrun hhlt hreset t hstep) hended

end Sys2Proof.Machine

/-! ## Statements of the exceptions: what the GSP's work leaves alone (60_exceptions.md R109, R112, R114; 40_trap_reti.md R84) -/

namespace Sys2Proof.Machine

/-! ### The operations of the GSP's work, and what they keep -/

/-- The property is kept by each operation of which the GSP's work is made: by all that entries, returns, fetches and the
instructions of the table do to the state. -/
structure KeptByWork (P : State → Prop) : Prop where
  setPC {s : State} (v : Long) (hs : P s) : P (s.setPC v)
  setSP {s : State} (v : Long) (hs : P s) : P (s.setSP v)
  setReg {s : State} (f : RegFile) (n : RegNum) (v : Long) (hs : P s) : P (s.setReg f n v)
  setRun {s : State} (r : RunState) (hs : P s) : P (s.setRun r)
  writeST {s : State} (v : Long) (hs : P s) : P (s.writeST v)
  afterRead {s : State} (a : Long) (n : Nat) (hs : P s) : P (s.afterRead a n)
  write {s : State} (a : Long) {w : Nat} (v : BitVec w) (hs : P s) : P (s.write a v)
  noteFetch {s : State} (a : Long) (hs : P s) : P (s.noteFetch a)
  cutShort {s : State} (t : State) (hs : P s) : P (s.cutShort t)

namespace KeptByWork
variable {P : State → Prop} (h : KeptByWork P) {s : State} (hs : P s)
include h hs

theorem saveContext (b : Bool) (p q : Long) : P (s.saveContext b p q) := by
  cases b with
  | false => exact hs
  | true => exact h.write _ _ (h.setSP _ (h.write _ _ (h.setSP _ hs)))

theorem drop32 : P s.drop32 := h.setSP _ (h.afterRead _ _ hs)

theorem loadPC (v : Long) : OnNext P (s.loadPC v) := onNext_loadPC (fun _ => h.setPC _ hs) v

theorem takeTrap (n : BitVec 5) (b : Bool) (p q : Long) : OnNext P (s.takeTrap n b p q) :=
  onNext_unlessCut (h.cutShort _ hs) (h.loadPC (h.afterRead _ _ (h.writeST _ (h.saveContext hs b p q))) _)

theorem returnFromInterrupt : OnNext P s.returnFromInterrupt := by
  rcases returnFromInterrupt_cases s with ⟨_, e⟩ | ⟨_, e⟩ | ⟨_, e⟩ <;> rw [e]
  · exact onNext_next.mpr (h.cutShort _ hs)
  · exact onNext_refused _
  · exact h.loadPC (h.writeST _ (h.drop32 (h.drop32 hs))) _

theorem start : OnNext P s.start := h.takeTrap (h.setRun .running hs) _ _ _ _

theorem rasOnlyDone : OnNext P s.rasOnlyDone := by
  unfold State.rasOnlyDone
  split
  · exact onNext_next.mpr (h.setRun _ hs)
  · exact h.start hs

theorem execDivs (rs : RegNum) (f : RegFile) (rd : RegNum) : OnNext P (execDivs rs f rd s) := by
  have hdivision (q r : Long) : P (s.writeDivision f rd q r) := by
    unfold State.writeDivision
    split
    · exact h.setReg _ _ _ (h.setReg _ _ _ hs)
    · exact h.setReg _ _ _ hs
  exact onNext_next.mpr (h.setPC _ (h.writeST _ (hdivision _ _)))

theorem execMmtm (f : RegFile) (rp : RegNum) (list : Word) : OnNext P (execMmtm f rp list s) :=
  have hpushed := pushRegs_induct f rp (fun _ _ k => h.setReg _ _ _ k) (fun _ _ _ k => h.write _ _ k) (mmtmList list) s s
    (s.getReg f rp) hs
  onNext_unlessCut (h.cutShort _ hs) (onNext_next.mpr (h.setPC _ hpushed))

theorem execMmfm (f : RegFile) (rp : RegNum) (list : Word) : OnNext P (execMmfm f rp list s) :=
  have hpopped := popRegs_induct f (fun _ _ k => h.afterRead _ _ k) (fun _ _ _ k => h.setReg _ _ _ k) (mmfmList list) s
    (s.getReg f rp) hs
  onNext_unlessCut (h.cutShort _ hs) (onNext_next.mpr (h.setPC _ (h.setReg _ _ _ hpopped)))

theorem reconstructedOpcode (op : Word) : OnNext P (s.reconstructedOpcode op) := by
  unfold State.reconstructedOpcode
  split
  · exact h.takeTrap hs _ _ _ _
  · exact onNext_refused _

theorem exec (i : Instr) : OnNext P (exec i s) := by
  cases i with
  | trap n => exact h.takeTrap hs _ _ _ _
  | reti => exact h.returnFromInterrupt hs
  | rets n => exact onNext_unlessCut (h.cutShort _ hs) (h.loadPC (h.setSP _ (h.drop32 hs)) _)
  | jruc d => exact onNext_next.mpr (h.setPC _ hs)
  | divs rs f rd => exact h.execDivs hs rs f rd
  | mmtm f rp list => exact h.execMmtm hs f rp list
  | mmfm f rp list => exact h.execMmfm hs f rp list
  | pixbltBL | pixbltBXY | pixbltLL | pixbltLXY | pixbltXYL | pixbltXYXY | fillL | fillXY | line => exact onNext_refused _
  | illop0000 | illop0200 | illop0400 | illop0800 | illop0A00 | illop0C00 | illop0E00 | illop3400 | illopBE00 =>
    exact h.takeTrap hs _ _ _ _
  | maybe7E00 | maybe9E00 | maybeD800 | maybeDC00 | maybeDE00 | maybeFE00 => exact h.reconstructedOpcode hs _

theorem fetchWords (a : Long) (k : Nat) : OnFetch P (s.fetchWords a k) :=
  onFetch_fetchWords (fun _ _ k => h.cutShort _ k) (fun _ _ k => h.noteFetch _ (h.afterRead _ _ k)) k a hs

theorem effectRun (e : Effect) (op : Word) (exts : List Word) : P (e.run (Work.start s op exts)).state :=
  run_induct (fun _ _ _ _ k => h.setReg _ _ _ k) (fun _ _ k => h.setSP _ k) (fun _ _ _ k => h.afterRead _ _ k)
    (fun _ _ _ _ k => h.write _ _ k) e hs

/-- What the writes at the end of an instruction keep too, the meanings of `ExecOther` keep. -/
theorem givenOpcode (hend : ∀ s e, P s → P (s.endWrite e)) (op : Word) : OnNext P (s.givenOpcode op) := by
  rcases givenOpcode_cases s op with ⟨_, e⟩ | ⟨m, o, _, hf, e⟩ | ⟨m, exts, t, _, hf, e⟩ <;> rw [e]
  · exact onNext_refused _
  · exact (h.fetchWords hs _ _).error hf
  · have ht : P t := (h.fetchWords hs _ _).ok hf
    have hfinished : P (m.effects.run (Work.start t op exts)).finished :=
      finished_induct (fun s e _ k => hend s e k) (h.effectRun ht m.effects op exts)
    rcases runOther_cases t m op exts with ⟨_, e⟩ | ⟨_, _, e⟩ | ⟨_, _, ⟨v, _, e⟩ | ⟨_, e⟩⟩ <;> rw [e]
    · exact onNext_next.mpr (h.cutShort _ ht)
    · exact onNext_refused _
    · exact h.loadPC hfinished _
    · exact onNext_next.mpr (h.setPC _ hfinished)

omit hs in
/-- What the meanings of `ExecOther` keep, running the instruction at the PC keeps. -/
theorem runInstruction (hgiven : ∀ s op, P s → OnNext P (s.givenOpcode op)) (hs : P s) : OnNext P s.runInstruction := by
  refine onNext_runInstruction (fun _ _ k => h.cutShort _ k) (fun _ _ k => h.noteFetch _ (h.afterRead _ _ k))
    (fun s op k => ?_) hgiven (fun i _ k => h.exec k i) hs
  unfold State.otherOpcode
  split
  · exact h.takeTrap k _ _ _ _
  · exact hgiven s op k

omit hs in
/-- What the clearing of a request keeps too, the machine's turn keeps. `ILLOP` has no request to clear. -/
theorem machineTurn (hgiven : ∀ s op, P s → OnNext P (s.givenOpcode op)) (hclear : ∀ i, P (s.clearOnTake i)) :
    OnNext P s.machineTurn := by
  have hs : P s := hclear .illop
  rcases machineTurn_cases s with ⟨_, e⟩ | ⟨_, e⟩ | ⟨i, _, _, e⟩ | ⟨_, _, e⟩ <;> rw [e]
  · exact onNext_next.mpr hs
  · exact h.rasOnlyDone hs
  · exact h.takeTrap (hclear i) _ _ _ _
  · exact h.runInstruction hgiven hs

end KeptByWork

/-! ### What the work has no operation for -/

/-- The state with the GSP's own part blanked: its registers, memory, its run state and the model's notes of its work. What is
left is the pins, the cache, the I/O registers, HSTCTL, the refresh interval, the parameters and the turns to come. -/
def State.periphery (s : State) : State :=
  { s with
    pc := 0
    st := 0
    sp := 0
    fileA := Vector.replicate 15 0
    fileB := Vector.replicate 15 0
    run := .running
    mem := []
    fetchedSegs := []
    stale := []
    bus := [] }

/-- A property that reads the periphery alone is kept by the GSP's work. -/
theorem keptByWork_of_periphery {P : State → Prop} (hP : ∀ s t : State, t.periphery = s.periphery → P s → P t) :
    KeptByWork P where
  setPC _ := hP _ _ rfl
  setSP _ := hP _ _ rfl
  setReg _ _ _ := hP _ _ (by simp [State.periphery])
  setRun _ := hP _ _ rfl
  writeST _ := hP _ _ rfl
  afterRead _ _ := hP _ _ (by simp [State.periphery])
  write _ _ _ := hP _ _ (by simp [State.periphery])
  noteFetch _ := hP _ _ rfl
  cutShort _ := hP _ _ rfl

/-- The part of the periphery that no turn of the machine changes, whatever `ExecOther` gives. -/
def State.fixtures (s : State) : Bool × Bool × Cache × List (Nat × Nat) × List Turn × Params :=
  (s.lint1Low, s.lint2Low, s.cache, s.nonvolatile, s.inputs, s.params)

theorem machineTurn_keepsFixtures (s : State) : OnNext (fun t => t.fixtures = s.fixtures) s.machineTurn := by
  have hkept : KeptByWork (fun t => t.fixtures = s.fixtures) :=
    keptByWork_of_periphery fun _ _ e hs => (congrArg State.fixtures e).trans hs
  have hend (u : State) (e : EndWrite) (hu : u.fixtures = s.fixtures) : (u.endWrite e).fixtures = s.fixtures := by
    simpa [State.fixtures] using hu
  exact hkept.machineTurn (fun _ op hu => hkept.givenOpcode hu hend op) (fun i => by simp [State.fixtures])

/-- Where `ExecOther` gives no meanings, of the periphery only the request of an interrupt that is taken changes. -/
theorem machineTurn_periphery {s : State} (hnone : s.params.execOther = []) :
    OnNext (fun t => ∃ i, t.periphery = (s.clearOnTake i).periphery) s.machineTurn := by
  have hkept : KeptByWork (fun t => ∃ i, t.periphery = (s.clearOnTake i).periphery) :=
    keptByWork_of_periphery fun _ _ e ⟨i, hi⟩ => ⟨i, e.trans hi⟩
  refine hkept.machineTurn (fun u op ⟨i, hi⟩ => ?_) (fun i => ⟨i, rfl⟩)
  have hparams : u.params = s.params := (congrArg State.params hi).trans (clearOnTake_params s i)
  rw [givenOpcode_noMeaning (by simp [hparams, hnone])]
  exact onNext_refused _

/-- With the default of `ClearOnTake` the clearing of a request changes no I/O register, and of HSTCTL only NMI. -/
theorem clearOnTake_default_registers {s : State} (hdef : s.params.clearOnTake = Params.standard.clearOnTake)
    (i : Interrupt) :
    (∀ r : IoReg, (s.clearOnTake i).readIoReg r = s.readIoReg r) ∧ (s.clearOnTake i).intpendHeld = s.intpendHeld ∧
      ((s.clearOnTake i).hstctl = s.hstctl ∨ (s.clearOnTake i).hstctl = { s.hstctl with nmi := false }) := by
  by_cases hi : i = .nmi
  · have hclear : s.params.clearOnTake.nmi = true := by rw [hdef]; rfl
    rw [hi, clearOnTake_nmi hclear]
    exact ⟨fun r => by cases r <;> rfl, rfl, .inr rfl⟩
  · rw [clearOnTake_default hdef hi]
    exact ⟨fun _ => rfl, rfl, .inl rfl⟩

/-- Settles O56: the fixtures in every turn, and of the rest only what taking an interrupt clears. -/
theorem machineTurnKeepsIoRegisters : Obligations.MachineTurnKeepsIoRegisters := by
  intro s t h
  have hfixtures := machineTurn_keepsFixtures s t h
  simp only [State.fixtures, Prod.mk.injEq] at hfixtures
  obtain ⟨hlint1, hlint2, hcache, hnonvolatile, hinputs, hparams⟩ := hfixtures
  refine ⟨hlint1, hlint2, hcache, hnonvolatile, hinputs, hparams, fun hnone => ?_⟩
  obtain ⟨i, hi⟩ := machineTurn_periphery hnone t h
  refine ⟨(congrArg State.refreshInterval hi).trans (clearOnTake_refreshInterval s i), fun hdef => ?_⟩
  obtain ⟨hregs, hheld, hctl⟩ := clearOnTake_default_registers hdef i
  have htctl := congrArg State.hstctl hi
  exact ⟨fun r => (congrArg (State.readIoReg · r) hi).trans (hregs r), (congrArg State.intpendHeld hi).trans hheld,
    hctl.imp htctl.trans htctl.trans⟩

end Sys2Proof.Machine

/-! ## Statements of reset: its rise, the start of the GSP, and the host's writes of HLT (70_reset_and_hazards.md) -/

namespace Sys2Proof.Machine

/-! ### RESET low and its rise (R140, R146, R147, R155) -/

/-- Settles O43: the move comes in every run state, and sets the run state alone. -/
theorem resetAssertedAtAnyTurn : Obligations.ResetAssertedAtAnyTurn :=
  fun _ _ hin => step_otherMove hin rfl

theorem step_resetReleased {s : State} {hcsHigh : Bool} {draw : PowerOn} {rest : List Turn} (hrun : s.run = .resetLow)
    (hin : s.inputs = .env (.resetReleased hcsHigh draw) :: rest) :
    step s = .next ((s.setInputs rest).resetReleased hcsHigh draw) := by
  have hrun' : (s.setInputs rest).run = .resetLow := hrun
  rw [step_otherMove hin rfl, envMove, if_pos hrun']

/-- The rise of RESET clears the I/O registers; INTPEND reads its pins on top of what is held (R147, log 25). -/
theorem resetReleased_readIoReg (s : State) (hcsHigh : Bool) (draw : PowerOn) {r : IoReg} (hr : r ≠ .intpend) :
    (s.resetReleased hcsHigh draw).readIoReg r = 0#16 := by
  cases r with
  | intpend => exact absurd rfl hr
  | other q => exact Vector.getElem_replicate _
  | intenb | dpyint | vcount => rfl

/-- Where no word is noted as changed, every word can be fetched (20_memory.md R55). -/
theorem fetchIsStale_of_stale_nil {s : State} (h : s.stale = []) (a : Long) : s.fetchIsStale a = false := by
  simp [State.fetchIsStale, h]

/-- Settles O42: the fields as `State.resetReleased` sets them, memory byte by byte. -/
theorem resetReleaseSetsTheState : Obligations.ResetReleaseSetsTheState := by
  intro s hcsHigh draw rest hrun hin
  exact ⟨_, step_resetReleased hrun hin, rfl, fun _ hr => resetReleased_readIoReg _ _ _ hr, rfl, rfl, rfl, rfl, rfl, rfl,
    rfl, rfl, rfl, rfl, rfl, rfl, rfl, rfl, rfl, fetchIsStale_of_stale_nil rfl, rfl, rfl,
    fun _ hk => byte_afterReset _ _ _ hk⟩

/-! ### The start of the GSP and the writes of HLT (R149, R151, R152, R155) -/

/-- The start on a quiet bus: ST set, and the PC from the level-0 vector as memory stands. -/
theorem start_quiet {s : State} (hq : s.quiet) (hp : s.params.pcLow4 = .forceZero) :
    s.start = .next { s with run := .running, st := 0x00000010#32, pc := s.vectorPC 0#5 } :=
  takeTrap_false (s := s.setRun .running) hq hp 0#5 s.pc s.st

theorem machineTurn_initialising {s : State} (h : s.run = .initialising) : s.machineTurn = s.rasOnlyDone := by
  unfold State.machineTurn
  rw [h]

theorem rasOnlyDone_of_hlt {s : State} (h : s.hstctl.hlt = true) : s.rasOnlyDone = .next (s.setRun .halted) := if_pos h

theorem rasOnlyDone_of_not_hlt {s : State} (h : s.hstctl.hlt = false) : s.rasOnlyDone = s.start :=
  if_neg (Bool.eq_false_iff.mp h)

/-- Settles O45: HLT decides between the halt and the start. -/
theorem endOfRasCyclesHaltsOrStarts : Obligations.EndOfRasCyclesHaltsOrStarts := by
  intro s rest hrun hnext
  rw [step_machineIsNext hnext, machineTurn_initialising (s := s.setInputs rest) hrun]
  refine ⟨fun hhlt => rasOnlyDone_of_hlt hhlt, fun hhlt hq hp => ?_⟩
  rw [rasOnlyDone_of_not_hlt (s := s.setInputs rest) hhlt]
  exact start_quiet (s := s.setInputs rest) hq hp

/-- The host's 0 to HLT of a halted GSP starts it. -/
theorem hostWriteHlt_starts {s : State} (h : s.run = .halted) :
    s.hostWriteHlt false = (s.writeHstctlBit .hlt false).start := by
  unfold State.hostWriteHlt
  rw [h]
  rfl

/-- The host's other writes of HLT, but for the 1 that a running GSP refuses, store the bit (R155, D17). -/
theorem hostWriteHlt_stores {s : State} {v : Bool}
    (h : s.run = .resetLow ∨ s.run = .initialising ∨ (s.run = .halted ∧ v = true) ∨ (s.run = .running ∧ v = false)) :
    s.hostWriteHlt v = .next (s.writeHstctlBit .hlt v) := by
  unfold State.hostWriteHlt
  rcases h with h | h | ⟨h, rfl⟩ | ⟨h, rfl⟩ <;> rw [h] <;> rfl

/-- Settles O47: the bit is stored, and the GSP starts with it clear. -/
theorem hostClearingHltStartsTheGsp : Obligations.HostClearingHltStartsTheGsp := by
  intro s rest hrun hin hq hp
  rw [step_otherMove hin rfl, envMove, hostWriteHlt_starts (s := s.setInputs rest) hrun]
  exact start_quiet (s := (s.setInputs rest).writeHstctlBit .hlt false) hq hp

/-- Settles O48: in each of the four cases the write stores the bit. -/
theorem hostHltWritesStoreTheBit : Obligations.HostHltWritesStoreTheBit := by
  intro s rest v hin hrun
  rw [step_otherMove hin rfl]
  exact hostWriteHlt_stores (s := s.setInputs rest) hrun

end Sys2Proof.Machine

/-! ## Statements of reset: RESET inside an entry or an instruction (70_reset_and_hazards.md R154; 60_exceptions.md R106, R115) -/

namespace Sys2Proof.Machine

/-! ### After RESET no cycle is made (D16) -/

theorem beginCycle_resetAsserted {s : State} {es : List BusEvent} (h : s.bus = .resetAsserted :: es) :
    s.beginCycle = s.setBus (.cut :: es) := by
  rw [State.beginCycle, h]
  rfl

theorem afterCycles_cut {s : State} (h : s.isCut = true) (k : Nat) : s.afterCycles k = s := by
  induction k with
  | zero => rfl
  | succ k ih => rw [State.afterCycles, ih, beginCycle_cut h]

/-- A write that RESET precedes makes none of its cycles. -/
theorem writeCycles_cut {s : State} (h : s.beginCycle.isCut = true) (a : Long) {w : Nat} (v : BitVec w) (k : Nat) :
    s.writeCycles a v (k + 1) = s.beginCycle := by
  induction k with
  | zero => exact if_pos h
  | succ k ih =>
    rw [State.writeCycles, ih, beginCycle_cut h]
    exact if_pos h

/-- Of such a write nothing is left but the note of the words it was to change. -/
theorem write_resetFirst {s : State} {es : List BusEvent} (h : s.bus = .resetAsserted :: es) (a v : Long) :
    s.write a v = (s.setBus (.cut :: es)).markStale (wordsTouched a 32) := by
  have hbegin := beginCycle_resetAsserted h
  have hcut : s.beginCycle.isCut = true := by
    rw [hbegin]
    rfl
  obtain ⟨k, hk⟩ : ∃ k, cycleCount a 32 = k + 1 := ⟨cycleCount a 32 - 1, by unfold cycleCount; omega⟩
  unfold State.write
  rw [hk, writeCycles_cut hcut, hbegin]

/-! ### RESET inside an entry (R106, R115) -/

/-- A push at a word boundary whose two cycles come first on the bus is made whole. -/
theorem push32_ownCycles {s : State} {es : List BusEvent} (hsp : s.sp &&& 0xF#32 = 0#32)
    (hbus : s.bus = .cycle :: .cycle :: es) (hes : es.head? ≠ some .cut) (v : Long) :
    s.push32 v =
      ((s.setSP (s.params.stackDir.pushed s.sp 1)).store (s.params.stackDir.pushed s.sp 1) v).setBus es :=
  write_ownCycles (s := s.setSP _) (cycleCount_long (pushed_word hsp s.params.stackDir) ▸ hbus) hes v

/-- RESET between the two pushes of an entry: PC is pushed and ST is not. -/
theorem saveContext_resetBetween {s : State} {later : List BusEvent} (hsp : s.sp &&& 0xF#32 = 0#32)
    (hbus : s.bus = .cycle :: .cycle :: .resetAsserted :: later) (p q : Long) :
    (s.saveContext true p q).mem = (s.store (s.params.stackDir.pushed s.sp 1) p).mem ∧
    (s.saveContext true p q).bus = .cut :: later := by
  have hsave : s.saveContext true p q = (s.push32 p).push32 q := rfl
  rw [hsave, push32_ownCycles hsp hbus nofun, State.push32, write_resetFirst rfl]
  exact ⟨rfl, rfl⟩

/-- An entry cut short while it saves fetches no vector: memory is as the pushes left it. -/
theorem takeTrap_cutInSave {s : State} {b : Bool} {p q : Long} (h : (s.saveContext b p q).isCut = true) (n : BitVec 5) :
    s.takeTrap n b p q = .next (s.cutShort (s.saveContext b p q)) := by
  have hread : ((s.saveContext b p q).writeST stEntry).afterRead (vectorAddr n) 32 =
      (s.saveContext b p q).writeST stEntry :=
    afterCycles_cut (s := (s.saveContext b p q).writeST stEntry) h _
  unfold State.takeTrap
  dsimp only
  rw [hread]
  exact if_pos h

theorem takeTrap_resetBetween {s : State} {later : List BusEvent} (hsp : s.sp &&& 0xF#32 = 0#32)
    (hbus : s.bus = .cycle :: .cycle :: .resetAsserted :: later) (n : BitVec 5) (p q : Long) :
    ∃ t, s.takeTrap n true p q = .next t ∧
      t = { s with
        run := .resetLow
        mem := (s.store (s.params.stackDir.pushed s.sp 1) p).mem
        stale := t.stale
        bus := later } := by
  obtain ⟨hmem, hlater⟩ := saveContext_resetBetween hsp hbus p q
  have hcut : (s.saveContext true p q).isCut = true := by
    rw [State.isCut, hlater]
    rfl
  refine ⟨_, takeTrap_cutInSave hcut n, ?_⟩
  rw [State.cutShort, hmem, hlater]
  rfl

/-! ### RESET inside an instruction (R154) -/

/-- The state ends a piece of work that began in `s`: in the run state it began in, or as RESET left it. -/
def EndsWork (s t : State) : Prop := t.run = s.run ∨ ∃ u, t = s.cutShort u

/-- A state in another run state than the work began in is the one before it, but for what `State.cutShort` gives. -/
theorem EndsWork.eq_of_run_ne {s t : State} (h : EndsWork s t) (hrun : t.run ≠ s.run) :
    t = { s with run := .resetLow, mem := t.mem, stale := t.stale, bus := t.bus } := by
  obtain ⟨u, rfl⟩ := h.resolve_left hrun
  rfl

theorem endsWork_unlessCut {s u : State} {go : Host.Outcome State Fault Refusal}
    (hgo : OnNext (fun t => t.run = s.run) go) : OnNext (EndsWork s) (s.unlessCut u go) :=
  onNext_unlessCut (.inr ⟨u, rfl⟩) (fun t ht => .inl (hgo t ht))

/-- Loading the PC changes no run state. -/
theorem loadPC_run {s t : State} (h : t.run = s.run) (v : Long) : OnNext (fun u => u.run = s.run) (t.loadPC v) :=
  onNext_loadPC (fun w => (setPC_run t w).trans h) v

theorem takeTrap_endsWork (s : State) (n : BitVec 5) (b : Bool) (p q : Long) :
    OnNext (EndsWork s) (s.takeTrap n b p q) :=
  endsWork_unlessCut (loadPC_run (by simp) _)

theorem returnFromInterrupt_endsWork (s : State) : OnNext (EndsWork s) s.returnFromInterrupt := by
  refine endsWork_unlessCut ?_
  split
  · exact onNext_refused _
  · exact loadPC_run (by simp) _

theorem writeDivision_run (s : State) (f : RegFile) (rd : RegNum) (q r : Long) :
    (s.writeDivision f rd q r).run = s.run := by
  unfold State.writeDivision
  split <;> simp

theorem pushRegs_run (s regs : State) (f : RegFile) (rp : RegNum) (p : Long) (ns : List RegNum) :
    (s.pushRegs regs f rp p ns).run = s.run :=
  pushRegs_induct (P := fun t => t.run = s.run) f rp (fun t v h => (setReg_run t f rp v).trans h)
    (fun t a v h => (write_run t a v).trans h) ns s regs p rfl

theorem popRegs_run (s : State) (f : RegFile) (p : Long) (ns : List RegNum) : (s.popRegs f p ns).run = s.run :=
  popRegs_induct (P := fun t => t.run = s.run) f (fun t a h => (afterRead_run t a 32).trans h)
    (fun t n v h => (setReg_run t f n v).trans h) ns s p rfl

theorem reconstructedOpcode_endsWork (s : State) (op : Word) : OnNext (EndsWork s) (s.reconstructedOpcode op) := by
  unfold State.reconstructedOpcode
  split
  · exact takeTrap_endsWork s _ _ _ _
  · exact onNext_refused _

/-- An instruction changes the run state in one way alone: RESET cuts it short. -/
theorem exec_endsWork (i : Instr) (s : State) : OnNext (EndsWork s) (exec i s) := by
  cases i with
  | trap n => exact takeTrap_endsWork s _ _ _ _
  | reti => exact returnFromInterrupt_endsWork s
  | rets n => exact endsWork_unlessCut (loadPC_run (by simp) _)
  | jruc d => exact onNext_next.mpr (.inl rfl)
  | divs rs f rd => exact onNext_next.mpr (.inl (writeDivision_run s f rd _ _))
  | mmtm f rp list => exact endsWork_unlessCut (onNext_next.mpr (pushRegs_run s s f rp _ _))
  | mmfm f rp list =>
    exact endsWork_unlessCut (onNext_next.mpr ((setReg_run _ f rp _).trans (popRegs_run s f _ _)))
  | pixbltBL | pixbltBXY | pixbltLL | pixbltLXY | pixbltXYL | pixbltXYXY | fillL | fillXY | line => exact onNext_refused _
  | illop0000 | illop0200 | illop0400 | illop0800 | illop0A00 | illop0C00 | illop0E00 | illop3400 | illopBE00 =>
    exact takeTrap_endsWork s _ _ _ _
  | maybe7E00 | maybe9E00 | maybeD800 | maybeDC00 | maybeDE00 | maybeFE00 => exact reconstructedOpcode_endsWork s _

/-- Settles O44: RESET between the pushes of an entry, and the one way an instruction changes the run state. -/
theorem resetInsideTheWork : Obligations.ResetInsideTheWork :=
  ⟨fun _ n p q _ hsp hbus => takeTrap_resetBetween hsp hbus n p q, fun i s t ht => (exec_endsWork i s t ht).eq_of_run_ne⟩

end Sys2Proof.Machine
